-- ==== Sys2Proof/Word.lean ====
section
/-! DEFINITION. The machine's value widths: 32-bit registers and addresses (spec 10_state.md R21, R25),
16-bit instruction units (30_encoding.md R90) and octets (20_memory.md R61). -/

namespace Sys2Proof

/-- A 32-bit register value or address (R21, R25, R60). -/
abbrev Word := BitVec 32

/-- A 16-bit instruction unit, or a halfword of data (R63, R90). -/
abbrev Half := BitVec 16

/-- "Bytes are octets (8 bits)." (R61) -/
abbrev Byte := BitVec 8

end Sys2Proof
end

