-- ==== Sys2Proof/Config.lean ====
section
/-! DEFINITION. The spec's parameters (00_scope.md R6) and the free values: opaque constants without a body,
so that nothing can be proved of the value an open point takes. -/

namespace Sys2Proof

/-- `MISALIGNED_DATA` (R6, R69): what a 2- or 4-byte data access at an address that is no multiple of its
size does. -/
inductive MisalignedData where
  /-- The step is `fault(misaligned_data)`. -/
  | fault
  /-- The access is performed byte by byte, exactly as R65 defines. -/
  | split
  deriving DecidableEq, Repr

/-- `NARROW_SHIFT_WRITEBACK` (R6, R313): how a narrow shift writes its result into the 32-bit register. -/
inductive NarrowWriteback where
  /-- The whole register is written, zero- or sign-extended from the narrow result. -/
  | extend
  /-- Only the low bits are replaced. -/
  | merge
  deriving DecidableEq, Repr

/-- `RESERVED_ENCODING` (R6, R114): what executing an unassigned encoding does. -/
inductive ReservedEncoding where
  /-- The step is `fault(reserved_encoding)`. -/
  | fault
  /-- `pc` advances by 2 and the prefix state is cleared. -/
  | nop
  deriving DecidableEq, Repr

/-- What the platform has at an address (`MEM_MAP`, R6, R73). -/
inductive RegionKind where
  /-- Memory: a read returns what was last written, or the initial image. -/
  | ram
  /-- A device, whose behaviour the harness would have to supply (R73, R372). -/
  | device
  /-- Nothing: an access is `fault(bus)`. -/
  | absent
  deriving DecidableEq, Repr

/-- One region of the address map: the addresses from `base` up to, not including, `base + size`. -/
structure Region where
  base : Nat
  size : Nat
  kind : RegionKind
  deriving DecidableEq, Repr

/-- The parameters of R6 that select a behaviour. They stand in State, so that a statement about all states is
a statement about every setting; no step changes them. -/
structure Params where
  /-- `IRQ_ENTRY_CLEARS_IE` (R335, decision D23). -/
  irqEntryClearsIe : Bool
  /-- `SWI_MASKED_BY_IE` (R338, decision D25). -/
  swiMaskedByIe : Bool
  /-- `MISALIGNED_DATA` (R69, decision D17). -/
  misalignedData : MisalignedData
  /-- `NARROW_SHIFT_WRITEBACK` (R313, decision D15). -/
  narrowShiftWriteback : NarrowWriteback
  /-- `RESERVED_ENCODING` (R114, decision D19). -/
  reservedEncoding : ReservedEncoding
  /-- `MEM_MAP` (R73, decision D28): the first region that holds an address decides; an address in no region
  is RAM, so the empty list is the all-RAM map. -/
  memMap : List Region
  deriving DecidableEq, Repr

/-- The defaults that R6 recommends. DESIGN CHOICE (log entry 7): unsafe, a statement should not rest on them. -/
def Params.recommended : Params where
  irqEntryClearsIe := true
  swiMaskedByIe := false
  misalignedData := .fault
  narrowShiftWriteback := .extend
  reservedEncoding := .fault
  memMap := []

/-- The shift operations whose out-of-range amounts are open (R181, R313 to R316). -/
inductive ShiftOp where
  | lsl | lsr | asr | lsrb | lsrh | asrb | asrh
  deriving DecidableEq, Repr

/-- The two extension operations (R163, R164). -/
inductive ExtOp where
  | ze | se
  deriving DecidableEq, Repr

/-- The division operations (R272 to R275, and at 64 bits R278 to R281). -/
inductive DivOp where
  | udiv | sdiv | umod | smod
  deriving DecidableEq, Repr

/-- `SHIFT_OOR(op, v, n)` (R6, R181, R313): the result of a shift by an amount out of range. Free value
(log entry 8); a narrow shift uses its low 8 or 16 bits. -/
opaque Config.shiftOor : ShiftOp → Word → Word → Word

/-- `EXT_OOR(op, v, imm)` (R6, R163, R164): the result of `ze`/`se` at a position out of range. Free value
(log entry 9). -/
opaque Config.extOor : ExtOp → Word → Word → Word

/-- `DIV_SPECIAL(op, dividend, divisor)` (R6, R270): the result of a division or modulo by zero, or of the
signed overflow case, at the destination's width. Free value (log entry 10). -/
opaque Config.divSpecial : (w : Nat) → DivOp → BitVec w → BitVec w → BitVec w

end Sys2Proof
end

