-- ==== Sys2Proof/Syntax.lean ====
section
/-! DEFINITION. The instructions as syntax: one constructor for each of the 94 forms of 30_encoding.md R93.
Fields an instruction does not use (R115, decision D21) are no part of its term. -/

namespace Sys2Proof

/-- A general-purpose register field (R22, R111): 0 to 12 are `r0` to `r12`, 13 is `lr`, 14 is `fp`, 15 is `sp`. -/
abbrev Reg := BitVec 4

/-- A special-purpose register field as encoded (R30, R111): 0 to 5 are assigned, 6 to 15 are reserved (R38). -/
abbrev SpecialField := BitVec 4

/-- The six special-purpose registers (R30). -/
inductive Special where
  | flags | ids | ira | ie | ity | sty
  deriving DecidableEq, Repr

/-- The instruction forms, in the order of R93. -/
inductive Instr where
  -- Group 0: prefixes
  /-- `pre #imm12` (R130). -/
  | pre (imm : BitVec 12)
  /-- `lpre #imm27` (R131). -/
  | lpre (imm : BitVec 27)
  -- Group 1: register and immediate; `i` is the raw 5-bit field
  /-- `add rA, #simm` (R151). -/
  | addImm (a : Reg) (i : BitVec 5)
  /-- `add rA, pc, #simm` (R152). -/
  | addPcImm (a : Reg) (i : BitVec 5)
  /-- `add rA, sp, #simm` (R153). -/
  | addSpImm (a : Reg) (i : BitVec 5)
  /-- `add rA, fp, #simm` (R154). -/
  | addFpImm (a : Reg) (i : BitVec 5)
  /-- `cmp rA, #simm` (R155). -/
  | cmpImm (a : Reg) (i : BitVec 5)
  /-- `cpy rA, #simm` (R156). -/
  | cpyImm (a : Reg) (i : BitVec 5)
  /-- `lsl rA, #imm` (R157). -/
  | lslImm (a : Reg) (i : BitVec 5)
  /-- `lsr rA, #imm` (R158). -/
  | lsrImm (a : Reg) (i : BitVec 5)
  /-- `asr rA, #imm` (R159). -/
  | asrImm (a : Reg) (i : BitVec 5)
  /-- `and rA, #simm` (R160). -/
  | andImm (a : Reg) (i : BitVec 5)
  /-- `orr rA, #simm` (R161). -/
  | orrImm (a : Reg) (i : BitVec 5)
  /-- `xor rA, #simm` (R162). -/
  | xorImm (a : Reg) (i : BitVec 5)
  /-- `ze rA, #imm` (R163). -/
  | zeImm (a : Reg) (i : BitVec 5)
  /-- `se rA, #imm` (R164). -/
  | seImm (a : Reg) (i : BitVec 5)
  /-- `swi rA, #simm` (R165). -/
  | swiReg (a : Reg) (i : BitVec 5)
  /-- `swi #imm` (R166). -/
  | swiImm (i : BitVec 5)
  -- Group 2: register and register
  /-- `add rA, rB`, with `f` the `add.f` form (R182). -/
  | add (f : Bool) (a : Reg) (b : Reg)
  /-- `sub rA, rB`, with `f` the `sub.f` form (R183). -/
  | sub (f : Bool) (a : Reg) (b : Reg)
  /-- `add rA, sp, rB`, with `f` the `add.f` form (R184). -/
  | addSp (f : Bool) (a : Reg) (b : Reg)
  /-- `add rA, fp, rB`, with `f` the `add.f` form (R185). -/
  | addFp (f : Bool) (a : Reg) (b : Reg)
  /-- `cmp rA, rB` (R186). -/
  | cmp (a : Reg) (b : Reg)
  /-- `cpy rA, rB`, with `f` the `cpy.f` form (R187). -/
  | cpy (f : Bool) (a : Reg) (b : Reg)
  /-- `lsl rA, rB`, with `f` the `lsl.f` form (R188). -/
  | lsl (f : Bool) (a : Reg) (b : Reg)
  /-- `lsr rA, rB`, with `f` the `lsr.f` form (R189). -/
  | lsr (f : Bool) (a : Reg) (b : Reg)
  /-- `asr rA, rB`, with `f` the `asr.f` form (R190). -/
  | asr (f : Bool) (a : Reg) (b : Reg)
  /-- `and rA, rB`, with `f` the `and.f` form (R191). -/
  | and (f : Bool) (a : Reg) (b : Reg)
  /-- `orr rA, rB`, with `f` the `orr.f` form (R192). -/
  | orr (f : Bool) (a : Reg) (b : Reg)
  /-- `xor rA, rB`, with `f` the `xor.f` form (R193). -/
  | xor (f : Bool) (a : Reg) (b : Reg)
  /-- `adc rA, rB`, with `f` the `adc.f` form (R194). -/
  | adc (f : Bool) (a : Reg) (b : Reg)
  /-- `sbc rA, rB`, with `f` the `sbc.f` form (R195). -/
  | sbc (f : Bool) (a : Reg) (b : Reg)
  /-- `cmpbc rA, rB` (R196). -/
  | cmpbc (a : Reg) (b : Reg)
  -- Group 3: relative branches; `i` is the raw 9-bit field
  /-- `bl simm` (R211). -/
  | bl (i : BitVec 9)
  /-- `bra simm` (R212). -/
  | bra (i : BitVec 9)
  /-- `beq simm` (R213). -/
  | beq (i : BitVec 9)
  /-- `bne simm` (R214). -/
  | bne (i : BitVec 9)
  /-- `bmi simm` (R215). -/
  | bmi (i : BitVec 9)
  /-- `bpl simm` (R216). -/
  | bpl (i : BitVec 9)
  /-- `bvs simm` (R217). -/
  | bvs (i : BitVec 9)
  /-- `bvc simm` (R218). -/
  | bvc (i : BitVec 9)
  /-- `bgeu simm` (R219). -/
  | bgeu (i : BitVec 9)
  /-- `bltu simm` (R220). -/
  | bltu (i : BitVec 9)
  /-- `bgtu simm` (R221). -/
  | bgtu (i : BitVec 9)
  /-- `bleu simm` (R222). -/
  | bleu (i : BitVec 9)
  /-- `bges simm` (R223). -/
  | bges (i : BitVec 9)
  /-- `blts simm` (R224). -/
  | blts (i : BitVec 9)
  /-- `bgts simm` (R225). -/
  | bgts (i : BitVec 9)
  /-- `bles simm` (R226). -/
  | bles (i : BitVec 9)
  -- Group 4
  /-- `jl rA` (R241). -/
  | jl (a : Reg)
  /-- `jmp rA` (R242). -/
  | jmp (a : Reg)
  /-- `jmp ira` (R243). -/
  | jmpIra
  /-- `reti` (R244). -/
  | reti
  /-- `ei` (R245). -/
  | ei
  /-- `di` (R246). -/
  | di
  /-- `push rA, rB` (R247). -/
  | push (a : Reg) (b : Reg)
  /-- `push sA, rB` (R248). -/
  | pushSpecial (sa : SpecialField) (b : Reg)
  /-- `pop rA, rB` (R249). -/
  | pop (a : Reg) (b : Reg)
  /-- `pop sA, rB` (R250). -/
  | popSpecial (sa : SpecialField) (b : Reg)
  /-- `pop pc, rB` (R251). -/
  | popPc (b : Reg)
  /-- `mul rA, rB` (R271). -/
  | mul (a : Reg) (b : Reg)
  /-- `udiv rA, rB` (R272). -/
  | udiv (a : Reg) (b : Reg)
  /-- `sdiv rA, rB` (R273). -/
  | sdiv (a : Reg) (b : Reg)
  /-- `umod rA, rB` (R274). -/
  | umod (a : Reg) (b : Reg)
  /-- `smod rA, rB` (R275). -/
  | smod (a : Reg) (b : Reg)
  /-- `lumul rA, rB` (R276). -/
  | lumul (a : Reg) (b : Reg)
  /-- `lsmul rA, rB` (R277). -/
  | lsmul (a : Reg) (b : Reg)
  /-- `udiv64 rA, rB` (R278). -/
  | udiv64 (a : Reg) (b : Reg)
  /-- `sdiv64 rA, rB` (R279). -/
  | sdiv64 (a : Reg) (b : Reg)
  /-- `umod64 rA, rB` (R280). -/
  | umod64 (a : Reg) (b : Reg)
  /-- `smod64 rA, rB` (R281). -/
  | smod64 (a : Reg) (b : Reg)
  /-- `ldub rA, [rB]` (R291). -/
  | ldub (a : Reg) (b : Reg)
  /-- `ldsb rA, [rB]` (R292). -/
  | ldsb (a : Reg) (b : Reg)
  /-- `lduh rA, [rB]` (R293). -/
  | lduh (a : Reg) (b : Reg)
  /-- `ldsh rA, [rB]` (R294). -/
  | ldsh (a : Reg) (b : Reg)
  /-- `stb rA, [rB]` (R295). -/
  | stb (a : Reg) (b : Reg)
  /-- `sth rA, [rB]` (R296). -/
  | sth (a : Reg) (b : Reg)
  /-- `cpy rA, sC` (R252). -/
  | cpyFromSpecial (a : Reg) (sb : SpecialField)
  /-- `cpy sA, rB` (R253). -/
  | cpyToSpecial (sa : SpecialField) (b : Reg)
  /-- `cpy sA, sB` (R254). -/
  | cpySpecial (sa : SpecialField) (sb : SpecialField)
  /-- `index rA` (R255). -/
  | index (a : Reg)
  -- Groups 5 and 6
  /-- `ldr rA, [rB, #simm]` (R300). -/
  | ldr (a : Reg) (b : Reg) (i : BitVec 5)
  /-- `str rA, [rB, #simm]` (R301). -/
  | str (a : Reg) (b : Reg) (i : BitVec 5)
  -- Group 7
  /-- `cmpb rA, rB` (R311). -/
  | cmpb (a : Reg) (b : Reg)
  /-- `lsrb rA, rB` (R313). -/
  | lsrb (a : Reg) (b : Reg)
  /-- `asrb rA, rB` (R315). -/
  | asrb (a : Reg) (b : Reg)
  /-- `cmph rA, rB` (R312). -/
  | cmph (a : Reg) (b : Reg)
  /-- `lsrh rA, rB` (R314). -/
  | lsrh (a : Reg) (b : Reg)
  /-- `asrh rA, rB` (R316). -/
  | asrh (a : Reg) (b : Reg)
  /-- `ldr sA, [rB]` (R317). -/
  | ldrSpecial (sa : SpecialField) (b : Reg)
  /-- `ldr sA, [sB]` (R318). -/
  | ldrSpecialAt (sa : SpecialField) (sb : SpecialField)
  /-- `str sA, [rB]` (R319). -/
  | strSpecial (sa : SpecialField) (b : Reg)
  /-- `str sA, [sB]` (R320). -/
  | strSpecialAt (sa : SpecialField) (sb : SpecialField)
  /-- `icreload [rA, #simm]` (R321). -/
  | icreload (a : Reg) (i : BitVec 5)
  deriving DecidableEq, Repr

end Sys2Proof
end

