-- ==== Sys2Proof/Machine/State.lean ====
section
/-! DEFINITION. The machine's state as plain data (spec 10_state.md), the reasons a step can stop, and reset. -/

namespace Sys2Proof.Machine

/-- Memory contents: the listed bytes by address, in the canonical form that `Memory.wf` states. An address that is
not listed reads as `Memory.unlisted` (log entry 6). -/
abbrev Memory := List Host.Cell

/-- A line held by the instruction cache: its address, a multiple of 64, and its 64 bytes (R46, R79). -/
structure CacheLine where
  base : Nat
  bytes : List Byte
  deriving DecidableEq, Repr

/-- The four state bits of `flags` (R31, R39); its other bit positions are reserved, read as 0 and discard writes. -/
structure Flags where
  /-- Bit 0, Zero. -/
  z : Bool
  /-- Bit 1, Carry. -/
  c : Bool
  /-- Bit 2, oVerflow. -/
  v : Bool
  /-- Bit 3, Negative. -/
  n : Bool
  deriving DecidableEq, Repr

/-- Everything the spec gives the machine, the inputs of its environment and the spec's parameters. -/
structure State where
  /-- `r0` to `r12`, `lr`, `fp`, `sp` at places 0 to 15 (R21, R22). -/
  regs : Vector Word 16
  /-- The program counter (R25). -/
  pc : Word
  /-- The special register `flags` (R31). -/
  flags : Flags
  /-- The special register `ids`, the interrupt vector (R33). -/
  ids : Word
  /-- The special register `ira`, the interrupt return address (R34). -/
  ira : Word
  /-- The special register `ie`, the IRQ enable flag (R35). -/
  ie : Bool
  /-- The special register `ity`: false after an IRQ, true after a `swi` (R36). -/
  ity : Bool
  /-- The special register `sty`, the argument of `swi` (R37). -/
  sty : Word
  /-- `pre.have`: a `pre` is in effect (R41). -/
  preHave : Bool
  /-- `pre.data`, meaningful only while `pre.have` = 1 (R41). -/
  preData : BitVec 12
  /-- `lpre.have`: an `lpre` is in effect (R42). -/
  lpreHave : Bool
  /-- `lpre.data`, meaningful only while `lpre.have` = 1 (R42). -/
  lpreData : BitVec 27
  /-- `index.have`: an `index` is in effect (R43). -/
  indexHave : Bool
  /-- `index_reg`, seen only while `index.have` = 1 (R43). -/
  indexReg : Word
  /-- Memory (R49, R60). -/
  mem : Memory
  /-- The lines the instruction cache holds (R46, R79), line addresses strictly rising. -/
  icache : List CacheLine
  /-- The addresses of the lines a store has written since reset or since their last `icreload` (R81), strictly
  rising. -/
  staleLines : List Nat
  /-- `IRQ_LINE`: the samples of the interrupt request at the coming boundaries, the next first (R45, R332). The
  environment's input: log entry 11. -/
  irqLine : List Bool
  /-- The spec's parameters (R6), which no step changes. The model's own place for them: log entry 7. -/
  params : Params
  deriving DecidableEq, Repr

/-- Why the model refuses a step: the `fault(kind)` outcomes of R347. None is an architectural event (R331); each
marks a situation the sources leave without behaviour, so each is safe. -/
inductive Fault where
  /-- A value with bit 0 = 1 would be written to `pc` (R68, R346), raised by taken branches, `jl`, `jmp`, `jmp ira`,
  `reti`, `pop pc`, interrupt entry, and by a fetch at an odd `pc`. Safe. -/
  | misalignedPc
  /-- A 2- or 4-byte data access at an address that is no multiple of its size, when `MISALIGNED_DATA` = fault (R69),
  raised by loads and stores. Safe. -/
  | misalignedData
  /-- The fetched unit is no instruction, when `RESERVED_ENCODING` = fault (R114), raised by the step. Safe. -/
  | reservedEncoding
  /-- A special-register field holds 6 to 15 (R38), raised by the instructions with such a field. Safe. -/
  | reservedSreg
  /-- An access to an address the map marks absent (R73), raised by loads, stores, fetch and `icreload`. Safe. -/
  | bus
  /-- A fetch from a line written since its last reload, whose bytes are unknown (R79, R81), raised by fetch. Safe. -/
  | staleFetch
  deriving DecidableEq, Repr

/-- Why the model has no meaning to give. -/
inductive Refusal where
  /-- An instruction without a meaning; raised by `exec`'s arm alone. Safe. -/
  | notModelled (mnemonic : String)
  /-- An access to a window that the address map gives to a device, whose behaviour the spec leaves to the harness
  (R73, R372); raised by loads, stores, fetch and `icreload`. Safe. -/
  | deviceAccess
  deriving DecidableEq, Repr

/-- The outcome of a piece of a step: a value, a fault or a refusal. -/
abbrev Result (α : Type) := Host.Outcome α Fault Refusal

/-- What the harness supplies at reset (R48, R372): every value that the sources leave unspecified, the memory image,
the interrupt samples and the parameters. -/
structure ResetDraw where
  regs : Vector Word 16
  pc : Word
  flags : Flags
  ids : Word
  ira : Word
  ity : Bool
  sty : Word
  preData : BitVec 12
  lpreData : BitVec 27
  indexReg : Word
  mem : Memory
  irqLine : List Bool
  params : Params
  deriving DecidableEq, Repr

/-- The state after reset for what the harness supplies (R48): `ie` and the three `have` bits are 0 and the
instruction cache holds no line, whatever the draw. -/
def State.resetFrom (d : ResetDraw) : State where
  regs := d.regs
  pc := d.pc
  flags := d.flags
  ids := d.ids
  ira := d.ira
  ie := false
  ity := d.ity
  sty := d.sty
  preHave := false
  preData := d.preData
  lpreHave := false
  lpreData := d.lpreData
  indexHave := false
  indexReg := d.indexReg
  mem := d.mem
  icache := []
  staleLines := []
  irqLine := d.irqLine
  params := d.params

/-- The values this model names where the spec gives none. DESIGN CHOICE (log entries 1, 2, 3, 4, 6, 7, 11): unsafe. -/
def ResetDraw.named : ResetDraw where
  regs := Vector.replicate 16 0#32
  pc := 0x00001000#32
  flags := { z := false, c := false, v := false, n := false }
  ids := 0#32
  ira := 0#32
  ity := false
  sty := 0#32
  preData := 0#12
  lpreData := 0#27
  indexReg := 0#32
  mem := []
  irqLine := []
  params := Params.recommended

/-- The machine right after reset (R48, R361), with the named values where the spec gives none. -/
def State.reset : State := State.resetFrom ResetDraw.named

end Sys2Proof.Machine
end

