-- ==== Sys2Proof/Machine/Flags.lean ====
section
/-! DEFINITION. The flag computations (spec 00_scope.md R12, 42_group2_register.md R180, R196) and `flags` as a 32-bit
value (10_state.md R31, R39). -/

namespace Sys2Proof.Machine

/-- A computed value and the four flags that go with it. -/
structure AluOut (w : Nat) where
  value : BitVec w
  flags : Flags
  deriving DecidableEq, Repr

/-- `AddWithCarry_N(x, y, cin)` (R12): the sum as an unbounded integer, narrowed; C is the carry out of the top bit,
V the signed overflow. -/
def addWithCarry {w : Nat} (x y : BitVec w) (cin : Bool) : AluOut w :=
  let usum := x.toNat + y.toNat + cin.toNat
  let res := BitVec.ofNat w usum
  { value := res
    flags :=
      { z := decide (res = 0#w)
        c := decide (2 ^ w ≤ usum)
        v := decide (x.msb = y.msb) && decide (res.msb ≠ x.msb)
        n := res.msb } }

/-- "Subtraction `x - y` is `AddWithCarry_N(x, ~y, 1)`, so C = 1 means no borrow." (R12) -/
def subtract {w : Nat} (x y : BitVec w) : AluOut w := addWithCarry x (~~~y) true

/-- The flags of a result that affects Z and N only: C and V keep their values (R180). -/
def zeroNegative (old : Flags) (res : Word) : Flags :=
  { old with z := decide (res = 0#32), n := res.msb }

/-- The flags of `cmpbc`: those of `rA + ~rB + C`, but Z is the old Z AND the zero test (R196). -/
def compareWithCarry (old : Flags) (x y : Word) : Flags :=
  let out := (addWithCarry x (~~~y) old.c).flags
  { out with z := old.z && out.z }

/-- `flags` read as a 32-bit value: bits 0 to 3, zero-extended (R31, R39). -/
def Flags.toWord (f : Flags) : Word :=
  (BitVec.ofBool f.n ++ BitVec.ofBool f.v ++ BitVec.ofBool f.c ++ BitVec.ofBool f.z).setWidth 32

/-- `flags` from a 32-bit value: the low state bits are kept, the rest discarded (R39). -/
def Flags.ofWord (v : Word) : Flags :=
  { z := v.getLsbD 0, c := v.getLsbD 1, v := v.getLsbD 2, n := v.getLsbD 3 }

end Sys2Proof.Machine
end

