-- ==== Sys2Proof/Machine/Memory.lean ====
section
/-! DEFINITION. Memory as data: one byte, its canonical form, and the big-endian `MemRead` and `MemWrite` of
20_memory.md R65. The set of written lines and the cached lines are kept in the same way. -/

namespace Sys2Proof.Machine

/-- What an address that is not listed reads as. The spec leaves the initial image to the harness (R48, R73).
DESIGN CHOICE (log entry 6): unsafe. -/
def Memory.unlisted : Byte := 0#8

/-- The byte at an address (R60). -/
def Memory.read : Memory → Nat → Byte
  | [], _ => Memory.unlisted
  | (k, b) :: t, a => if k = a then b else Memory.read t a

/-- The memory without any entry for an address. -/
def Memory.erase : Memory → Nat → Memory
  | [], _ => []
  | (k, b) :: t, a => if k = a then Memory.erase t a else (k, b) :: Memory.erase t a

/-- Put an entry before the first one of a larger address. -/
def Memory.insert : Memory → Nat → Byte → Memory
  | [], a, b => [(a, b)]
  | (k, c) :: t, a, b => if a < k then (a, b) :: (k, c) :: t else (k, c) :: Memory.insert t a b

/-- Write one byte. The byte an unlisted address reads as is stored by listing nothing. -/
def Memory.write (m : Memory) (a : Nat) (b : Byte) : Memory :=
  if b = Memory.unlisted then Memory.erase m a else Memory.insert (Memory.erase m a) a b

/-- Every key of the list is greater than `lo`, the keys rise strictly, they are 32-bit addresses, and no byte is the
unlisted one. -/
def Memory.wfAbove : Nat → Memory → Bool
  | _, [] => true
  | lo, (k, b) :: t =>
    decide (lo ≤ k) && decide (k < 2 ^ 32) && decide (b ≠ Memory.unlisted) && Memory.wfAbove (k + 1) t

/-- The canonical form: addresses strictly rising and below 2^32, no entry equal to the unlisted byte. -/
def Memory.wf (m : Memory) : Bool := Memory.wfAbove 0 m

/-- `MemRead(addr, n)` (R65): big-endian, addresses modulo 2^32, as a 32-bit value. -/
def Memory.readN (m : Memory) (addr : Word) : Nat → Word
  | 0 => 0#32
  | n + 1 => Memory.readN m addr n <<< 8 ||| (m.read (addr + BitVec.ofNat 32 n).toNat).setWidth 32

/-- `MemWrite(addr, n, v)` (R65): big-endian, the low 8·n bits of `v`. -/
def Memory.writeN (m : Memory) (addr : Word) (v : Word) : Nat → Memory
  | 0 => m
  | n + 1 =>
    (Memory.writeN m addr (v >>> 8) n).write (addr + BitVec.ofNat 32 n).toNat (v.setWidth 8)

/-- The address of the 64-byte line of an address: `addr & 0xFFFF_FFC0` (R81). -/
def lineOf (a : Word) : Nat := (a &&& 0xFFFFFFC0#32).toNat

/-- Add a line address to a strictly rising list. -/
def insertLine : List Nat → Nat → List Nat
  | [], l => [l]
  | k :: t, l => if l < k then l :: k :: t else if l = k then k :: t else k :: insertLine t l

/-- Take a line address out of the list. -/
def eraseLine (ls : List Nat) (l : Nat) : List Nat := ls.filter (fun k => decide (k ≠ l))

/-- The lines that hold one of the `n` bytes at `addr`, added to a list of lines. -/
def insertLinesOf (ls : List Nat) (addr : Word) : Nat → List Nat
  | 0 => ls
  | n + 1 => insertLine (insertLinesOf ls addr n) (lineOf (addr + BitVec.ofNat 32 n))

/-- The line addresses rise strictly from `lo` on and are multiples of 64 below 2^32. -/
def linesAbove : Nat → List Nat → Bool
  | _, [] => true
  | lo, k :: t => decide (lo ≤ k) && decide (k < 2 ^ 32) && decide (k % 64 = 0) && linesAbove (k + 1) t

/-- The snapshot the instruction cache holds of a line, if any. -/
def cachedLine : List CacheLine → Nat → Option (List Byte)
  | [], _ => none
  | c :: t, l => if c.base = l then some c.bytes else cachedLine t l

/-- Put a line before the first one of a larger address. -/
def insertCached : List CacheLine → CacheLine → List CacheLine
  | [], c => [c]
  | d :: t, c => if c.base < d.base then c :: d :: t else d :: insertCached t c

/-- Replace the instruction cache's snapshot of a line. -/
def replaceCached (cs : List CacheLine) (c : CacheLine) : List CacheLine :=
  insertCached (cs.filter (fun d => decide (d.base ≠ c.base))) c

/-- The 64 bytes of memory from a line address on (R321). -/
def Memory.lineBytes (m : Memory) (line : Nat) : List Byte :=
  (List.range 64).map fun k => m.read (line + k)

end Sys2Proof.Machine
end

