-- ==== Sys2Proof/Machine/Ops.lean ====
section
/-! DEFINITION. The named operations over registers, special registers and memory; the end of an instruction; taking an
interrupt and returning from one (spec 60_exceptions.md R335, R342). -/

namespace Sys2Proof.Machine

/-- Go on with the value of a result; a fault or a refusal ends the step. -/
def andThen {α β : Type} (x : Result α) (f : α → Result β) : Result β :=
  match x with
  | .next a => f a
  | .fault r => .fault r
  | .refused r => .refused r

/-! General registers. None is hardwired and none is banked (R23). -/

/-- `r[i]` (R11, R22). -/
def State.reg (s : State) (i : Reg) : Word := s.regs[i.toNat]'(i.isLt)

/-- `r[i] <- v` (R11). -/
def State.setReg (s : State) (i : Reg) (v : Word) : State :=
  { s with regs := s.regs.set i.toNat v i.isLt }

/-- Write the four flags. -/
def State.setFlags (s : State) (f : Flags) : State := { s with flags := f }

/-! Special registers. -/

/-- The special register a field names; 6 to 15 name none (R30, R38). -/
def specialOf (k : SpecialField) : Option Special :=
  match k with
  | 0#4 => some .flags
  | 1#4 => some .ids
  | 2#4 => some .ira
  | 3#4 => some .ie
  | 4#4 => some .ity
  | 5#4 => some .sty
  | _ => none

/-- Go on with the special register a field names; a reserved field is `fault(reserved_sreg)` (R38). -/
def withSpecial {α : Type} (k : SpecialField) (f : Special → Result α) : Result α :=
  match specialOf k with
  | some q => f q
  | none => .fault .reservedSreg

/-- A special register read as a 32-bit value: its state bits, zero-extended (R39). -/
def State.special (s : State) (q : Special) : Word :=
  match q with
  | .flags => s.flags.toWord
  | .ids => s.ids
  | .ira => s.ira
  | .ie => (BitVec.ofBool s.ie).setWidth 32
  | .ity => (BitVec.ofBool s.ity).setWidth 32
  | .sty => s.sty

/-- A 32-bit value written to a special register: it keeps its low state bits and discards the rest (R39). -/
def State.setSpecial (s : State) (q : Special) (v : Word) : State :=
  match q with
  | .flags => { s with flags := Flags.ofWord v }
  | .ids => { s with ids := v }
  | .ira => { s with ira := v }
  | .ie => { s with ie := v.getLsbD 0 }
  | .ity => { s with ity := v.getLsbD 0 }
  | .sty => { s with sty := v }

/-! The end of an instruction. -/

/-- Is a `pre`, `lpre` or `index` in effect (R132)? -/
def State.prefixed (s : State) : Bool := s.preHave || s.lpreHave || s.indexHave

/-- `pre.have <- 0; lpre.have <- 0; index.have <- 0` (R134). -/
def State.clearPrefixes (s : State) : State :=
  { s with preHave := false, lpreHave := false, indexHave := false }

/-- `pc <- v`, without a check. -/
def State.setPc (s : State) (v : Word) : State := { s with pc := v }

/-- The end of an instruction that writes no `pc`: the prefix state is cleared (R134) and `pc` is the next
instruction's address (R27), modulo 2^32 (R29). -/
def State.retire (s : State) : State := s.clearPrefixes.setPc (s.pc + 2)

/-- A control transfer: an odd target is `fault(misaligned_pc)` (R68); otherwise the prefix state is cleared (R134) and
`pc <- target`. -/
def jumpTo (s : State) (target : Word) : Result State :=
  if target.getLsbD 0 then .fault .misalignedPc else .next (s.clearPrefixes.setPc target)

/-! Memory accesses. -/

/-- What the address map has at an address: the first region that holds it decides, and an address in no region is RAM
(R73, log entry 12). -/
def kindIn : List Region → Nat → RegionKind
  | [], _ => .ram
  | r :: t, a => if r.base ≤ a ∧ a < r.base + r.size then r.kind else kindIn t a

/-- What stands at an address. -/
def State.kindAt (s : State) (a : Word) : RegionKind := kindIn s.params.memMap a.toNat

/-- Is one of the `n` bytes at `a` of a kind? -/
def State.touches (s : State) (k : RegionKind) (a : Word) : Nat → Bool
  | 0 => false
  | n + 1 => State.touches s k a n || decide (s.kindAt (a + BitVec.ofNat 32 n) = k)

/-- The address map's say on an access to `n` bytes at `a`: `fault(bus)` if one is absent (R73), else a refusal if one
is a device's, whose behaviour the spec does not give (log entry 12). -/
def mapAllows (s : State) (a : Word) (n : Nat) : Result Unit :=
  if s.touches .absent a n then .fault .bus
  else if s.touches .device a n then .refused .deviceAccess
  else .next ()

/-- The checks of a data access of `n` bytes at `a`: `MISALIGNED_DATA` (R69), then the address map (R73). -/
def dataAccess (s : State) (a : Word) (n : Nat) : Result Unit :=
  if s.params.misalignedData = .fault ∧ a.toNat % n ≠ 0 then .fault .misalignedData
  else mapAllows s a n

/-- A data read, `MemRead(a, n)` with its checks, zero-extended to 32 bits (R65, R69, R73). -/
def load (s : State) (a : Word) (n : Nat) : Result Word :=
  andThen (dataAccess s a n) fun _ => .next (s.mem.readN a n)

/-- The state after `MemWrite(a, n, v)`: the bytes are written and their lines count as written (R65, R81). -/
def State.written (s : State) (a : Word) (n : Nat) (v : Word) : State :=
  { s with mem := s.mem.writeN a v n, staleLines := insertLinesOf s.staleLines a n }

/-- A data write, `MemWrite(a, n, v)` with its checks (R65, R69, R73). -/
def store (s : State) (a : Word) (n : Nat) (v : Word) : Result State :=
  andThen (dataAccess s a n) fun _ => .next (s.written a n v)

/-- The state after reloading a line: the instruction cache holds the line's bytes as memory has them, and the line no
longer counts as written (R79, R81, R321). -/
def State.reloaded (s : State) (line : Nat) : State :=
  { s with
    icache := replaceCached s.icache { base := line, bytes := s.mem.lineBytes line }
    staleLines := eraseLine s.staleLines line }

/-! Interrupts. -/

/-- The two kinds of interrupt (R330); a `swi` carries its argument. -/
inductive Interrupt where
  | irq
  | swi (arg : Word)
  deriving DecidableEq, Repr

/-- The entry sequence of R335, all assignments at once: `ira` is the return address, `ity` the kind, `sty` a `swi`'s
argument, `ie` is cleared when `IRQ_ENTRY_CLEARS_IE`, and `pc` is `ids`. An odd `ids` is `fault(misaligned_pc)` (R346).
Nothing else is saved or changed. -/
def enterInterrupt (kind : Interrupt) (returnAddress : Word) (s : State) : Result State :=
  jumpTo
    { s with
      ira := returnAddress
      ity := match kind with
        | .irq => false
        | .swi _ => true
      sty := match kind with
        | .irq => s.sty
        | .swi arg => arg
      ie := if s.params.irqEntryClearsIe then false else s.ie }
    s.ids

/-- `raise IRQ` (R335): the return address is `pc`, the instruction not yet executed (R336). -/
def raiseIrq (s : State) : Result State := enterInterrupt .irq s.pc s

/-- `raise SWI(arg)` (R335): the return address is `pc + 2` (R337). A `swi` is taken whatever `ie` holds, unless
`SWI_MASKED_BY_IE`, under which a `swi` with `ie` = 0 only advances `pc` (R338). -/
def raiseSwi (arg : Word) (s : State) : Result State :=
  if s.params.swiMaskedByIe && !s.ie then .next s.retire
  else enterInterrupt (.swi arg) (s.pc + 2) s

/-- Return from interrupt (R244, R342): `ie <- 1; pc <- ira`; an odd `ira` is a fault and `ie` is not written. -/
def returnFromInterrupt (s : State) : Result State := jumpTo { s with ie := true } s.ira

/-- Executing an unassigned encoding: `RESERVED_ENCODING` (R114). -/
def reservedInstruction (s : State) : Result State :=
  match s.params.reservedEncoding with
  | .fault => .fault .reservedEncoding
  | .nop => .next s.retire

end Sys2Proof.Machine
end

