-- ==== Sys2Proof/Machine/Operands.lean ====
section
/-! DEFINITION. Every operand form: named registers, register pairs, immediates (30_encoding.md R104 to R108), the index
value (40_group0_prefixes.md R136), shifts, extensions, divisions and the narrow write-back. -/

namespace Sys2Proof

/-- The link register, field value 0xD (R22). -/
def Reg.lr : Reg := 0xD#4

/-- The frame pointer, field value 0xE (R22). -/
def Reg.fp : Reg := 0xE#4

/-- The stack pointer, field value 0xF (R22). -/
def Reg.sp : Reg := 0xF#4

/-- The even register of the pair a field names: bit 0 of the field is ignored (R24, R278). -/
def Reg.pairHigh (a : Reg) : Reg := a &&& 0xE#4

/-- The odd register of the pair a field names (R24). -/
def Reg.pairLow (a : Reg) : Reg := a.pairHigh + 1#4

end Sys2Proof

namespace Sys2Proof.Machine

/-- The 64-bit value of a register pair, `concat{r[n], r[n+1]}`: the even register holds bits [63:32] (R24). -/
def State.pair (s : State) (a : Reg) : BitVec 64 := s.reg a.pairHigh ++ s.reg a.pairLow

/-- Write a 64-bit value to a register pair, the high word to the even register (R24). -/
def State.setPair (s : State) (a : Reg) (v : BitVec 64) : State :=
  (s.setReg a.pairHigh (v.extractLsb' 32 32)).setReg a.pairLow (v.extractLsb' 0 32)

/-- `IMM` of the formats with a 5-bit field (R104, R105, R106): with `lpre`, `lpre.data` above the field; with `pre`, the
17-bit value sign-extended; with neither, the field sign-extended for `#simm` and zero-extended for `#imm`. -/
def State.imm5 (s : State) (signed : Bool) (i : BitVec 5) : Word :=
  if s.lpreHave then s.lpreData ++ i
  else if s.preHave then (s.preData ++ i).signExtend 32
  else if signed then i.signExtend 32
  else i.setWidth 32

/-- `IMM` of a branch (R104, R107, R108): with `lpre`, the low 23 bits of `lpre.data` above the field; with `pre`, the
21-bit value sign-extended; with neither, the field sign-extended. -/
def State.imm9 (s : State) (i : BitVec 9) : Word :=
  if s.lpreHave then s.lpreData.setWidth 23 ++ i
  else if s.preHave then (s.preData ++ i).signExtend 32
  else i.signExtend 32

/-- `IDX`: `index_reg` while an `index` is in effect, else 0 (R43, R136). -/
def State.idx (s : State) : Word := if s.indexHave then s.indexReg else 0#32

/-- `Shift(op, v, n)` of R181 for the three 32-bit shifts; an amount of 32 or more gives the free value. -/
def shiftLeft (v n : Word) : Word :=
  if n.toNat < 32 then v <<< n.toNat else Config.shiftOor .lsl v n

/-- `Shift(lsr, v, n)` (R181): zeros enter at bit 31. -/
def shiftRight (v n : Word) : Word :=
  if n.toNat < 32 then v >>> n.toNat else Config.shiftOor .lsr v n

/-- `Shift(asr, v, n)` (R181): copies of bit 31 enter at the top. -/
def shiftRightSigned (v n : Word) : Word :=
  if n.toNat < 32 then v.sshiftRight n.toNat else Config.shiftOor .asr v n

/-- The result of `lsrb`/`lsrh` at width `w` (R313, R314): the low `w` bits of `v` shifted, or the free value's low
`w` bits for an amount of `w` or more. -/
def narrowShiftRight (w : Nat) (op : ShiftOp) (v n : Word) : BitVec w :=
  if n.toNat < w then v.setWidth w >>> n.toNat else (Config.shiftOor op v n).setWidth w

/-- The result of `asrb`/`asrh` at width `w` (R315, R316): the sign bit is bit `w - 1` of `v`. -/
def narrowShiftRightSigned (w : Nat) (op : ShiftOp) (v n : Word) : BitVec w :=
  if n.toNat < w then (v.setWidth w).sshiftRight n.toNat else (Config.shiftOor op v n).setWidth w

/-- `NarrowWrite_W(old, res, ext)` (R313): the whole register extended from the result, or only its low bits. -/
def narrowWrite {w : Nat} (how : NarrowWriteback) (signed : Bool) (old : Word) (res : BitVec w) : Word :=
  match how with
  | .extend => if signed then res.signExtend 32 else res.setWidth 32
  | .merge => (old &&& ~~~((BitVec.allOnes w).setWidth 32)) ||| res.setWidth 32

/-- `ze` (R163): bits `imm` to 31 cleared; a position out of 0..31 gives the free value. -/
def zeroExtendFrom (v imm : Word) : Word :=
  if imm.toNat < 32 then (v.setWidth imm.toNat).setWidth 32 else Config.extOor .ze v imm

/-- `se` (R164): the field `v[imm:0]` sign-extended; a position out of 0..31 gives the free value. -/
def signExtendFrom (v imm : Word) : Word :=
  if imm.toNat < 32 then (v.setWidth (imm.toNat + 1)).signExtend 32 else Config.extOor .se v imm

/-- Unsigned division at width `w` (R272, R278); a zero divisor gives the free value. -/
def divUnsigned {w : Nat} (x y : BitVec w) : BitVec w :=
  if y = 0#w then Config.divSpecial w .udiv x y else BitVec.ofNat w (x.toNat / y.toNat)

/-- Unsigned modulo at width `w` (R274, R280); a zero divisor gives the free value. -/
def modUnsigned {w : Nat} (x y : BitVec w) : BitVec w :=
  if y = 0#w then Config.divSpecial w .umod x y else BitVec.ofNat w (x.toNat % y.toNat)

/-- The operands whose signed quotient the spec leaves open: a zero divisor, and the most negative dividend with divisor
−1 (R270, R273, R275, R279, R281). -/
def signedDivisionOpen {w : Nat} (x y : BitVec w) : Bool :=
  decide (y = 0#w) || (decide (x = BitVec.intMin w) && decide (y = BitVec.allOnes w))

/-- Signed division at width `w`, rounding toward zero (R270, R273, R279). -/
def divSigned {w : Nat} (x y : BitVec w) : BitVec w :=
  if signedDivisionOpen x y then Config.divSpecial w .sdiv x y else BitVec.ofInt w (x.toInt.tdiv y.toInt)

/-- Signed modulo at width `w`, the remainder with the sign of the dividend (R270, R275, R281). -/
def modSigned {w : Nat} (x y : BitVec w) : BitVec w :=
  if signedDivisionOpen x y then Config.divSpecial w .smod x y else BitVec.ofInt w (x.toInt.tmod y.toInt)

end Sys2Proof.Machine
end

