-- ==== Sys2Proof/Machine/Branch.lean ====
section
/-! DEFINITION. Group 3: relative branches (spec 43_group3_branches.md). No branch writes `flags`, and there is no
delay slot (R210). -/

namespace Sys2Proof.Machine

/-- `(pc + IMM + 2) mod 2^32`, with `pc` the branch word's own address (R210). -/
def State.branchTarget (s : State) (i : BitVec 9) : Word := s.pc + s.imm9 i + 2

/-- A branch: taken to the target, or on to the next instruction without looking at the offset (R210). -/
def branchIf (taken : Bool) (i : BitVec 9) (s : State) : Result State :=
  if taken then jumpTo s (s.branchTarget i) else .next s.retire

/-- `bl simm` (R211): `lr` is the address of the instruction after the `bl` word. -/
def execBl (i : BitVec 9) (s : State) : Result State :=
  jumpTo (s.setReg Reg.lr (s.pc + 2)) (s.branchTarget i)

/-- `bra simm` (R212): always. -/
def execBra (i : BitVec 9) (s : State) : Result State :=
  branchIf (true) i s

/-- `beq simm` (R213): Z. -/
def execBeq (i : BitVec 9) (s : State) : Result State :=
  branchIf (s.flags.z) i s

/-- `bne simm` (R214): !Z. -/
def execBne (i : BitVec 9) (s : State) : Result State :=
  branchIf (!s.flags.z) i s

/-- `bmi simm` (R215): N. -/
def execBmi (i : BitVec 9) (s : State) : Result State :=
  branchIf (s.flags.n) i s

/-- `bpl simm` (R216): !N. -/
def execBpl (i : BitVec 9) (s : State) : Result State :=
  branchIf (!s.flags.n) i s

/-- `bvs simm` (R217): V. -/
def execBvs (i : BitVec 9) (s : State) : Result State :=
  branchIf (s.flags.v) i s

/-- `bvc simm` (R218): !V. -/
def execBvc (i : BitVec 9) (s : State) : Result State :=
  branchIf (!s.flags.v) i s

/-- `bgeu simm` (R219): C. -/
def execBgeu (i : BitVec 9) (s : State) : Result State :=
  branchIf (s.flags.c) i s

/-- `bltu simm` (R220): !C. -/
def execBltu (i : BitVec 9) (s : State) : Result State :=
  branchIf (!s.flags.c) i s

/-- `bgtu simm` (R221): C AND !Z. -/
def execBgtu (i : BitVec 9) (s : State) : Result State :=
  branchIf (s.flags.c && !s.flags.z) i s

/-- `bleu simm` (R222): !C OR Z. -/
def execBleu (i : BitVec 9) (s : State) : Result State :=
  branchIf (!s.flags.c || s.flags.z) i s

/-- `bges simm` (R223): !(N XOR V). -/
def execBges (i : BitVec 9) (s : State) : Result State :=
  branchIf (!(s.flags.n ^^ s.flags.v)) i s

/-- `blts simm` (R224): N XOR V. -/
def execBlts (i : BitVec 9) (s : State) : Result State :=
  branchIf (s.flags.n ^^ s.flags.v) i s

/-- `bgts simm` (R225): !(N XOR V) AND !Z. -/
def execBgts (i : BitVec 9) (s : State) : Result State :=
  branchIf (!(s.flags.n ^^ s.flags.v) && !s.flags.z) i s

/-- `bles simm` (R226): (N XOR V) OR Z. -/
def execBles (i : BitVec 9) (s : State) : Result State :=
  branchIf ((s.flags.n ^^ s.flags.v) || s.flags.z) i s

end Sys2Proof.Machine
end

