-- ==== Sys2Proof/Machine/Control.lean ====
section
/-! DEFINITION. Group 4: jumps, the return from an interrupt, and `ei`, `di` (spec
44_group4_control_stack_special.md R241 to R246). -/

namespace Sys2Proof.Machine

/-- `jl rA` (R241): both right-hand sides are read before either write (R9), so `jl lr` jumps to the old `lr`. -/
def execJl (a : Reg) (s : State) : Result State :=
  jumpTo (s.setReg Reg.lr (s.pc + 2)) (s.reg a)

/-- `jmp rA` (R242). -/
def execJmp (a : Reg) (s : State) : Result State := jumpTo s (s.reg a)

/-- `jmp ira` (R243, R343): `ie` is left as it is. -/
def execJmpIra (s : State) : Result State := jumpTo s s.ira

/-- `reti` (R244, R342). -/
def execReti (s : State) : Result State := returnFromInterrupt s

/-- `ei` (R245). -/
def execEi (s : State) : Result State := .next { s with ie := true }.retire

/-- `di` (R246). -/
def execDi (s : State) : Result State := .next { s with ie := false }.retire

end Sys2Proof.Machine
end

