-- ==== Sys2Proof/Machine/Extra.lean ====
section
/-! DEFINITION. Group 7: narrow compares and shifts, and `icreload` (spec 48_group7_extra.md R311 to R316, R321). -/

namespace Sys2Proof.Machine

/-- A narrow compare: the flags of the subtraction at width `w` (R311, R312); no register is written. -/
def compareNarrow (w : Nat) (a b : Reg) (s : State) : State :=
  (s.setFlags (subtract ((s.reg a).setWidth w) ((s.reg b).setWidth w)).flags).retire

/-- Write a narrow shift's result as `NARROW_SHIFT_WRITEBACK` says (R313). -/
def writeNarrow {w : Nat} (signed : Bool) (a : Reg) (res : BitVec w) (s : State) : State :=
  (s.setReg a (narrowWrite s.params.narrowShiftWriteback signed (s.reg a) res)).retire

/-- `cmpb rA, rB` (R311). -/
def execCmpb (a b : Reg) (s : State) : Result State := .next (compareNarrow 8 a b s)

/-- `cmph rA, rB` (R312). -/
def execCmph (a b : Reg) (s : State) : Result State := .next (compareNarrow 16 a b s)

/-- `lsrb rA, rB` (R313). -/
def execLsrb (a b : Reg) (s : State) : Result State :=
  .next (writeNarrow false a (narrowShiftRight 8 .lsrb (s.reg a) (s.reg b)) s)

/-- `lsrh rA, rB` (R314). -/
def execLsrh (a b : Reg) (s : State) : Result State :=
  .next (writeNarrow false a (narrowShiftRight 16 .lsrh (s.reg a) (s.reg b)) s)

/-- `asrb rA, rB` (R315). -/
def execAsrb (a b : Reg) (s : State) : Result State :=
  .next (writeNarrow true a (narrowShiftRightSigned 8 .asrb (s.reg a) (s.reg b)) s)

/-- `asrh rA, rB` (R316). -/
def execAsrh (a b : Reg) (s : State) : Result State :=
  .next (writeNarrow true a (narrowShiftRightSigned 16 .asrh (s.reg a) (s.reg b)) s)

/-- `icreload [rA, #simm]`'s effective address, `(IDX + rA + IMM) mod 2^32` (R321). -/
def State.reloadAddress (s : State) (a : Reg) (i : BitVec 5) : Word := s.idx + s.reg a + s.imm5 true i

/-- `icreload [rA, #simm]` (R321): the instruction cache's line of the address is reloaded; no register and no memory
byte changes. -/
def execIcreload (a : Reg) (i : BitVec 5) (s : State) : Result State :=
  andThen (mapAllows s (BitVec.ofNat 32 (lineOf (s.reloadAddress a i))) 64) fun _ =>
    .next (s.reloaded (lineOf (s.reloadAddress a i))).retire

end Sys2Proof.Machine
end

