-- ==== Sys2Proof/Machine/Immediate.lean ====
section
/-! DEFINITION. Group 1: a register and an immediate, and `swi` (spec 41_group1_immediate.md). Of these only
`cmp` writes `flags` (R150). -/

namespace Sys2Proof.Machine

/-- `add rA, #simm` (R151). -/
def execAddImm (a : Reg) (i : BitVec 5) (s : State) : Result State :=
  .next (s.setReg a (s.reg a + s.imm5 true i)).retire

/-- `add rA, pc, #simm` (R152). -/
def execAddPcImm (a : Reg) (i : BitVec 5) (s : State) : Result State :=
  .next (s.setReg a (s.pc + s.imm5 true i + 2)).retire

/-- `add rA, sp, #simm` (R153). -/
def execAddSpImm (a : Reg) (i : BitVec 5) (s : State) : Result State :=
  .next (s.setReg a (s.reg Reg.sp + s.imm5 true i)).retire

/-- `add rA, fp, #simm` (R154). -/
def execAddFpImm (a : Reg) (i : BitVec 5) (s : State) : Result State :=
  .next (s.setReg a (s.reg Reg.fp + s.imm5 true i)).retire

/-- `cmp rA, #simm` (R155): the flags of `rA - IMM`, always written. -/
def execCmpImm (a : Reg) (i : BitVec 5) (s : State) : Result State :=
  .next (s.setFlags (subtract (s.reg a) (s.imm5 true i)).flags).retire

/-- `cpy rA, #simm` (R156). -/
def execCpyImm (a : Reg) (i : BitVec 5) (s : State) : Result State :=
  .next (s.setReg a (s.imm5 true i)).retire

/-- `lsl rA, #imm` (R157). -/
def execLslImm (a : Reg) (i : BitVec 5) (s : State) : Result State :=
  .next (s.setReg a (shiftLeft (s.reg a) (s.imm5 false i))).retire

/-- `lsr rA, #imm` (R158). -/
def execLsrImm (a : Reg) (i : BitVec 5) (s : State) : Result State :=
  .next (s.setReg a (shiftRight (s.reg a) (s.imm5 false i))).retire

/-- `asr rA, #imm` (R159). -/
def execAsrImm (a : Reg) (i : BitVec 5) (s : State) : Result State :=
  .next (s.setReg a (shiftRightSigned (s.reg a) (s.imm5 false i))).retire

/-- `and rA, #simm` (R160). -/
def execAndImm (a : Reg) (i : BitVec 5) (s : State) : Result State :=
  .next (s.setReg a (s.reg a &&& s.imm5 true i)).retire

/-- `orr rA, #simm` (R161). -/
def execOrrImm (a : Reg) (i : BitVec 5) (s : State) : Result State :=
  .next (s.setReg a (s.reg a ||| s.imm5 true i)).retire

/-- `xor rA, #simm` (R162). -/
def execXorImm (a : Reg) (i : BitVec 5) (s : State) : Result State :=
  .next (s.setReg a (s.reg a ^^^ s.imm5 true i)).retire

/-- `ze rA, #imm` (R163). -/
def execZeImm (a : Reg) (i : BitVec 5) (s : State) : Result State :=
  .next (s.setReg a (zeroExtendFrom (s.reg a) (s.imm5 false i))).retire

/-- `se rA, #imm` (R164). -/
def execSeImm (a : Reg) (i : BitVec 5) (s : State) : Result State :=
  .next (s.setReg a (signExtendFrom (s.reg a) (s.imm5 false i))).retire

/-- `swi rA, #simm` (R165): the software interrupt with argument `rA + IMM`. -/
def execSwiReg (a : Reg) (i : BitVec 5) (s : State) : Result State :=
  raiseSwi (s.reg a + s.imm5 true i) s

/-- `swi #imm` (R166): the software interrupt with argument `IMM`. -/
def execSwiImm (i : BitVec 5) (s : State) : Result State :=
  raiseSwi (s.imm5 false i) s

end Sys2Proof.Machine
end

