-- ==== Sys2Proof/Machine/MulDiv.lean ====
section
/-! DEFINITION. Group 4: multiply, divide and modulo (spec 45_group4_muldiv.md). No flag is written and nothing
traps (R270); operands are read before any result is written. -/

namespace Sys2Proof.Machine

/-- `mul rA, rB` (R271): the low 32 bits of the product. -/
def execMul (a b : Reg) (s : State) : Result State :=
  .next (s.setReg a (s.reg a * s.reg b)).retire

/-- `udiv rA, rB` (R272). -/
def execUdiv (a b : Reg) (s : State) : Result State :=
  .next (s.setReg a (divUnsigned (s.reg a) (s.reg b))).retire

/-- `sdiv rA, rB` (R273). -/
def execSdiv (a b : Reg) (s : State) : Result State :=
  .next (s.setReg a (divSigned (s.reg a) (s.reg b))).retire

/-- `umod rA, rB` (R274). -/
def execUmod (a b : Reg) (s : State) : Result State :=
  .next (s.setReg a (modUnsigned (s.reg a) (s.reg b))).retire

/-- `smod rA, rB` (R275). -/
def execSmod (a b : Reg) (s : State) : Result State :=
  .next (s.setReg a (modSigned (s.reg a) (s.reg b))).retire

/-- `lumul rA, rB` (R276): the unsigned 64-bit product into the pair (`r0`, `r1`). -/
def execLumul (a b : Reg) (s : State) : Result State :=
  .next (s.setPair 0#4 (BitVec.ofNat 64 ((s.reg a).toNat * (s.reg b).toNat))).retire

/-- `lsmul rA, rB` (R277): the signed 64-bit product into the pair (`r0`, `r1`). -/
def execLsmul (a b : Reg) (s : State) : Result State :=
  .next (s.setPair 0#4 (BitVec.ofInt 64 ((s.reg a).toInt * (s.reg b).toInt))).retire

/-- `udiv64 rA, rB` (R278): on the pairs the fields name. -/
def execUdiv64 (a b : Reg) (s : State) : Result State :=
  .next (s.setPair a (divUnsigned (s.pair a) (s.pair b))).retire

/-- `sdiv64 rA, rB` (R279): on the pairs the fields name. -/
def execSdiv64 (a b : Reg) (s : State) : Result State :=
  .next (s.setPair a (divSigned (s.pair a) (s.pair b))).retire

/-- `umod64 rA, rB` (R280): on the pairs the fields name. -/
def execUmod64 (a b : Reg) (s : State) : Result State :=
  .next (s.setPair a (modUnsigned (s.pair a) (s.pair b))).retire

/-- `smod64 rA, rB` (R281): on the pairs the fields name. -/
def execSmod64 (a b : Reg) (s : State) : Result State :=
  .next (s.setPair a (modSigned (s.pair a) (s.pair b))).retire

end Sys2Proof.Machine
end

