-- ==== Sys2Proof/Machine/NarrowMemory.lean ====
section
/-! DEFINITION. Group 4: 8-bit and 16-bit loads and stores (spec 46_group4_narrow_loadstore.md). -/

namespace Sys2Proof.Machine

/-- `EA = (rB + IDX) mod 2^32` (R290). -/
def State.narrowAddress (s : State) (b : Reg) : Word := s.reg b + s.idx

/-- Load `n` bytes at `rB + IDX` and write their extension to `rA` (R290). -/
def loadNarrow (a b : Reg) (n : Nat) (extend : Word → Word) (s : State) : Result State :=
  andThen (load s (s.narrowAddress b) n) fun v => .next (s.setReg a (extend v)).retire

/-- Store the low `n` bytes of `rA` at `rB + IDX` (R290). -/
def storeNarrow (a b : Reg) (n : Nat) (s : State) : Result State :=
  andThen (store s (s.narrowAddress b) n (s.reg a)) fun t => .next t.retire

/-- `ldub rA, [rB]` (R291): the zero-extended byte. -/
def execLdub (a b : Reg) (s : State) : Result State :=
  loadNarrow a b 1 (fun v => v) s

/-- `ldsb rA, [rB]` (R292): the sign-extended byte. -/
def execLdsb (a b : Reg) (s : State) : Result State :=
  loadNarrow a b 1 (fun v => (v.setWidth 8).signExtend 32) s

/-- `lduh rA, [rB]` (R293): the zero-extended halfword. -/
def execLduh (a b : Reg) (s : State) : Result State :=
  loadNarrow a b 2 (fun v => v) s

/-- `ldsh rA, [rB]` (R294): the sign-extended halfword. -/
def execLdsh (a b : Reg) (s : State) : Result State :=
  loadNarrow a b 2 (fun v => (v.setWidth 16).signExtend 32) s

/-- `stb rA, [rB]` (R295): exactly one byte changes. -/
def execStb (a b : Reg) (s : State) : Result State := storeNarrow a b 1 s

/-- `sth rA, [rB]` (R296): the high byte at the lower address. -/
def execSth (a b : Reg) (s : State) : Result State := storeNarrow a b 2 s

end Sys2Proof.Machine
end

