-- ==== Sys2Proof/Machine/Prefixes.lean ====
section
/-! DEFINITION. The prefix instructions `pre`, `lpre` and `index` (spec 40_group0_prefixes.md R130 to R139,
44_group4_control_stack_special.md R255). A prefix that may not stand where it stands is a NOP that ends every prefix. -/

namespace Sys2Proof.Machine

/-- `pre #imm12` (R130, R133). -/
def execPre (imm : BitVec 12) (s : State) : Result State :=
  if s.preHave || s.lpreHave then .next s.retire
  else .next ({ s with preHave := true, preData := imm }.setPc (s.pc + 2))

/-- `lpre #imm27` (R131, R133): 4 bytes long, also when it is a NOP. -/
def execLpre (imm : BitVec 27) (s : State) : Result State :=
  if s.preHave || s.lpreHave then .next (s.clearPrefixes.setPc (s.pc + 4))
  else .next ({ s with lpreHave := true, lpreData := imm }.setPc (s.pc + 4))

/-- `index rA` (R133, R255): the value is captured when `index` executes. -/
def execIndex (a : Reg) (s : State) : Result State :=
  if s.indexHave then .next s.retire
  else .next ({ s with indexHave := true, indexReg := s.reg a }.setPc (s.pc + 2))

end Sys2Proof.Machine
end

