-- ==== Sys2Proof/Machine/Register.lean ====
section
/-! DEFINITION. Group 2: two registers and the flags-enable bit (spec 42_group2_register.md). Operands are read
before the result is written (R180). -/

namespace Sys2Proof.Machine

/-- Write a result and, when `f` = 1, all four flags (R180). -/
def writeArith (f : Bool) (a : Reg) (out : AluOut 32) (s : State) : State :=
  (s.setReg a out.value).setFlags (if f then out.flags else s.flags)

/-- Write a result and, when `f` = 1, the flags Z and N (R180). -/
def writeLogic (f : Bool) (a : Reg) (res : Word) (s : State) : State :=
  (s.setReg a res).setFlags (if f then zeroNegative s.flags res else s.flags)

/-- `add rA, rB` (R182). -/
def execAdd (f : Bool) (a b : Reg) (s : State) : Result State :=
  .next (writeArith f a (addWithCarry (s.reg a) (s.reg b) false) s).retire

/-- `sub rA, rB` (R183). -/
def execSub (f : Bool) (a b : Reg) (s : State) : Result State :=
  .next (writeArith f a (subtract (s.reg a) (s.reg b)) s).retire

/-- `add rA, sp, rB` (R184). -/
def execAddSp (f : Bool) (a b : Reg) (s : State) : Result State :=
  .next (writeArith f a (addWithCarry (s.reg Reg.sp) (s.reg b) false) s).retire

/-- `add rA, fp, rB` (R185). -/
def execAddFp (f : Bool) (a b : Reg) (s : State) : Result State :=
  .next (writeArith f a (addWithCarry (s.reg Reg.fp) (s.reg b) false) s).retire

/-- `cmp rA, rB` (R186): the flags of `rA - rB`, whatever `f` is; no register is written. -/
def execCmp (a b : Reg) (s : State) : Result State :=
  .next (s.setFlags (subtract (s.reg a) (s.reg b)).flags).retire

/-- `cpy rA, rB` (R187). -/
def execCpy (f : Bool) (a b : Reg) (s : State) : Result State :=
  .next (writeLogic f a (s.reg b) s).retire

/-- `lsl rA, rB` (R188). -/
def execLsl (f : Bool) (a b : Reg) (s : State) : Result State :=
  .next (writeLogic f a (shiftLeft (s.reg a) (s.reg b)) s).retire

/-- `lsr rA, rB` (R189). -/
def execLsr (f : Bool) (a b : Reg) (s : State) : Result State :=
  .next (writeLogic f a (shiftRight (s.reg a) (s.reg b)) s).retire

/-- `asr rA, rB` (R190). -/
def execAsr (f : Bool) (a b : Reg) (s : State) : Result State :=
  .next (writeLogic f a (shiftRightSigned (s.reg a) (s.reg b)) s).retire

/-- `and rA, rB` (R191). -/
def execAnd (f : Bool) (a b : Reg) (s : State) : Result State :=
  .next (writeLogic f a (s.reg a &&& s.reg b) s).retire

/-- `orr rA, rB` (R192). -/
def execOrr (f : Bool) (a b : Reg) (s : State) : Result State :=
  .next (writeLogic f a (s.reg a ||| s.reg b) s).retire

/-- `xor rA, rB` (R193). -/
def execXor (f : Bool) (a b : Reg) (s : State) : Result State :=
  .next (writeLogic f a (s.reg a ^^^ s.reg b) s).retire

/-- `adc rA, rB` (R194). -/
def execAdc (f : Bool) (a b : Reg) (s : State) : Result State :=
  .next (writeArith f a (addWithCarry (s.reg a) (s.reg b) s.flags.c) s).retire

/-- `sbc rA, rB` (R195). -/
def execSbc (f : Bool) (a b : Reg) (s : State) : Result State :=
  .next (writeArith f a (addWithCarry (s.reg a) (~~~(s.reg b)) s.flags.c) s).retire

/-- `cmpbc rA, rB` (R196): no register is written. -/
def execCmpbc (a b : Reg) (s : State) : Result State :=
  .next (s.setFlags (compareWithCarry s.flags (s.reg a) (s.reg b))).retire

end Sys2Proof.Machine
end

