-- ==== Sys2Proof/Machine/SpecialMoves.lean ====
section
/-! DEFINITION. Special-register copies (spec 44_group4_control_stack_special.md R252 to R254) and the
special-register load and store (48_group7_extra.md R317 to R320). A reserved field is a fault (R38). -/

namespace Sys2Proof.Machine

/-- Load a special register from an address (R317, R318): it keeps its state bits. -/
def loadSpecial (q : Special) (addr : Word) (s : State) : Result State :=
  andThen (load s addr 4) fun v => .next (s.setSpecial q v).retire

/-- Store a special register, zero-extended, to an address (R319, R320). -/
def storeSpecial (q : Special) (addr : Word) (s : State) : Result State :=
  andThen (store s addr 4 (s.special q)) fun t => .next t.retire

/-- `cpy rA, sC` (R252). -/
def execCpyFromSpecial (a : Reg) (sb : SpecialField) (s : State) : Result State :=
  withSpecial sb fun q => .next (s.setReg a (s.special q)).retire

/-- `cpy sA, rB` (R253). -/
def execCpyToSpecial (sa : SpecialField) (b : Reg) (s : State) : Result State :=
  withSpecial sa fun q => .next (s.setSpecial q (s.reg b)).retire

/-- `cpy sA, sB` (R254): read zero-extended, written truncated. -/
def execCpySpecial (sa sb : SpecialField) (s : State) : Result State :=
  withSpecial sa fun q => withSpecial sb fun p => .next (s.setSpecial q (s.special p)).retire

/-- `ldr sA, [rB]` (R317). -/
def execLdrSpecial (sa : SpecialField) (b : Reg) (s : State) : Result State :=
  withSpecial sa fun q => loadSpecial q (s.reg b) s

/-- `ldr sA, [sB]` (R318): the address is read before `sA` is written. -/
def execLdrSpecialAt (sa sb : SpecialField) (s : State) : Result State :=
  withSpecial sa fun q => withSpecial sb fun p => loadSpecial q (s.special p) s

/-- `str sA, [rB]` (R319). -/
def execStrSpecial (sa : SpecialField) (b : Reg) (s : State) : Result State :=
  withSpecial sa fun q => storeSpecial q (s.reg b) s

/-- `str sA, [sB]` (R320). -/
def execStrSpecialAt (sa sb : SpecialField) (s : State) : Result State :=
  withSpecial sa fun q => withSpecial sb fun p => storeSpecial q (s.special p) s

end Sys2Proof.Machine
end

