-- ==== Sys2Proof/Machine/Stack.lean ====
section
/-! DEFINITION. Group 4: push and pop on any register as stack pointer (spec 44_group4_control_stack_special.md
R247 to R251). The stack is empty-descending; `IDX` is not added. -/

namespace Sys2Proof.Machine

/-- Store `v` at the address `rB` holds and decrement `rB` by 4 (R247, R248). -/
def pushWord (b : Reg) (v : Word) (s : State) : Result State :=
  andThen (store s (s.reg b) 4 v) fun t => .next (t.setReg b (s.reg b - 4)).retire

/-- Load from `rB + 4` and go on with the word and the state in which `rB` is incremented (R249 to R251). -/
def popWord (b : Reg) (s : State) (f : Word → State → Result State) : Result State :=
  andThen (load s (s.reg b + 4) 4) fun v => f v (s.setReg b (s.reg b + 4))

/-- `push rA, rB` (R247): "This instruction does nothing when `rA` is the same register as `rB`." -/
def execPush (a b : Reg) (s : State) : Result State :=
  if a = b then .next s.retire else pushWord b (s.reg a) s

/-- `push sA, rB` (R248): always four bytes. -/
def execPushSpecial (sa : SpecialField) (b : Reg) (s : State) : Result State :=
  withSpecial sa fun q => pushWord b (s.special q) s

/-- `pop rA, rB` (R249): it does nothing when `rA` is the same register as `rB`. -/
def execPop (a b : Reg) (s : State) : Result State :=
  if a = b then .next s.retire else popWord b s fun v t => .next (t.setReg a v).retire

/-- `pop sA, rB` (R250): the special register keeps its state bits. -/
def execPopSpecial (sa : SpecialField) (b : Reg) (s : State) : Result State :=
  withSpecial sa fun q => popWord b s fun v t => .next (t.setSpecial q v).retire

/-- `pop pc, rB` (R251): an odd word is a fault and `rB` is not incremented. -/
def execPopPc (b : Reg) (s : State) : Result State :=
  popWord b s fun v t => jumpTo t v

end Sys2Proof.Machine
end

