-- ==== Sys2Proof/Machine/WordMemory.lean ====
section
/-! DEFINITION. Groups 5 and 6: the 32-bit load and store with displacement and index (spec
47_group5_group6_ldr_str.md). -/

namespace Sys2Proof.Machine

/-- `EA = (rB + IDX + IMM) mod 2^32` (R300, R301). -/
def State.wordAddress (s : State) (b : Reg) (i : BitVec 5) : Word := s.reg b + s.idx + s.imm5 true i

/-- `ldr rA, [rB, #simm]` (R300). -/
def execLdr (a b : Reg) (i : BitVec 5) (s : State) : Result State :=
  andThen (load s (s.wordAddress b i) 4) fun v => .next (s.setReg a v).retire

/-- `str rA, [rB, #simm]` (R301). -/
def execStr (a b : Reg) (i : BitVec 5) (s : State) : Result State :=
  andThen (store s (s.wordAddress b i) 4 (s.reg a)) fun t => .next t.retire

end Sys2Proof.Machine
end

