-- ==== Sys2Proof/Machine/Dispatch.lean ====
section
/-! DEFINITION. The dispatch: one arm per constructor of `Instr`, each one call of that instruction's meaning. -/

namespace Sys2Proof.Machine

def exec (i : Instr) (s : State) : Host.Outcome State Fault Refusal :=
  match i with
  | .pre imm => Sys2Proof.Machine.execPre imm s
  | .lpre imm => Sys2Proof.Machine.execLpre imm s
  | .addImm a imm => Sys2Proof.Machine.execAddImm a imm s
  | .addPcImm a imm => Sys2Proof.Machine.execAddPcImm a imm s
  | .addSpImm a imm => Sys2Proof.Machine.execAddSpImm a imm s
  | .addFpImm a imm => Sys2Proof.Machine.execAddFpImm a imm s
  | .cmpImm a imm => Sys2Proof.Machine.execCmpImm a imm s
  | .cpyImm a imm => Sys2Proof.Machine.execCpyImm a imm s
  | .lslImm a imm => Sys2Proof.Machine.execLslImm a imm s
  | .lsrImm a imm => Sys2Proof.Machine.execLsrImm a imm s
  | .asrImm a imm => Sys2Proof.Machine.execAsrImm a imm s
  | .andImm a imm => Sys2Proof.Machine.execAndImm a imm s
  | .orrImm a imm => Sys2Proof.Machine.execOrrImm a imm s
  | .xorImm a imm => Sys2Proof.Machine.execXorImm a imm s
  | .zeImm a imm => Sys2Proof.Machine.execZeImm a imm s
  | .seImm a imm => Sys2Proof.Machine.execSeImm a imm s
  | .swiReg a imm => Sys2Proof.Machine.execSwiReg a imm s
  | .swiImm imm => Sys2Proof.Machine.execSwiImm imm s
  | .add f a b => Sys2Proof.Machine.execAdd f a b s
  | .sub f a b => Sys2Proof.Machine.execSub f a b s
  | .addSp f a b => Sys2Proof.Machine.execAddSp f a b s
  | .addFp f a b => Sys2Proof.Machine.execAddFp f a b s
  | .cmp a b => Sys2Proof.Machine.execCmp a b s
  | .cpy f a b => Sys2Proof.Machine.execCpy f a b s
  | .lsl f a b => Sys2Proof.Machine.execLsl f a b s
  | .lsr f a b => Sys2Proof.Machine.execLsr f a b s
  | .asr f a b => Sys2Proof.Machine.execAsr f a b s
  | .and f a b => Sys2Proof.Machine.execAnd f a b s
  | .orr f a b => Sys2Proof.Machine.execOrr f a b s
  | .xor f a b => Sys2Proof.Machine.execXor f a b s
  | .adc f a b => Sys2Proof.Machine.execAdc f a b s
  | .sbc f a b => Sys2Proof.Machine.execSbc f a b s
  | .cmpbc a b => Sys2Proof.Machine.execCmpbc a b s
  | .bl imm => Sys2Proof.Machine.execBl imm s
  | .bra imm => Sys2Proof.Machine.execBra imm s
  | .beq imm => Sys2Proof.Machine.execBeq imm s
  | .bne imm => Sys2Proof.Machine.execBne imm s
  | .bmi imm => Sys2Proof.Machine.execBmi imm s
  | .bpl imm => Sys2Proof.Machine.execBpl imm s
  | .bvs imm => Sys2Proof.Machine.execBvs imm s
  | .bvc imm => Sys2Proof.Machine.execBvc imm s
  | .bgeu imm => Sys2Proof.Machine.execBgeu imm s
  | .bltu imm => Sys2Proof.Machine.execBltu imm s
  | .bgtu imm => Sys2Proof.Machine.execBgtu imm s
  | .bleu imm => Sys2Proof.Machine.execBleu imm s
  | .bges imm => Sys2Proof.Machine.execBges imm s
  | .blts imm => Sys2Proof.Machine.execBlts imm s
  | .bgts imm => Sys2Proof.Machine.execBgts imm s
  | .bles imm => Sys2Proof.Machine.execBles imm s
  | .jl a => Sys2Proof.Machine.execJl a s
  | .jmp a => Sys2Proof.Machine.execJmp a s
  | .jmpIra => Sys2Proof.Machine.execJmpIra s
  | .reti => Sys2Proof.Machine.execReti s
  | .ei => Sys2Proof.Machine.execEi s
  | .di => Sys2Proof.Machine.execDi s
  | .push a b => Sys2Proof.Machine.execPush a b s
  | .pushSpecial sa b => Sys2Proof.Machine.execPushSpecial sa b s
  | .pop a b => Sys2Proof.Machine.execPop a b s
  | .popSpecial sa b => Sys2Proof.Machine.execPopSpecial sa b s
  | .popPc b => Sys2Proof.Machine.execPopPc b s
  | .mul a b => Sys2Proof.Machine.execMul a b s
  | .udiv a b => Sys2Proof.Machine.execUdiv a b s
  | .sdiv a b => Sys2Proof.Machine.execSdiv a b s
  | .umod a b => Sys2Proof.Machine.execUmod a b s
  | .smod a b => Sys2Proof.Machine.execSmod a b s
  | .lumul a b => Sys2Proof.Machine.execLumul a b s
  | .lsmul a b => Sys2Proof.Machine.execLsmul a b s
  | .udiv64 a b => Sys2Proof.Machine.execUdiv64 a b s
  | .sdiv64 a b => Sys2Proof.Machine.execSdiv64 a b s
  | .umod64 a b => Sys2Proof.Machine.execUmod64 a b s
  | .smod64 a b => Sys2Proof.Machine.execSmod64 a b s
  | .ldub a b => Sys2Proof.Machine.execLdub a b s
  | .ldsb a b => Sys2Proof.Machine.execLdsb a b s
  | .lduh a b => Sys2Proof.Machine.execLduh a b s
  | .ldsh a b => Sys2Proof.Machine.execLdsh a b s
  | .stb a b => Sys2Proof.Machine.execStb a b s
  | .sth a b => Sys2Proof.Machine.execSth a b s
  | .cpyFromSpecial a sb => Sys2Proof.Machine.execCpyFromSpecial a sb s
  | .cpyToSpecial sa b => Sys2Proof.Machine.execCpyToSpecial sa b s
  | .cpySpecial sa sb => Sys2Proof.Machine.execCpySpecial sa sb s
  | .index a => Sys2Proof.Machine.execIndex a s
  | .ldr a b imm => Sys2Proof.Machine.execLdr a b imm s
  | .str a b imm => Sys2Proof.Machine.execStr a b imm s
  | .cmpb a b => Sys2Proof.Machine.execCmpb a b s
  | .lsrb a b => Sys2Proof.Machine.execLsrb a b s
  | .asrb a b => Sys2Proof.Machine.execAsrb a b s
  | .cmph a b => Sys2Proof.Machine.execCmph a b s
  | .lsrh a b => Sys2Proof.Machine.execLsrh a b s
  | .asrh a b => Sys2Proof.Machine.execAsrh a b s
  | .ldrSpecial sa b => Sys2Proof.Machine.execLdrSpecial sa b s
  | .ldrSpecialAt sa sb => Sys2Proof.Machine.execLdrSpecialAt sa sb s
  | .strSpecial sa b => Sys2Proof.Machine.execStrSpecial sa b s
  | .strSpecialAt sa sb => Sys2Proof.Machine.execStrSpecialAt sa sb s
  | .icreload a imm => Sys2Proof.Machine.execIcreload a imm s

end Sys2Proof.Machine
end

