-- ==== Sys2Proof/WellFormed.lean ====
section
/-! DEFINITION. Which instruction terms are well formed: every special-register field names an assigned
register. General-register fields and immediates have no reserved value (R22, R96 to R103). -/

namespace Sys2Proof

/-- A special-register field is assigned when it holds 0 to 5 (R30); 6 to 15 are reserved (R38). -/
def SpecialField.assigned (k : SpecialField) : Bool := decide (k.toNat < 6)

/-- Well-formedness of an instruction: its special-register fields are assigned. -/
def Instr.wellFormed (i : Instr) : Bool :=
  match i with
  | .pre _ => true
  | .lpre _ => true
  | .addImm _ _ => true
  | .addPcImm _ _ => true
  | .addSpImm _ _ => true
  | .addFpImm _ _ => true
  | .cmpImm _ _ => true
  | .cpyImm _ _ => true
  | .lslImm _ _ => true
  | .lsrImm _ _ => true
  | .asrImm _ _ => true
  | .andImm _ _ => true
  | .orrImm _ _ => true
  | .xorImm _ _ => true
  | .zeImm _ _ => true
  | .seImm _ _ => true
  | .swiReg _ _ => true
  | .swiImm _ => true
  | .add _ _ _ => true
  | .sub _ _ _ => true
  | .addSp _ _ _ => true
  | .addFp _ _ _ => true
  | .cmp _ _ => true
  | .cpy _ _ _ => true
  | .lsl _ _ _ => true
  | .lsr _ _ _ => true
  | .asr _ _ _ => true
  | .and _ _ _ => true
  | .orr _ _ _ => true
  | .xor _ _ _ => true
  | .adc _ _ _ => true
  | .sbc _ _ _ => true
  | .cmpbc _ _ => true
  | .bl _ => true
  | .bra _ => true
  | .beq _ => true
  | .bne _ => true
  | .bmi _ => true
  | .bpl _ => true
  | .bvs _ => true
  | .bvc _ => true
  | .bgeu _ => true
  | .bltu _ => true
  | .bgtu _ => true
  | .bleu _ => true
  | .bges _ => true
  | .blts _ => true
  | .bgts _ => true
  | .bles _ => true
  | .jl _ => true
  | .jmp _ => true
  | .jmpIra => true
  | .reti => true
  | .ei => true
  | .di => true
  | .push _ _ => true
  | .pushSpecial sa _ => SpecialField.assigned sa
  | .pop _ _ => true
  | .popSpecial sa _ => SpecialField.assigned sa
  | .popPc _ => true
  | .mul _ _ => true
  | .udiv _ _ => true
  | .sdiv _ _ => true
  | .umod _ _ => true
  | .smod _ _ => true
  | .lumul _ _ => true
  | .lsmul _ _ => true
  | .udiv64 _ _ => true
  | .sdiv64 _ _ => true
  | .umod64 _ _ => true
  | .smod64 _ _ => true
  | .ldub _ _ => true
  | .ldsb _ _ => true
  | .lduh _ _ => true
  | .ldsh _ _ => true
  | .stb _ _ => true
  | .sth _ _ => true
  | .cpyFromSpecial _ sb => SpecialField.assigned sb
  | .cpyToSpecial sa _ => SpecialField.assigned sa
  | .cpySpecial sa sb => SpecialField.assigned sa && SpecialField.assigned sb
  | .index _ => true
  | .ldr _ _ _ => true
  | .str _ _ _ => true
  | .cmpb _ _ => true
  | .lsrb _ _ => true
  | .asrb _ _ => true
  | .cmph _ _ => true
  | .lsrh _ _ => true
  | .asrh _ _ => true
  | .ldrSpecial sa _ => SpecialField.assigned sa
  | .ldrSpecialAt sa sb => SpecialField.assigned sa && SpecialField.assigned sb
  | .strSpecial sa _ => SpecialField.assigned sa
  | .strSpecialAt sa sb => SpecialField.assigned sa && SpecialField.assigned sb
  | .icreload _ _ => true

end Sys2Proof
end

