-- ==== Sys2Proof/Decode.lean ====
section
/-! DEFINITION. Decoding (30_encoding.md R92, R93, R112) and, after it, the encoder. Decoding is total: every
unit pair is an instruction or is rejected by the name of the unassigned pattern of R113. -/

namespace Sys2Proof

/-- Why bytes are no instruction: the unassigned patterns of R113, and a byte string that ends too early. -/
inductive DecodeError where
  /-- `0001 1xxx xxxx xxxx`: group 0, neither `pre` nor `lpre`. -/
  | reservedGroup0
  /-- `010x 1111 xxxx xxxx`: group 2 opcode 0xf (R197). -/
  | reservedGroup2
  /-- `1110 0x11 xxxx xxxx`: group 7 subgroup 0b00 opcode 0x3 (R322). -/
  | reservedGroup7Narrow
  /-- `1110 111x xxxx xxxx`: group 7, bits [12:9] = 0111, no subgroup defined. -/
  | reservedGroup7Low
  /-- `1111 xxxx xxxx xxxx`: group 7, bit 12 = 1, no subgroup defined. -/
  | reservedGroup7High
  /-- The byte string ends before the instruction does (a model convention, log entry 28). -/
  | truncated
  deriving DecidableEq, Repr

/-- The register field A, bits [3:0] (R92). -/
def fieldA (u : Half) : BitVec 4 := u.extractLsb' 0 4

/-- The register field B, bits [7:4] (R92). -/
def fieldB (u : Half) : BitVec 4 := u.extractLsb' 4 4

/-- The immediate field of G1, G5 and G6, bits [12:8] (R92). -/
def fieldI5 (u : Half) : BitVec 5 := u.extractLsb' 8 5

/-- "The length of an instruction is known from its first unit alone: 4 bytes when `w[15:11] == 0b00010`,
else 2." (R112) -/
def isLong (u : Half) : Bool := u.extractLsb' 11 5 == 0b00010#5

/-- Group 1: `001i iiii oooo aaaa`, all 16 opcodes assigned (R96). -/
def decodeGroup1 (op : BitVec 4) (i : BitVec 5) (a : Reg) : Instr :=
  match op with
  | 0x0#4 => .addImm a i
  | 0x1#4 => .addPcImm a i
  | 0x2#4 => .addSpImm a i
  | 0x3#4 => .addFpImm a i
  | 0x4#4 => .cmpImm a i
  | 0x5#4 => .cpyImm a i
  | 0x6#4 => .lslImm a i
  | 0x7#4 => .lsrImm a i
  | 0x8#4 => .asrImm a i
  | 0x9#4 => .andImm a i
  | 0xA#4 => .orrImm a i
  | 0xB#4 => .xorImm a i
  | 0xC#4 => .zeImm a i
  | 0xD#4 => .seImm a i
  | 0xE#4 => .swiReg a i
  | _ => .swiImm i

/-- Group 2: `010f oooo bbbb aaaa`, opcodes 0x0 to 0xe assigned (R97). -/
def decodeGroup2 (op : BitVec 4) (f : Bool) (a b : Reg) : Except DecodeError Instr :=
  match op with
  | 0x0#4 => .ok (.add f a b)
  | 0x1#4 => .ok (.sub f a b)
  | 0x2#4 => .ok (.addSp f a b)
  | 0x3#4 => .ok (.addFp f a b)
  | 0x4#4 => .ok (.cmp a b)
  | 0x5#4 => .ok (.cpy f a b)
  | 0x6#4 => .ok (.lsl f a b)
  | 0x7#4 => .ok (.lsr f a b)
  | 0x8#4 => .ok (.asr f a b)
  | 0x9#4 => .ok (.and f a b)
  | 0xA#4 => .ok (.orr f a b)
  | 0xB#4 => .ok (.xor f a b)
  | 0xC#4 => .ok (.adc f a b)
  | 0xD#4 => .ok (.sbc f a b)
  | 0xE#4 => .ok (.cmpbc a b)
  | _ => .error .reservedGroup2

/-- Group 3: `011i iiii iiii oooo`, all 16 opcodes assigned (R98). -/
def decodeGroup3 (op : BitVec 4) (i : BitVec 9) : Instr :=
  match op with
  | 0x0#4 => .bl i
  | 0x1#4 => .bra i
  | 0x2#4 => .beq i
  | 0x3#4 => .bne i
  | 0x4#4 => .bmi i
  | 0x5#4 => .bpl i
  | 0x6#4 => .bvs i
  | 0x7#4 => .bvc i
  | 0x8#4 => .bgeu i
  | 0x9#4 => .bltu i
  | 0xA#4 => .bgtu i
  | 0xB#4 => .bleu i
  | 0xC#4 => .bges i
  | 0xD#4 => .blts i
  | 0xE#4 => .bgts i
  | _ => .bles i

/-- Group 4: `100o oooo bbbb aaaa`, all 32 opcodes assigned; fields a form does not name are ignored (R99, R115). -/
def decodeGroup4 (op : BitVec 5) (a b : BitVec 4) : Instr :=
  match op with
  | 0x00#5 => .jl a
  | 0x01#5 => .jmp a
  | 0x02#5 => .jmpIra
  | 0x03#5 => .reti
  | 0x04#5 => .ei
  | 0x05#5 => .di
  | 0x06#5 => .push a b
  | 0x07#5 => .pushSpecial a b
  | 0x08#5 => .pop a b
  | 0x09#5 => .popSpecial a b
  | 0x0A#5 => .popPc b
  | 0x0B#5 => .mul a b
  | 0x0C#5 => .udiv a b
  | 0x0D#5 => .sdiv a b
  | 0x0E#5 => .umod a b
  | 0x0F#5 => .smod a b
  | 0x10#5 => .lumul a b
  | 0x11#5 => .lsmul a b
  | 0x12#5 => .udiv64 a b
  | 0x13#5 => .sdiv64 a b
  | 0x14#5 => .umod64 a b
  | 0x15#5 => .smod64 a b
  | 0x16#5 => .ldub a b
  | 0x17#5 => .ldsb a b
  | 0x18#5 => .lduh a b
  | 0x19#5 => .ldsh a b
  | 0x1A#5 => .stb a b
  | 0x1B#5 => .sth a b
  | 0x1C#5 => .cpyFromSpecial a b
  | 0x1D#5 => .cpyToSpecial a b
  | 0x1E#5 => .cpySpecial a b
  | _ => .index a

/-- Group 7, subgroup 0b00: `1110 0woo bbbb aaaa`, opcodes 0 to 2 assigned at both widths (R102). -/
def decodeNarrow (w : Bool) (op : BitVec 2) (a b : Reg) : Except DecodeError Instr :=
  match op, w with
  | 0x0#2, false => .ok (.cmpb a b)
  | 0x1#2, false => .ok (.lsrb a b)
  | 0x2#2, false => .ok (.asrb a b)
  | 0x0#2, true => .ok (.cmph a b)
  | 0x1#2, true => .ok (.lsrh a b)
  | 0x2#2, true => .ok (.asrh a b)
  | _, _ => .error .reservedGroup7Narrow

/-- Group 7, subgroup 0b010: `1110 10oo bbbb aaaa`, all 4 opcodes assigned (R103). -/
def decodeSpecialAccess (op : BitVec 2) (a b : BitVec 4) : Instr :=
  match op with
  | 0x0#2 => .ldrSpecial a b
  | 0x1#2 => .ldrSpecialAt a b
  | 0x2#2 => .strSpecial a b
  | _ => .strSpecialAt a b

/-- Group 7: the subgroup is a prefix code on the bits below the group field (R92, R112). -/
def decodeGroup7 (u : Half) : Except DecodeError Instr :=
  if u.extractLsb' 11 2 = 0b00#2 then
    decodeNarrow (u.getLsbD 10) (u.extractLsb' 8 2) (fieldA u) (fieldB u)
  else if u.extractLsb' 10 3 = 0b010#3 then
    .ok (decodeSpecialAccess (u.extractLsb' 8 2) (fieldA u) (fieldB u))
  else if u.extractLsb' 9 4 = 0b0110#4 then
    .ok (.icreload (fieldA u) (u.extractLsb' 4 5))
  else if u.getLsbD 12 then
    .error .reservedGroup7High
  else
    .error .reservedGroup7Low

/-- The decode algorithm of R112 on the first unit `u`; `u2` is the following unit, used by `lpre` alone. -/
def decodeUnits (u u2 : Half) : Except DecodeError Instr :=
  match u.extractLsb' 13 3 with
  | 0#3 =>
    if u.getLsbD 12 = false then .ok (.pre (u.extractLsb' 0 12))
    else if u.getLsbD 11 = false then .ok (.lpre (u.extractLsb' 0 11 ++ u2))
    else .error .reservedGroup0
  | 1#3 => .ok (decodeGroup1 (u.extractLsb' 4 4) (fieldI5 u) (fieldA u))
  | 2#3 => decodeGroup2 (u.extractLsb' 8 4) (u.getLsbD 12) (fieldA u) (fieldB u)
  | 3#3 => .ok (decodeGroup3 (u.extractLsb' 0 4) (u.extractLsb' 4 9))
  | 4#3 => .ok (decodeGroup4 (u.extractLsb' 8 5) (fieldA u) (fieldB u))
  | 5#3 => .ok (.ldr (fieldA u) (fieldB u) (fieldI5 u))
  | 6#3 => .ok (.str (fieldA u) (fieldB u) (fieldI5 u))
  | _ => decodeGroup7 u

/-- The 16-bit unit of two bytes, the first at the lower address holding bits [15:8] (R63). -/
def unitOfBytes (hi lo : Byte) : Half := hi ++ lo

/-- Decode the instruction at the front of a byte string; the answer carries the bytes after it. -/
def decode (bytes : List Byte) : Except DecodeError (Instr × List Byte) :=
  match bytes with
  | b0 :: b1 :: rest =>
    if isLong (unitOfBytes b0 b1) then
      match rest with
      | b2 :: b3 :: rest' =>
        (decodeUnits (unitOfBytes b0 b1) (unitOfBytes b2 b3)).map fun i => (i, rest')
      | _ => .error .truncated
    else
      (decodeUnits (unitOfBytes b0 b1) 0#16).map fun i => (i, rest)
  | _ => .error .truncated

/-- A unit's two bytes in ascending address order (R63). -/
def bytesOfUnit (u : Half) : List Byte := [u.extractLsb' 8 8, u.extractLsb' 0 8]

/-- The instruction the decoder reads from an opcode-table word: bits 15..0 of `w` are the first unit, bits
31..16 the second; bits from `nbits` up are zero. -/
def decodeTableWord (nbits w : Nat) : Option Instr :=
  let v := w % 2 ^ nbits
  match decode (bytesOfUnit (BitVec.ofNat 16 v) ++ bytesOfUnit (BitVec.ofNat 16 (v / 65536))) with
  | .ok (i, _) => some i
  | .error _ => none

/-! The encoder, from the same formats (R92, R93); a field an instruction does not use is 0 (R115). -/

/-- G1, `001i iiii oooo aaaa`. -/
def encodeG1 (op : BitVec 4) (i : BitVec 5) (a : Reg) : Half := 0b001#3 ++ i ++ op ++ a

/-- G2, `010f oooo bbbb aaaa`. -/
def encodeG2 (f : Bool) (op b a : BitVec 4) : Half := 0b010#3 ++ BitVec.ofBool f ++ op ++ b ++ a

/-- G3, `011i iiii iiii oooo`. -/
def encodeG3 (i : BitVec 9) (op : BitVec 4) : Half := 0b011#3 ++ i ++ op

/-- G4, `100o oooo bbbb aaaa`. -/
def encodeG4 (op : BitVec 5) (b a : BitVec 4) : Half := 0b100#3 ++ op ++ b ++ a

/-- G5 and G6, `101i iiii bbbb aaaa` and `110i iiii bbbb aaaa`. -/
def encodeG56 (g : BitVec 3) (i : BitVec 5) (b a : Reg) : Half := g ++ i ++ b ++ a

/-- G7-00, `1110 0woo bbbb aaaa`. -/
def encodeNarrow (w : Bool) (op : BitVec 2) (b a : Reg) : Half :=
  0b11100#5 ++ BitVec.ofBool w ++ op ++ b ++ a

/-- G7-010, `1110 10oo bbbb aaaa`. -/
def encodeSpecialAccess (op : BitVec 2) (b a : BitVec 4) : Half := 0b111010#6 ++ op ++ b ++ a

/-- G7-0110, `1110 110i iiii aaaa`. -/
def encodeIcreload (i : BitVec 5) (a : Reg) : Half := 0b1110110#7 ++ i ++ a

/-- The 16-bit units of an instruction, in ascending address order. -/
def encodeUnits (i : Instr) : List Half :=
  match i with
  | .pre imm => [0b0000#4 ++ imm]
  | .lpre imm => [0b00010#5 ++ imm.extractLsb' 16 11, imm.extractLsb' 0 16]
  | .addImm a i => [encodeG1 0x0#4 i a]
  | .addPcImm a i => [encodeG1 0x1#4 i a]
  | .addSpImm a i => [encodeG1 0x2#4 i a]
  | .addFpImm a i => [encodeG1 0x3#4 i a]
  | .cmpImm a i => [encodeG1 0x4#4 i a]
  | .cpyImm a i => [encodeG1 0x5#4 i a]
  | .lslImm a i => [encodeG1 0x6#4 i a]
  | .lsrImm a i => [encodeG1 0x7#4 i a]
  | .asrImm a i => [encodeG1 0x8#4 i a]
  | .andImm a i => [encodeG1 0x9#4 i a]
  | .orrImm a i => [encodeG1 0xA#4 i a]
  | .xorImm a i => [encodeG1 0xB#4 i a]
  | .zeImm a i => [encodeG1 0xC#4 i a]
  | .seImm a i => [encodeG1 0xD#4 i a]
  | .swiReg a i => [encodeG1 0xE#4 i a]
  | .swiImm i => [encodeG1 0xF#4 i 0#4]
  | .add f a b => [encodeG2 f 0x0#4 b a]
  | .sub f a b => [encodeG2 f 0x1#4 b a]
  | .addSp f a b => [encodeG2 f 0x2#4 b a]
  | .addFp f a b => [encodeG2 f 0x3#4 b a]
  | .cmp a b => [encodeG2 false 0x4#4 b a]
  | .cpy f a b => [encodeG2 f 0x5#4 b a]
  | .lsl f a b => [encodeG2 f 0x6#4 b a]
  | .lsr f a b => [encodeG2 f 0x7#4 b a]
  | .asr f a b => [encodeG2 f 0x8#4 b a]
  | .and f a b => [encodeG2 f 0x9#4 b a]
  | .orr f a b => [encodeG2 f 0xA#4 b a]
  | .xor f a b => [encodeG2 f 0xB#4 b a]
  | .adc f a b => [encodeG2 f 0xC#4 b a]
  | .sbc f a b => [encodeG2 f 0xD#4 b a]
  | .cmpbc a b => [encodeG2 false 0xE#4 b a]
  | .bl i => [encodeG3 i 0x0#4]
  | .bra i => [encodeG3 i 0x1#4]
  | .beq i => [encodeG3 i 0x2#4]
  | .bne i => [encodeG3 i 0x3#4]
  | .bmi i => [encodeG3 i 0x4#4]
  | .bpl i => [encodeG3 i 0x5#4]
  | .bvs i => [encodeG3 i 0x6#4]
  | .bvc i => [encodeG3 i 0x7#4]
  | .bgeu i => [encodeG3 i 0x8#4]
  | .bltu i => [encodeG3 i 0x9#4]
  | .bgtu i => [encodeG3 i 0xA#4]
  | .bleu i => [encodeG3 i 0xB#4]
  | .bges i => [encodeG3 i 0xC#4]
  | .blts i => [encodeG3 i 0xD#4]
  | .bgts i => [encodeG3 i 0xE#4]
  | .bles i => [encodeG3 i 0xF#4]
  | .jl a => [encodeG4 0x00#5 0#4 a]
  | .jmp a => [encodeG4 0x01#5 0#4 a]
  | .jmpIra => [encodeG4 0x02#5 0#4 0#4]
  | .reti => [encodeG4 0x03#5 0#4 0#4]
  | .ei => [encodeG4 0x04#5 0#4 0#4]
  | .di => [encodeG4 0x05#5 0#4 0#4]
  | .push a b => [encodeG4 0x06#5 b a]
  | .pushSpecial sa b => [encodeG4 0x07#5 b sa]
  | .pop a b => [encodeG4 0x08#5 b a]
  | .popSpecial sa b => [encodeG4 0x09#5 b sa]
  | .popPc b => [encodeG4 0x0A#5 b 0#4]
  | .mul a b => [encodeG4 0x0B#5 b a]
  | .udiv a b => [encodeG4 0x0C#5 b a]
  | .sdiv a b => [encodeG4 0x0D#5 b a]
  | .umod a b => [encodeG4 0x0E#5 b a]
  | .smod a b => [encodeG4 0x0F#5 b a]
  | .lumul a b => [encodeG4 0x10#5 b a]
  | .lsmul a b => [encodeG4 0x11#5 b a]
  | .udiv64 a b => [encodeG4 0x12#5 b a]
  | .sdiv64 a b => [encodeG4 0x13#5 b a]
  | .umod64 a b => [encodeG4 0x14#5 b a]
  | .smod64 a b => [encodeG4 0x15#5 b a]
  | .ldub a b => [encodeG4 0x16#5 b a]
  | .ldsb a b => [encodeG4 0x17#5 b a]
  | .lduh a b => [encodeG4 0x18#5 b a]
  | .ldsh a b => [encodeG4 0x19#5 b a]
  | .stb a b => [encodeG4 0x1A#5 b a]
  | .sth a b => [encodeG4 0x1B#5 b a]
  | .cpyFromSpecial a sb => [encodeG4 0x1C#5 sb a]
  | .cpyToSpecial sa b => [encodeG4 0x1D#5 b sa]
  | .cpySpecial sa sb => [encodeG4 0x1E#5 sb sa]
  | .index a => [encodeG4 0x1F#5 0#4 a]
  | .ldr a b i => [encodeG56 0b101#3 i b a]
  | .str a b i => [encodeG56 0b110#3 i b a]
  | .cmpb a b => [encodeNarrow false 0#2 b a]
  | .lsrb a b => [encodeNarrow false 1#2 b a]
  | .asrb a b => [encodeNarrow false 2#2 b a]
  | .cmph a b => [encodeNarrow true 0#2 b a]
  | .lsrh a b => [encodeNarrow true 1#2 b a]
  | .asrh a b => [encodeNarrow true 2#2 b a]
  | .ldrSpecial sa b => [encodeSpecialAccess 0#2 b sa]
  | .ldrSpecialAt sa sb => [encodeSpecialAccess 1#2 sb sa]
  | .strSpecial sa b => [encodeSpecialAccess 2#2 b sa]
  | .strSpecialAt sa sb => [encodeSpecialAccess 3#2 sb sa]
  | .icreload a i => [encodeIcreload i a]

/-- The bytes of an instruction, in ascending address order (R63, R64). -/
def encode (i : Instr) : List Byte := (encodeUnits i).flatMap bytesOfUnit

/-! The rows of the opcode table: match and mask of the first unit (R93). -/

/-- The match and mask that R93 gives an instruction's form. -/
def Instr.matchMask (i : Instr) : Half × Half :=
  match i with
  | .pre _ => (0x0000#16, 0xF000#16)
  | .lpre _ => (0x1000#16, 0xF800#16)
  | .addImm _ _ => (0x2000#16, 0xE0F0#16)
  | .addPcImm _ _ => (0x2010#16, 0xE0F0#16)
  | .addSpImm _ _ => (0x2020#16, 0xE0F0#16)
  | .addFpImm _ _ => (0x2030#16, 0xE0F0#16)
  | .cmpImm _ _ => (0x2040#16, 0xE0F0#16)
  | .cpyImm _ _ => (0x2050#16, 0xE0F0#16)
  | .lslImm _ _ => (0x2060#16, 0xE0F0#16)
  | .lsrImm _ _ => (0x2070#16, 0xE0F0#16)
  | .asrImm _ _ => (0x2080#16, 0xE0F0#16)
  | .andImm _ _ => (0x2090#16, 0xE0F0#16)
  | .orrImm _ _ => (0x20A0#16, 0xE0F0#16)
  | .xorImm _ _ => (0x20B0#16, 0xE0F0#16)
  | .zeImm _ _ => (0x20C0#16, 0xE0F0#16)
  | .seImm _ _ => (0x20D0#16, 0xE0F0#16)
  | .swiReg _ _ => (0x20E0#16, 0xE0F0#16)
  | .swiImm _ => (0x20F0#16, 0xE0F0#16)
  | .add _ _ _ => (0x4000#16, 0xEF00#16)
  | .sub _ _ _ => (0x4100#16, 0xEF00#16)
  | .addSp _ _ _ => (0x4200#16, 0xEF00#16)
  | .addFp _ _ _ => (0x4300#16, 0xEF00#16)
  | .cmp _ _ => (0x4400#16, 0xEF00#16)
  | .cpy _ _ _ => (0x4500#16, 0xEF00#16)
  | .lsl _ _ _ => (0x4600#16, 0xEF00#16)
  | .lsr _ _ _ => (0x4700#16, 0xEF00#16)
  | .asr _ _ _ => (0x4800#16, 0xEF00#16)
  | .and _ _ _ => (0x4900#16, 0xEF00#16)
  | .orr _ _ _ => (0x4A00#16, 0xEF00#16)
  | .xor _ _ _ => (0x4B00#16, 0xEF00#16)
  | .adc _ _ _ => (0x4C00#16, 0xEF00#16)
  | .sbc _ _ _ => (0x4D00#16, 0xEF00#16)
  | .cmpbc _ _ => (0x4E00#16, 0xEF00#16)
  | .bl _ => (0x6000#16, 0xE00F#16)
  | .bra _ => (0x6001#16, 0xE00F#16)
  | .beq _ => (0x6002#16, 0xE00F#16)
  | .bne _ => (0x6003#16, 0xE00F#16)
  | .bmi _ => (0x6004#16, 0xE00F#16)
  | .bpl _ => (0x6005#16, 0xE00F#16)
  | .bvs _ => (0x6006#16, 0xE00F#16)
  | .bvc _ => (0x6007#16, 0xE00F#16)
  | .bgeu _ => (0x6008#16, 0xE00F#16)
  | .bltu _ => (0x6009#16, 0xE00F#16)
  | .bgtu _ => (0x600A#16, 0xE00F#16)
  | .bleu _ => (0x600B#16, 0xE00F#16)
  | .bges _ => (0x600C#16, 0xE00F#16)
  | .blts _ => (0x600D#16, 0xE00F#16)
  | .bgts _ => (0x600E#16, 0xE00F#16)
  | .bles _ => (0x600F#16, 0xE00F#16)
  | .jl _ => (0x8000#16, 0xFF00#16)
  | .jmp _ => (0x8100#16, 0xFF00#16)
  | .jmpIra => (0x8200#16, 0xFF00#16)
  | .reti => (0x8300#16, 0xFF00#16)
  | .ei => (0x8400#16, 0xFF00#16)
  | .di => (0x8500#16, 0xFF00#16)
  | .push _ _ => (0x8600#16, 0xFF00#16)
  | .pushSpecial _ _ => (0x8700#16, 0xFF00#16)
  | .pop _ _ => (0x8800#16, 0xFF00#16)
  | .popSpecial _ _ => (0x8900#16, 0xFF00#16)
  | .popPc _ => (0x8A00#16, 0xFF00#16)
  | .mul _ _ => (0x8B00#16, 0xFF00#16)
  | .udiv _ _ => (0x8C00#16, 0xFF00#16)
  | .sdiv _ _ => (0x8D00#16, 0xFF00#16)
  | .umod _ _ => (0x8E00#16, 0xFF00#16)
  | .smod _ _ => (0x8F00#16, 0xFF00#16)
  | .lumul _ _ => (0x9000#16, 0xFF00#16)
  | .lsmul _ _ => (0x9100#16, 0xFF00#16)
  | .udiv64 _ _ => (0x9200#16, 0xFF00#16)
  | .sdiv64 _ _ => (0x9300#16, 0xFF00#16)
  | .umod64 _ _ => (0x9400#16, 0xFF00#16)
  | .smod64 _ _ => (0x9500#16, 0xFF00#16)
  | .ldub _ _ => (0x9600#16, 0xFF00#16)
  | .ldsb _ _ => (0x9700#16, 0xFF00#16)
  | .lduh _ _ => (0x9800#16, 0xFF00#16)
  | .ldsh _ _ => (0x9900#16, 0xFF00#16)
  | .stb _ _ => (0x9A00#16, 0xFF00#16)
  | .sth _ _ => (0x9B00#16, 0xFF00#16)
  | .cpyFromSpecial _ _ => (0x9C00#16, 0xFF00#16)
  | .cpyToSpecial _ _ => (0x9D00#16, 0xFF00#16)
  | .cpySpecial _ _ => (0x9E00#16, 0xFF00#16)
  | .index _ => (0x9F00#16, 0xFF00#16)
  | .ldr _ _ _ => (0xA000#16, 0xE000#16)
  | .str _ _ _ => (0xC000#16, 0xE000#16)
  | .cmpb _ _ => (0xE000#16, 0xFF00#16)
  | .lsrb _ _ => (0xE100#16, 0xFF00#16)
  | .asrb _ _ => (0xE200#16, 0xFF00#16)
  | .cmph _ _ => (0xE400#16, 0xFF00#16)
  | .lsrh _ _ => (0xE500#16, 0xFF00#16)
  | .asrh _ _ => (0xE600#16, 0xFF00#16)
  | .ldrSpecial _ _ => (0xE800#16, 0xFF00#16)
  | .ldrSpecialAt _ _ => (0xE900#16, 0xFF00#16)
  | .strSpecial _ _ => (0xEA00#16, 0xFF00#16)
  | .strSpecialAt _ _ => (0xEB00#16, 0xFF00#16)
  | .icreload _ _ => (0xEC00#16, 0xFE00#16)

end Sys2Proof
end

