-- ==== Sys2Proof/Machine/Fetch.lean ====
section
/-! DEFINITION. Instruction fetch through the instruction cache (spec 20_memory.md R63, R64, R79, R81,
30_encoding.md R112), the interrupt check at an instruction boundary (60_exceptions.md R334), and the placing of an
instruction where the next step fetches. -/

namespace Sys2Proof.Machine

/-- The byte a fetch reads: the cached snapshot's where the line is held, else memory's (R79). -/
def State.fetchByte (s : State) (a : Word) : Byte :=
  match cachedLine s.icache (lineOf a) with
  | some bytes => bytes.getD (a.toNat % 64) 0#8
  | none => s.mem.read a.toNat

/-- Fetch the 16-bit unit at an even address (R63). A line written since its last reload has unknown bytes:
`fault(stale_fetch)` (R79, R81). -/
def fetchUnit (s : State) (a : Word) : Result Half :=
  andThen (mapAllows s a 2) fun _ =>
    if lineOf a ∈ s.staleLines then .fault .staleFetch
    else .next (unitOfBytes (s.fetchByte a) (s.fetchByte (a + 1)))

/-- Fetch and decode at `pc`: a second unit is fetched for `lpre` alone (R112). An odd `pc` is no valid state (R28) and
stops (log entry 15). -/
def fetchInstr (s : State) : Result (Except DecodeError Instr) :=
  if s.pc.getLsbD 0 then .fault .misalignedPc
  else
    andThen (fetchUnit s s.pc) fun u =>
      if isLong u then andThen (fetchUnit s (s.pc + 2)) fun u2 => .next (decodeUnits u u2)
      else .next (decodeUnits u 0#16)

/-- `IRQ_LINE` at this boundary; a sample the environment did not supply is false (log entry 11). -/
def State.irqSample (s : State) : Bool := s.irqLine.headD false

/-- The state once this boundary's sample is consumed: a request that cannot be serviced is not latched (R332). -/
def State.sampled (s : State) : State := { s with irqLine := s.irqLine.tail }

/-- The IRQ is taken at this boundary exactly when it is requested, `ie` = 1 and no prefix is in effect (R334). -/
def State.takesIrq (s : State) : Bool := s.irqSample && s.ie && !s.prefixed

/-- The state in which the bytes stand in memory from `addr` on and their lines are freshly loaded. -/
def placeBytes (s : State) (addr : Word) : List Byte → State
  | [] => s
  | b :: bs =>
    placeBytes
      { s with
        mem := s.mem.write addr.toNat b
        icache := s.icache.filter (fun c => decide (c.base ≠ lineOf addr))
        staleLines := eraseLine s.staleLines (lineOf addr) }
      (addr + 1) bs

/-- The four bytes of an opcode-table word (bits 15..0 the first unit, 31..16 the second, bits from `nbits` up zero),
each unit big-endian. -/
def tableWordBytes (nbits w : Nat) : List Byte :=
  let v := w % 2 ^ nbits
  bytesOfUnit (BitVec.ofNat 16 v) ++ bytesOfUnit (BitVec.ofNat 16 (v / 65536))

/-- `s` with an instruction where the next step fetches it, and no interrupt request at that boundary. -/
def placeInstr (s : State) (nbits w : Nat) : State :=
  placeBytes
    { s with irqLine := match s.irqLine with
        | [] => []
        | _ :: t => false :: t }
    s.pc (tableWordBytes nbits w)

end Sys2Proof.Machine
end

