-- ==== Sys2Proof/Machine/Step.lean ====
section
/-! DEFINITION. One step: the interrupt check at the boundary, then fetch, decode and execute (spec 60_exceptions.md R334,
70_reset_and_hazards.md R368). -/

namespace Sys2Proof.Machine

/-- Execute what decoding gave: the instruction, or an unassigned encoding (R114). -/
def execDecoded (d : Except DecodeError Instr) (s : State) : Host.Outcome State Fault Refusal :=
  match d with
  | .ok i => exec i s
  | .error _ => reservedInstruction s

/-- One step. At the boundary the IRQ is taken instead of executing the instruction at `pc`, exactly when R334 says so;
otherwise the instruction at `pc` is fetched and executed. -/
def step (s : State) : Host.Outcome State Fault Refusal :=
  if s.takesIrq then raiseIrq s.sampled
  else andThen (fetchInstr s.sampled) fun d => execDecoded d s.sampled

/-- `s` with the instruction of an opcode-table word stored where `step` fetches its next instruction (log entry 22). -/
def State.withFetchWord (s : State) (nbits w : Nat) : State := placeInstr s nbits w

end Sys2Proof.Machine
end

