-- ==== Sys2Proof/Machine/Assembler.lean ====
section
/-! DEFINITION. What the sources say of assembling: the prefix an immediate needs (spec 30_encoding.md R120), branch
offsets to an address (43_group3_branches.md R210), and the pseudo instructions (30_encoding.md R118). The machine
does not call these. -/

namespace Sys2Proof.Machine

/-- The prefix that lets a 5-bit field express `v`, and the field (R104, R105, R106, R120): none if the bare field
expresses it under the form's own extension, else `pre` if 17 sign-extended bits do, else `lpre`. -/
def prefixFor5 (signed : Bool) (v : Word) : List Instr × BitVec 5 :=
  let i := v.extractLsb' 0 5
  if (if signed then i.signExtend 32 else i.setWidth 32) = v then ([], i)
  else if (v.extractLsb' 0 17).signExtend 32 = v then ([.pre (v.extractLsb' 5 12)], i)
  else ([.lpre (v.extractLsb' 5 27)], i)

/-- The prefix that lets a branch's 9-bit field express the offset `v`, and the field (R104, R107, R108, R120); the
four bits of `lpre` that a branch ignores are 0. -/
def prefixFor9 (v : Word) : List Instr × BitVec 9 :=
  let i := v.extractLsb' 0 9
  if i.signExtend 32 = v then ([], i)
  else if (v.extractLsb' 0 21).signExtend 32 = v then ([.pre (v.extractLsb' 9 12)], i)
  else ([.lpre ((v.extractLsb' 9 23).setWidth 27)], i)

/-- An instruction with a 5-bit immediate field, made to express the immediate `v`. -/
def assembleImm (signed : Bool) (make : BitVec 5 → Instr) (v : Word) : List Instr :=
  (prefixFor5 signed v).1 ++ [make (prefixFor5 signed v).2]

/-- A branch placed at `place` that reaches `target` (R210): the offset is `target - (address of the branch word) - 2`,
and the branch word stands 2 or 4 bytes later when a prefix is inserted. -/
def assembleBranch (make : BitVec 9 → Instr) (place target : Word) : List Instr :=
  let bare := target - place - 2
  let short := target - (place + 2) - 2
  let long := target - (place + 4) - 2
  if (bare.extractLsb' 0 9).signExtend 32 = bare then [make (bare.extractLsb' 0 9)]
  else if (short.extractLsb' 0 21).signExtend 32 = short then
    [.pre (short.extractLsb' 9 12), make (short.extractLsb' 0 9)]
  else [.lpre ((long.extractLsb' 9 23).setWidth 27), make (long.extractLsb' 0 9)]

/-- The pseudo instructions and shorthands of R118. -/
inductive Pseudo where
  /-- `push rA` -/
  | push (a : Reg)
  /-- `push sA` -/
  | pushSpecial (sa : SpecialField)
  /-- `pop rA` -/
  | pop (a : Reg)
  /-- `pop sA` -/
  | popSpecial (sa : SpecialField)
  /-- `pop pc` -/
  | popPc
  /-- `ldrib sA, rB` -/
  | ldribSpecial (sa : SpecialField) (b : Reg)
  /-- `ldrib pc, rB` -/
  | ldribPc (b : Reg)
  /-- `ldub rA, [rB, rC]` -/
  | ldub (a b c : Reg)
  /-- `ldsb rA, [rB, rC]` -/
  | ldsb (a b c : Reg)
  /-- `lduh rA, [rB, rC]` -/
  | lduh (a b c : Reg)
  /-- `ldsh rA, [rB, rC]` -/
  | ldsh (a b c : Reg)
  /-- `stb rA, [rB, rC]` -/
  | stb (a b c : Reg)
  /-- `sth rA, [rB, rC]` -/
  | sth (a b c : Reg)
  /-- `ldr rA, [rB]` -/
  | ldr (a b : Reg)
  /-- `ldr rA, [rB, rC]` -/
  | ldrIndexed (a b c : Reg)
  /-- `ldr rA, [rB, rC, #simm]` -/
  | ldrIndexedImm (a b c : Reg) (v : Word)
  /-- `str rA, [rB]` -/
  | str (a b : Reg)
  /-- `str rA, [rB, rC]` -/
  | strIndexed (a b c : Reg)
  /-- `str rA, [rB, rC, #simm]` -/
  | strIndexedImm (a b c : Reg) (v : Word)
  /-- `icreload [rA]` -/
  | icreload (a : Reg)
  /-- `icreload [rA, rC]` -/
  | icreloadIndexed (a c : Reg)
  /-- `icreload [rA, rC, #simm]` -/
  | icreloadIndexedImm (a c : Reg) (v : Word)
  /-- `ldubh rA, [rB]`, D0's spelling of `lduh` (90_conflicts.md C2) -/
  | ldubh (a b : Reg)
  deriving DecidableEq, Repr

/-- What each pseudo instruction assembles to (R118); a displacement that needs a prefix gets one after the `index`
(R120). -/
def expand (p : Pseudo) : List Instr :=
  match p with
  | .push a => [.push a Reg.sp]
  | .pushSpecial sa => [.pushSpecial sa Reg.sp]
  | .pop a => [.pop a Reg.sp]
  | .popSpecial sa => [.popSpecial sa Reg.sp]
  | .popPc => [.popPc Reg.sp]
  | .ldribSpecial sa b => [.popSpecial sa b]
  | .ldribPc b => [.popPc b]
  | .ldub a b c => [.index c, .ldub a b]
  | .ldsb a b c => [.index c, .ldsb a b]
  | .lduh a b c => [.index c, .lduh a b]
  | .ldsh a b c => [.index c, .ldsh a b]
  | .stb a b c => [.index c, .stb a b]
  | .sth a b c => [.index c, .sth a b]
  | .ldr a b => [.ldr a b 0#5]
  | .ldrIndexed a b c => [.index c, .ldr a b 0#5]
  | .ldrIndexedImm a b c v => .index c :: assembleImm true (.ldr a b) v
  | .str a b => [.str a b 0#5]
  | .strIndexed a b c => [.index c, .str a b 0#5]
  | .strIndexedImm a b c v => .index c :: assembleImm true (.str a b) v
  | .icreload a => [.icreload a 0#5]
  | .icreloadIndexed a c => [.index c, .icreload a 0#5]
  | .icreloadIndexedImm a c v => .index c :: assembleImm true (.icreload a) v
  | .ldubh a b => [.lduh a b]

end Sys2Proof.Machine
end

