-- ==== Sys2Proof/Safety.lean ====
section
/-! DEFINITION. The invariants of the machine's states, when an access is permitted, and when a run is finished, in the
terms that statements use. -/

namespace Sys2Proof.Machine

/-- "`pc` bit 0 is 0 in every valid state." (R28) -/
def State.pcEven (s : State) : Prop := s.pc.getLsbD 0 = false

/-- "`pre.have` and `lpre.have` are never both 1." (R42, R133) -/
def State.onePrefix (s : State) : Prop := ¬ (s.preHave = true ∧ s.lpreHave = true)

/-- The memory is in its canonical form. -/
def State.memCanonical (s : State) : Prop := s.mem.wf = true

/-- The written lines are listed once each, in rising order, and are lines of the address space. -/
def State.linesCanonical (s : State) : Prop := linesAbove 0 s.staleLines = true

/-- The cached lines rise strictly in address, are multiples of 64 below 2^32 and hold 64 bytes each (R46, R79). -/
def cachedAbove : Nat → List CacheLine → Bool
  | _, [] => true
  | lo, c :: t =>
    decide (lo ≤ c.base) && decide (c.base < 2 ^ 32) && decide (c.base % 64 = 0) && decide (c.bytes.length = 64)
      && cachedAbove (c.base + 1) t

/-- The instruction cache is in its canonical form. -/
def State.cacheCanonical (s : State) : Prop := cachedAbove 0 s.icache = true

/-- Every line the instruction cache holds and no store has written since agrees with memory, byte for byte (R81). -/
def State.cacheCoherent (s : State) : Prop :=
  ∀ line bytes, line ∉ s.staleLines → cachedLine s.icache line = some bytes → bytes = s.mem.lineBytes line

/-- What the machine's rules keep true of a state, step by step. -/
structure State.Inv (s : State) : Prop where
  pcEven : s.pcEven
  onePrefix : s.onePrefix
  memCanonical : s.memCanonical
  linesCanonical : s.linesCanonical
  cacheCanonical : s.cacheCanonical
  cacheCoherent : s.cacheCoherent

/-- All `n` bytes at `a` are RAM in the address map (R73). -/
def State.ramAt (s : State) (a : Word) (n : Nat) : Prop :=
  ∀ k, k < n → s.kindAt (a + BitVec.ofNat 32 k) = .ram

/-- A data access of `n` bytes at `a` may be performed: RAM, and aligned unless `MISALIGNED_DATA` = split (R69, R73). -/
def State.permits (s : State) (a : Word) (n : Nat) : Prop :=
  (s.params.misalignedData = .split ∨ a.toNat % n = 0) ∧ s.ramAt a n

/-- `a` is one of the `n` bytes at `base`, modulo 2^32 (R65). -/
def withinBytes (base : Word) (n : Nat) (a : Word) : Prop := ∃ k, k < n ∧ a = base + BitVec.ofNat 32 k

/-- The states that steps reach from `s` (R368). -/
inductive Reaches (s : State) : State → Prop where
  | start : Reaches s s
  | step {t u : State} : Reaches s t → Sys2Proof.Machine.step t = .next u → Reaches s u

/-- The end of a run (R371): the instruction fetched at `pc` is `bra -2`, with no prefix in effect (log entry 26), and no
interrupt can come: `ie` = 0, or `IRQ_LINE` is false at every boundary to come. -/
def State.runFinished (s : State) : Bool :=
  (match fetchInstr s with
    | .next (.ok i) => decide (i = .bra 0x1FE#9)
    | _ => false)
  && !s.prefixed && (!s.ie || s.irqLine.all (fun b => !b))

end Sys2Proof.Machine
end

