-- ==== Sys2Proof/Certificates/Slice0/Obligations.lean ====
section
/-! DEFINITION. The statements for the provers, and before them the words they are written in: the spec's formulas over
integers, and what a frame leaves unchanged. -/

namespace Sys2Proof.Claims

open Sys2Proof.Machine

/-! The spec's values as integers. -/

/-- `sext_n(v)` of an `n`-bit pattern, as an integer (R11). -/
def sext (n v : Nat) : Int := if v < 2 ^ (n - 1) then v else (v : Int) - 2 ^ n

/-- The 32-bit value of an integer, modulo 2^32. -/
def word (v : Int) : Word := BitVec.ofInt 32 v

/-- `IMM` of a `#simm` operand with a 5-bit field (R104, R105, R106). -/
def simm5 (s : State) (i : BitVec 5) : Int :=
  if s.lpreHave then s.lpreData.toNat * 32 + i.toNat
  else if s.preHave then sext 17 (s.preData.toNat * 32 + i.toNat)
  else sext 5 i.toNat

/-- `IMM` of an `#imm` operand (R104, R105, R106). -/
def uimm5 (s : State) (i : BitVec 5) : Int :=
  if s.lpreHave then s.lpreData.toNat * 32 + i.toNat
  else if s.preHave then sext 17 (s.preData.toNat * 32 + i.toNat)
  else i.toNat

/-- `IMM` of a branch, modulo 2^32 (R104, R107, R108). -/
def simm9 (s : State) (i : BitVec 9) : Int :=
  if s.lpreHave then s.lpreData.toNat * 512 + i.toNat
  else if s.preHave then sext 21 (s.preData.toNat * 512 + i.toNat)
  else sext 9 i.toNat

/-- `pc + IMM + 2` modulo 2^32 (R210). -/
def target (s : State) (i : BitVec 9) : Word := word (s.pc.toNat + simm9 s i + 2)

/-- An integer outside the signed range of `w` bits. -/
def outOfRange (w : Nat) (v : Int) : Prop := v < -(2 ^ (w - 1) : Int) ∨ (2 ^ (w - 1) : Int) ≤ v

/-- The flags of `x + y + cin` at 32 bits (R12). -/
def sumFlags (x y : Word) (cin : Nat) (f : Flags) : Prop :=
  (f.z = true ↔ (x.toNat + y.toNat + cin) % 2 ^ 32 = 0) ∧
  (f.c = true ↔ 2 ^ 32 ≤ x.toNat + y.toNat + cin) ∧
  (f.v = true ↔ outOfRange 32 (x.toInt + y.toInt + cin)) ∧
  (f.n = true ↔ 2 ^ 31 ≤ (x.toNat + y.toNat + cin) % 2 ^ 32)

/-- The flags of `x - y - borrow` at `w` bits (R12): C is "no borrow". -/
def differenceFlags {w : Nat} (x y : BitVec w) (borrow : Nat) (f : Flags) : Prop :=
  (f.z = true ↔ ((x.toNat : Int) - y.toNat - borrow) % 2 ^ w = 0) ∧
  (f.c = true ↔ y.toNat + borrow ≤ x.toNat) ∧
  (f.v = true ↔ outOfRange w (x.toInt - y.toInt - borrow)) ∧
  (f.n = true ↔ (2 ^ (w - 1) : Int) ≤ ((x.toNat : Int) - y.toNat - borrow) % 2 ^ w)

/-- Z and N from a result, C and V as they were (R180). -/
def resultFlags (old : Flags) (res : Word) (f : Flags) : Prop :=
  (f.z = true ↔ res.toNat = 0) ∧ (f.n = true ↔ 2 ^ 31 ≤ res.toNat) ∧ f.c = old.c ∧ f.v = old.v

/-- `Shift(lsl, v, n)`, the free value out of range (R181, log entry 8). -/
def lslValue (v n : Word) : Word :=
  if n.toNat < 32 then BitVec.ofNat 32 (v.toNat * 2 ^ n.toNat) else Config.shiftOor .lsl v n

/-- `Shift(lsr, v, n)`, the free value out of range (R181, log entry 8). -/
def lsrValue (v n : Word) : Word :=
  if n.toNat < 32 then BitVec.ofNat 32 (v.toNat / 2 ^ n.toNat) else Config.shiftOor .lsr v n

/-- `Shift(asr, v, n)`, the free value out of range (R181, log entry 8). -/
def asrValue (v n : Word) : Word :=
  if n.toNat < 32 then word (v.toInt / 2 ^ n.toNat) else Config.shiftOor .asr v n

/-- `MemRead(a, 1)` (R65). -/
def byteAt (s : State) (a : Word) : Nat := (s.mem.read a.toNat).toNat

/-- `MemRead(a, 2)`: the byte at the lower address is the high one (R62, R65). -/
def halfAt (s : State) (a : Word) : Nat := byteAt s a * 256 + byteAt s (a + 1)

/-- `MemRead(a, 4)`: the byte at the lowest address is the highest one (R62, R65). -/
def wordAt (s : State) (a : Word) : Nat :=
  byteAt s a * 16777216 + byteAt s (a + 1) * 65536 + byteAt s (a + 2) * 256 + byteAt s (a + 3)

/-- How many state bits a special register has (R39). -/
def specialBits (q : Special) : Nat :=
  match q with
  | .flags => 4
  | .ids => 32
  | .ira => 32
  | .ie => 1
  | .ity => 1
  | .sty => 32

/-- The special register a field's number names; 6 to 15 name none (R30). -/
def fieldNames (k : SpecialField) (q : Special) : Prop :=
  (k.toNat = 0 ∧ q = .flags) ∨ (k.toNat = 1 ∧ q = .ids) ∨ (k.toNat = 2 ∧ q = .ira) ∨ (k.toNat = 3 ∧ q = .ie) ∨
  (k.toNat = 4 ∧ q = .ity) ∨ (k.toNat = 5 ∧ q = .sty)

/-- What a special register reads as, from the state it stands in: Z, C, V and N are bits 0 to 3 of `flags`, and `ie` and
`ity` are their bit 0 (R31, R39). -/
def specialValue (s : State) (q : Special) : Nat :=
  match q with
  | .flags => s.flags.z.toNat + 2 * s.flags.c.toNat + 4 * s.flags.v.toNat + 8 * s.flags.n.toNat
  | .ids => s.ids.toNat
  | .ira => s.ira.toNat
  | .ie => s.ie.toNat
  | .ity => s.ity.toNat
  | .sty => s.sty.toNat

/-- What a special register's state is after a write of `v`: Z, C, V, N are `v[0]`, `v[1]`, `v[2]`, `v[3]`, `ie` and `ity`
are `v[0]`, and the others are `v` at 32 bits (R31, R39, R250, R253). -/
def specialHolds (t : State) (q : Special) (v : Nat) : Prop :=
  match q with
  | .flags => t.flags.z = v.testBit 0 ∧ t.flags.c = v.testBit 1 ∧ t.flags.v = v.testBit 2 ∧ t.flags.n = v.testBit 3
  | .ids => t.ids.toNat = v % 4294967296
  | .ira => t.ira.toNat = v % 4294967296
  | .ie => t.ie = v.testBit 0
  | .ity => t.ity = v.testBit 0
  | .sty => t.sty.toNat = v % 4294967296

/-- The 64-bit value of two words, the first the high one. -/
def pairValue (hi lo : Word) : Nat := hi.toNat * 4294967296 + lo.toNat

/-! Frames: what an instruction leaves unchanged. -/

/-- Every general register outside the list is unchanged. -/
def keepsRegs (written : List Reg) (s t : State) : Prop := ∀ r, r ∉ written → t.reg r = s.reg r

/-- The five interrupt registers are unchanged. -/
def keepsInterruptRegs (s t : State) : Prop :=
  t.ids = s.ids ∧ t.ira = s.ira ∧ t.ie = s.ie ∧ t.ity = s.ity ∧ t.sty = s.sty

/-- Every byte of memory is unchanged. -/
def keepsMemory (s t : State) : Prop := ∀ a : Word, t.mem.read a.toNat = s.mem.read a.toNat

/-- What a fetch reads is unchanged: the cached lines, and which lines are written and not reloaded. -/
def keepsFetch (s t : State) : Prop := t.icache = s.icache ∧ t.staleLines = s.staleLines

/-- The environment's inputs and the parameters are unchanged. -/
def keepsInputs (s t : State) : Prop := t.irqLine = s.irqLine ∧ t.params = s.params

/-- No prefix is in effect (R132). -/
def noPrefix (t : State) : Prop := t.preHave = false ∧ t.lpreHave = false ∧ t.indexHave = false

/-- The frame of an instruction that stores nothing and writes no interrupt register: the general registers outside the
list, the interrupt registers, memory, the fetch state and the inputs are unchanged, and no prefix stays in effect. -/
def quiet (written : List Reg) (s t : State) : Prop :=
  keepsRegs written s t ∧ keepsInterruptRegs s t ∧ keepsMemory s t ∧ keepsFetch s t ∧ keepsInputs s t ∧ noPrefix t

/-- The frame of an instruction that stores `n` bytes of `v` at `base`, big-endian: those bytes change and no other, their
lines count as written, and the registers outside the list, `flags`, the interrupt registers, the cached lines and the
inputs are unchanged; `pc` moves on and no prefix stays in effect. -/
def stores (written : List Reg) (base : Word) (n : Nat) (v : Word) (s t : State) : Prop :=
  (∀ k, k < n → (t.mem.read (base + BitVec.ofNat 32 k).toNat).toNat = v.toNat / 256 ^ (n - 1 - k) % 256) ∧
  (∀ a : Word, ¬ withinBytes base n a → t.mem.read a.toNat = s.mem.read a.toNat) ∧
  (∀ l, l ∈ t.staleLines ↔ l ∈ s.staleLines ∨ ∃ k, k < n ∧ l = lineOf (base + BitVec.ofNat 32 k)) ∧
  keepsRegs written s t ∧ t.flags = s.flags ∧ keepsInterruptRegs s t ∧ t.icache = s.icache ∧ keepsInputs s t ∧
  noPrefix t ∧ t.pc = s.pc + 2

/-- The instruction gives a next state in which register `a` holds `v`, and nothing else but `pc` and the prefix state
changes. -/
def writesReg (i : Instr) (a : Reg) (v : Word) (s : State) : Prop :=
  ∃ t, exec i s = .next t ∧ t.reg a = v ∧ t.flags = s.flags ∧ t.pc = s.pc + 2 ∧ quiet [a] s t

/-- The same for a pair of registers: `hi` holds bits [63:32] of `v`, `lo` bits [31:0]. -/
def writesPair (i : Instr) (hi lo : Reg) (v : Nat) (s : State) : Prop :=
  ∃ t, exec i s = .next t ∧ pairValue (t.reg hi) (t.reg lo) = v ∧ t.flags = s.flags ∧ t.pc = s.pc + 2 ∧
    quiet [hi, lo] s t

/-- The instruction gives a next state in which `flags` satisfies `f`, and nothing else but `pc` and the prefix state
changes. -/
def writesFlags (i : Instr) (f : Flags → Prop) (s : State) : Prop :=
  ∃ t, exec i s = .next t ∧ f t.flags ∧ t.pc = s.pc + 2 ∧ quiet [] s t

/-- The instruction gives a next state with `pc` at `v`, in which nothing but `pc`, the prefix state and the listed
registers changes. -/
def goesTo (i : Instr) (written : List Reg) (v : Word) (s : State) : Prop :=
  ∃ t, exec i s = .next t ∧ t.pc = v ∧ t.flags = s.flags ∧ quiet written s t

/-- A special register holds the low bits of `v`, the other special registers, the general registers outside the list,
memory, the fetch state and the inputs are unchanged, `pc` moves on and no prefix stays in effect (R39). -/
def writesSpecial (i : Instr) (q : Special) (v : Nat) (written : List Reg) (s t : State) : Prop :=
  exec i s = .next t ∧ (t.special q).toNat = v % 2 ^ specialBits q ∧ (∀ p, p ≠ q → t.special p = s.special p) ∧
  keepsRegs written s t ∧ keepsMemory s t ∧ keepsFetch s t ∧ keepsInputs s t ∧ noPrefix t ∧ t.pc = s.pc + 2

/-- A relative branch: taken to an even target, or on to the next unit whatever its offset. -/
def branches (i : BitVec 9 → Instr) (taken : State → Bool) : Prop :=
  ∀ (s : State) (o : BitVec 9),
    (taken s = true → (target s o).getLsbD 0 = false → goesTo (i o) [] (target s o) s) ∧
    (taken s = false → goesTo (i o) [] (s.pc + 2) s)

/-- The bytes at `pc` are RAM, and no store has written their lines since the last reload. -/
def fetchable (s : State) (n : Nat) : Prop :=
  s.pc.getLsbD 0 = false ∧
  ∀ k, k < n → s.kindAt (s.pc + BitVec.ofNat 32 k) = .ram ∧ lineOf (s.pc + BitVec.ofNat 32 k) ∉ s.staleLines

/-- The four bytes of memory from `pc` on. -/
def bytesAtPc (s : State) : List Byte :=
  [s.mem.read s.pc.toNat, s.mem.read (s.pc + 1).toNat, s.mem.read (s.pc + 2).toNat, s.mem.read (s.pc + 3).toNat]

/-- No interrupt is taken at this boundary: no request, `ie` = 0, or a prefix in effect (R334). -/
def noInterruptNow (s : State) : Prop :=
  s.irqLine.head? ≠ some true ∨ s.ie = false ∨ ¬ noPrefix s

/-! Accesses, at the addresses the meanings compute. -/

/-- The instruction's meaning reads the `n` bytes at `a` as data (R66). -/
def loadsFrom (s : State) (i : Instr) (a : Word) (n : Nat) : Prop :=
  (∃ r b, (i = .ldub r b ∨ i = .ldsb r b) ∧ a = s.narrowAddress b ∧ n = 1) ∨
  (∃ r b, (i = .lduh r b ∨ i = .ldsh r b) ∧ a = s.narrowAddress b ∧ n = 2) ∨
  (∃ r b v, i = .ldr r b v ∧ a = s.wordAddress b v ∧ n = 4) ∨
  (∃ r b, r ≠ b ∧ i = .pop r b ∧ a = s.reg b + 4 ∧ n = 4) ∨
  (∃ b, i = .popPc b ∧ a = s.reg b + 4 ∧ n = 4) ∨
  (∃ k b, k.assigned = true ∧ i = .popSpecial k b ∧ a = s.reg b + 4 ∧ n = 4) ∨
  (∃ k b, k.assigned = true ∧ i = .ldrSpecial k b ∧ a = s.reg b ∧ n = 4) ∨
  (∃ j k q, j.assigned = true ∧ specialOf k = some q ∧ i = .ldrSpecialAt j k ∧ a = s.special q ∧ n = 4)

/-- The instruction's meaning writes the `n` bytes at `a` (R66). -/
def storesTo (s : State) (i : Instr) (a : Word) (n : Nat) : Prop :=
  (∃ r b, i = .stb r b ∧ a = s.narrowAddress b ∧ n = 1) ∨
  (∃ r b, i = .sth r b ∧ a = s.narrowAddress b ∧ n = 2) ∨
  (∃ r b v, i = .str r b v ∧ a = s.wordAddress b v ∧ n = 4) ∨
  (∃ r b, r ≠ b ∧ i = .push r b ∧ a = s.reg b ∧ n = 4) ∨
  (∃ k b, k.assigned = true ∧ (i = .pushSpecial k b ∨ i = .strSpecial k b) ∧ a = s.reg b ∧ n = 4) ∨
  (∃ j k q, j.assigned = true ∧ specialOf k = some q ∧ i = .strSpecialAt j k ∧ a = s.special q ∧ n = 4)

/-- One of the `n` bytes at `a` is of a kind in the address map. -/
def someByteIs (s : State) (k : RegionKind) (a : Word) (n : Nat) : Prop :=
  ∃ j, j < n ∧ s.kindAt (a + BitVec.ofNat 32 j) = k

/-- The address map's say on an access to the `n` bytes at `a` whose outcome is `o` (log entries 12 and 27): a byte that is
absent makes it `fault(bus)`; with none absent, a device's byte makes it the refusal `deviceAccess`. -/
def mapStops (s : State) (o : Result State) (a : Word) (n : Nat) : Prop :=
  (someByteIs s .absent a n → o = .fault .bus) ∧
  (¬ someByteIs s .absent a n → someByteIs s .device a n → o = .refused .deviceAccess)

/-- The unit at `pc` can be fetched and is the first of an `lpre`: its bits [15:11] are 00010 (R112). -/
def firstUnitIsLpre (s : State) : Prop := fetchable s 2 ∧ (s.fetchByte s.pc).toNat / 8 = 2

/-- The sixteen branch forms, each with the flags under which it is taken (R211 to R226). -/
def takesBranch (s : State) (br : BitVec 9 → Instr) : Prop :=
  br = .bl ∨ br = .bra ∨ (br = .beq ∧ s.flags.z = true) ∨ (br = .bne ∧ s.flags.z = false) ∨
  (br = .bmi ∧ s.flags.n = true) ∨ (br = .bpl ∧ s.flags.n = false) ∨
  (br = .bvs ∧ s.flags.v = true) ∨ (br = .bvc ∧ s.flags.v = false) ∨
  (br = .bgeu ∧ s.flags.c = true) ∨ (br = .bltu ∧ s.flags.c = false) ∨
  (br = .bgtu ∧ s.flags.c = true ∧ s.flags.z = false) ∨ (br = .bleu ∧ (s.flags.c = false ∨ s.flags.z = true)) ∨
  (br = .bges ∧ s.flags.n = s.flags.v) ∨ (br = .blts ∧ s.flags.n ≠ s.flags.v) ∨
  (br = .bgts ∧ s.flags.n = s.flags.v ∧ s.flags.z = false) ∨
  (br = .bles ∧ (s.flags.n ≠ s.flags.v ∨ s.flags.z = true))

end Sys2Proof.Claims

open Sys2Proof Sys2Proof.Machine Sys2Proof.Claims

/-! Encoding. -/

/-- R92, R93: every instruction's encoding decodes to it, with every operand, and the bytes after it are left over. -/
def Obligations.DecodeOfEncode : Prop :=
  ∀ (i : Instr) (rest : List Byte), decode (encode i ++ rest) = .ok (i, rest)

/-- R93: "an instruction word `w` is this instruction when `w & mask == match`": a unit decodes to a form of a row exactly
when it agrees with the row's match under the row's mask. -/
def Obligations.DecodedUnitMatchesItsRow : Prop :=
  (∀ (u u2 : Half) (i : Instr), decodeUnits u u2 = .ok i → u &&& i.matchMask.2 = i.matchMask.1) ∧
  (∀ (u u2 : Half) (i : Instr), u &&& i.matchMask.2 = i.matchMask.1 →
    ∃ j, decodeUnits u u2 = .ok j ∧ j.matchMask = i.matchMask)

/-- R113's table: a unit is no instruction exactly when it matches one of the five unassigned patterns. (A reserved
special-register field is a fault of the instruction, log entry 17.) -/
def Obligations.UnassignedEncodings : Prop :=
  ∀ u u2 : Half,
    (∃ e, decodeUnits u u2 = .error e) ↔
      (u &&& 0xF800#16 = 0x1800#16 ∨ u &&& 0xEF00#16 = 0x4F00#16 ∨ u &&& 0xFB00#16 = 0xE300#16 ∨
        u &&& 0xFE00#16 = 0xEE00#16 ∨ u &&& 0xF000#16 = 0xF000#16)

/-- One word of each format, written out from the spec's encoding and example of it, decodes to its instruction. -/
def Obligations.SampleWordsDecode : Prop :=
  decodeTableWord 16 0x001F = some (.pre 0x01F#12) ∧
  decodeTableWord 32 0xA2B31091 = some (.lpre 0x091A2B3#27) ∧
  decodeTableWord 16 0x3D01 = some (.addImm 1#4 0x1D#5) ∧
  decodeTableWord 16 0x5021 = some (.add true 1#4 2#4) ∧
  decodeTableWord 16 0x7F83 = some (.bne 0x1F8#9) ∧
  decodeTableWord 16 0x86F1 = some (.push 1#4 0xF#4) ∧
  decodeTableWord 16 0xBC21 = some (.ldr 1#4 2#4 0x1C#5) ∧
  decodeTableWord 16 0xC821 = some (.str 1#4 2#4 8#5) ∧
  decodeTableWord 16 0xE521 = some (.lsrh 1#4 2#4) ∧
  decodeTableWord 16 0xE910 = some (.ldrSpecialAt 0#4 1#4) ∧
  decodeTableWord 16 0xED01 = some (.icreload 1#4 0x10#5) ∧
  decodeTableWord 16 0xFFFF = none

/-! Immediates. -/

/-- R104: with no prefix in effect, `#simm` and branch fields are sign-extended and `#imm` fields zero-extended, with their
ranges. -/
def Obligations.ImmediateWithoutPrefix : Prop :=
  ∀ (s : State) (i : BitVec 5) (o : BitVec 9), s.preHave = false → s.lpreHave = false →
    s.imm5 true i = word (sext 5 i.toNat) ∧ -16 ≤ sext 5 i.toNat ∧ sext 5 i.toNat ≤ 15 ∧
    s.imm5 false i = word i.toNat ∧ i.toNat ≤ 31 ∧
    s.imm9 o = word (sext 9 o.toNat) ∧ -256 ≤ sext 9 o.toNat ∧ (o.getLsbD 0 = false → sext 9 o.toNat ≤ 254)

/-- R105, R107: with `pre` in effect its data stand above the field and the 17-bit or 21-bit value is sign-extended, for
`#simm` and `#imm` alike, with the ranges. -/
def Obligations.ImmediateWithPre : Prop :=
  ∀ (s : State) (i : BitVec 5) (o : BitVec 9), s.preHave = true → s.lpreHave = false →
    s.imm5 true i = word (sext 17 (s.preData.toNat * 32 + i.toNat)) ∧
    s.imm5 false i = word (sext 17 (s.preData.toNat * 32 + i.toNat)) ∧
    -65536 ≤ sext 17 (s.preData.toNat * 32 + i.toNat) ∧ sext 17 (s.preData.toNat * 32 + i.toNat) ≤ 65535 ∧
    s.imm9 o = word (sext 21 (s.preData.toNat * 512 + o.toNat)) ∧
    -1048576 ≤ sext 21 (s.preData.toNat * 512 + o.toNat) ∧
    (o.getLsbD 0 = false → sext 21 (s.preData.toNat * 512 + o.toNat) ≤ 1048574)

/-- R106 and R108 (for branches the spec's decision D6, log entry 20): with `lpre` in effect the 5-bit field is extended to
the 32-bit value `(lpre.data << 5) | i`, and a branch's to `((lpre.data << 9) | i) mod 2^32`, which ignores the top four
bits of the data. -/
def Obligations.ImmediateWithLpre : Prop :=
  ∀ (s : State) (i : BitVec 5) (o : BitVec 9), s.lpreHave = true →
    (s.imm5 true i).toNat = s.lpreData.toNat * 32 + i.toNat ∧
    (s.imm5 false i).toNat = s.lpreData.toNat * 32 + i.toNat ∧
    (s.imm9 o).toNat = (s.lpreData.toNat * 512 + o.toNat) % 2 ^ 32 ∧
    (∀ t : State, t.lpreHave = true → t.lpreData.toNat % 2 ^ 23 = s.lpreData.toNat % 2 ^ 23 → t.imm9 o = s.imm9 o)

/-! Prefixes. -/

/-- R130, R255: what `pre` and `index` do, in effect or as a NOP that ends every prefix; nothing else changes, and while
`index` is in effect no IRQ is taken. -/
def Obligations.PreAndIndex : Prop :=
  (∀ (s : State) (imm : BitVec 12), ∃ t, exec (.pre imm) s = .next t ∧ t.pc = s.pc + 2 ∧
    (if s.preHave = true ∨ s.lpreHave = true then noPrefix t
     else t.preHave = true ∧ t.preData = imm ∧ t.lpreHave = false ∧ t.indexHave = s.indexHave ∧
       t.indexReg = s.indexReg) ∧
    t.flags = s.flags ∧ keepsRegs [] s t ∧ keepsInterruptRegs s t ∧ keepsMemory s t ∧ keepsFetch s t ∧
    keepsInputs s t) ∧
  (∀ (s : State) (a : Reg), ∃ t, exec (.index a) s = .next t ∧ t.pc = s.pc + 2 ∧
    (if s.indexHave = true then noPrefix t
     else t.indexHave = true ∧ t.indexReg = s.reg a ∧ t.preHave = s.preHave ∧ t.preData = s.preData ∧
       t.lpreHave = s.lpreHave ∧ t.lpreData = s.lpreData ∧ t.takesIrq = false) ∧
    t.flags = s.flags ∧ keepsRegs [] s t ∧ keepsInterruptRegs s t ∧ keepsMemory s t ∧ keepsFetch s t ∧
    keepsInputs s t)

/-- R131 (with the spec's decision D6 that an invalid `lpre` is still four bytes long): what `lpre` does, in effect or as
a NOP that ends every prefix; nothing else changes. -/
def Obligations.LongPrefix : Prop :=
  ∀ (s : State) (imm : BitVec 27), ∃ t, exec (.lpre imm) s = .next t ∧ t.pc = s.pc + 4 ∧
    (if s.preHave = true ∨ s.lpreHave = true then noPrefix t
     else t.lpreHave = true ∧ t.lpreData = imm ∧ t.preHave = false ∧ t.indexHave = s.indexHave ∧
       t.indexReg = s.indexReg) ∧
    t.flags = s.flags ∧ keepsRegs [] s t ∧ keepsInterruptRegs s t ∧ keepsMemory s t ∧ keepsFetch s t ∧
    keepsInputs s t

/-- R134: every instruction other than `pre`, `lpre` and `index` leaves no prefix in effect, and whenever `index` stops
being in effect so does `pre`. -/
def Obligations.OtherInstructionsEndPrefixes : Prop :=
  ∀ (i : Instr) (s t : State), exec i s = .next t →
    ((∀ imm, i ≠ .pre imm) → (∀ imm, i ≠ .lpre imm) → (∀ a, i ≠ .index a) → noPrefix t) ∧
    (s.indexHave = true → t.indexHave = false → t.preHave = false)

/-- R137, R365: "at most two consecutive boundaries are unserviceable": of three consecutive boundaries one has no prefix in
effect, from every state. -/
def Obligations.InterruptHoldOffIsBounded : Prop :=
  ∀ s t u : State, step s = .next t → step t = .next u → noPrefix s ∨ noPrefix t ∨ noPrefix u

/-! Group 1. -/

/-- R151 to R154, R156, R160 to R162: the register is written with the sum, the copy or the bitwise result; `flags` and
everything else is unchanged. -/
def Obligations.ImmediateArithmetic : Prop :=
  ∀ (s : State) (a : Reg) (i : BitVec 5),
    writesReg (.addImm a i) a (word ((s.reg a).toNat + simm5 s i)) s ∧
    writesReg (.addPcImm a i) a (word (s.pc.toNat + simm5 s i + 2)) s ∧
    writesReg (.addSpImm a i) a (word ((s.reg 15#4).toNat + simm5 s i)) s ∧
    writesReg (.addFpImm a i) a (word ((s.reg 14#4).toNat + simm5 s i)) s ∧
    writesReg (.cpyImm a i) a (word (simm5 s i)) s ∧
    writesReg (.andImm a i) a (s.reg a &&& word (simm5 s i)) s ∧
    writesReg (.orrImm a i) a (s.reg a ||| word (simm5 s i)) s ∧
    writesReg (.xorImm a i) a (s.reg a ^^^ word (simm5 s i)) s

/-- R157 to R159 and R188 to R190: the shifts by an immediate and by a register, with the free value for an amount of 32 or
more (the spec's decision D11, log entry 8); the register forms with `f` = 1 also write Z and N of the result. -/
def Obligations.Shifts : Prop :=
  (∀ (s : State) (a : Reg) (i : BitVec 5),
    writesReg (.lslImm a i) a (lslValue (s.reg a) (word (uimm5 s i))) s ∧
    writesReg (.lsrImm a i) a (lsrValue (s.reg a) (word (uimm5 s i))) s ∧
    writesReg (.asrImm a i) a (asrValue (s.reg a) (word (uimm5 s i))) s) ∧
  (∀ (s : State) (a b : Reg),
    writesReg (.lsl false a b) a (lslValue (s.reg a) (s.reg b)) s ∧
    writesReg (.lsr false a b) a (lsrValue (s.reg a) (s.reg b)) s ∧
    writesReg (.asr false a b) a (asrValue (s.reg a) (s.reg b)) s) ∧
  (∀ (s : State) (a b : Reg),
    (∃ t, exec (.lsl true a b) s = .next t ∧ t.reg a = lslValue (s.reg a) (s.reg b) ∧
      resultFlags s.flags (lslValue (s.reg a) (s.reg b)) t.flags ∧ t.pc = s.pc + 2 ∧ quiet [a] s t) ∧
    (∃ t, exec (.lsr true a b) s = .next t ∧ t.reg a = lsrValue (s.reg a) (s.reg b) ∧
      resultFlags s.flags (lsrValue (s.reg a) (s.reg b)) t.flags ∧ t.pc = s.pc + 2 ∧ quiet [a] s t) ∧
    (∃ t, exec (.asr true a b) s = .next t ∧ t.reg a = asrValue (s.reg a) (s.reg b) ∧
      resultFlags s.flags (asrValue (s.reg a) (s.reg b)) t.flags ∧ t.pc = s.pc + 2 ∧ quiet [a] s t))

/-- R163, R164: `ze` keeps the low `imm` bits, `se` extends the sign bit `imm`; a position out of 0..31 gives the free value
(the spec's decision D12, log entry 9). -/
def Obligations.ZeroAndSignExtend : Prop :=
  ∀ (s : State) (a : Reg) (i : BitVec 5),
    writesReg (.zeImm a i) a
      (if (word (uimm5 s i)).toNat < 32 then BitVec.ofNat 32 ((s.reg a).toNat % 2 ^ (word (uimm5 s i)).toNat)
       else Config.extOor .ze (s.reg a) (word (uimm5 s i))) s ∧
    writesReg (.seImm a i) a
      (if (word (uimm5 s i)).toNat < 32 then
         word (sext ((word (uimm5 s i)).toNat + 1) ((s.reg a).toNat % 2 ^ ((word (uimm5 s i)).toNat + 1)))
       else Config.extOor .se (s.reg a) (word (uimm5 s i))) s

/-- R155, R186, R311, R312: the four compares write the flags of the subtraction at their width (the spec's decisions D9 and
D16, log entry 30) and no register. -/
def Obligations.Compares : Prop :=
  (∀ (s : State) (a : Reg) (i : BitVec 5),
    writesFlags (.cmpImm a i) (differenceFlags (s.reg a) (word (simm5 s i)) 0) s) ∧
  (∀ (s : State) (a b : Reg),
    writesFlags (.cmp a b) (differenceFlags (s.reg a) (s.reg b) 0) s ∧
    writesFlags (.cmpb a b)
      (differenceFlags (BitVec.ofNat 8 (s.reg a).toNat) (BitVec.ofNat 8 (s.reg b).toNat) 0) s ∧
    writesFlags (.cmph a b)
      (differenceFlags (BitVec.ofNat 16 (s.reg a).toNat) (BitVec.ofNat 16 (s.reg b).toNat) 0) s)

/-- R165, R166, R335, R337, R338 (the spec's decisions D23, D24, D25, log entry 19): with an even `ids`, and unless
`SWI_MASKED_BY_IE` masks it, a `swi` enters at `ids` with the return address, the type and the argument; nothing else but
`ie`, `pc` and the prefix state changes. -/
def Obligations.SoftwareInterrupt : Prop :=
  ∀ (s : State) (a : Reg) (i : BitVec 5), s.ids.getLsbD 0 = false → (s.params.swiMaskedByIe = false ∨ s.ie = true) →
    ∀ (instr : Instr) (arg : Word),
      (instr = .swiReg a i ∧ arg = word ((s.reg a).toNat + simm5 s i)) ∨
      (instr = .swiImm i ∧ arg = word (uimm5 s i)) →
      ∃ t, exec instr s = .next t ∧ t.pc = s.ids ∧ t.ira = s.pc + 2 ∧ t.ity = true ∧ t.sty = arg ∧
        t.ie = (if s.params.irqEntryClearsIe = true then false else s.ie) ∧ t.ids = s.ids ∧ t.flags = s.flags ∧
        keepsRegs [] s t ∧ keepsMemory s t ∧ keepsFetch s t ∧ keepsInputs s t ∧ noPrefix t

/-- R338, R346 (the spec's decisions D18 and D25, log entry 19): a masked `swi` only advances `pc` and ends the prefixes; a
`swi` that is not masked with an odd `ids` is `fault(misaligned_pc)`. -/
def Obligations.SoftwareInterruptMaskedOrOddVector : Prop :=
  ∀ (s : State) (a : Reg) (i : BitVec 5) (instr : Instr), (instr = .swiReg a i ∨ instr = .swiImm i) →
    (s.params.swiMaskedByIe = true → s.ie = false → goesTo instr [] (s.pc + 2) s) ∧
    ((s.params.swiMaskedByIe = false ∨ s.ie = true) → s.ids.getLsbD 0 = true →
      exec instr s = .fault .misalignedPc)

/-! Group 2. -/

/-- R182 to R185, R194, R195 with R12 (the spec's decisions D9 and D10, log entry 30): the six sums and differences, their
four flags when `f` = 1, and `flags` unchanged when `f` = 0. -/
def Obligations.AddAndSubtract : Prop :=
  ∀ (s : State) (f : Bool) (a b : Reg) (instr : Instr) (res : Int) (flagsAre : Flags → Prop),
    ((instr = .add f a b ∧ res = (s.reg a).toNat + (s.reg b).toNat ∧ flagsAre = sumFlags (s.reg a) (s.reg b) 0) ∨
     (instr = .addSp f a b ∧ res = (s.reg 15#4).toNat + (s.reg b).toNat ∧
       flagsAre = sumFlags (s.reg 15#4) (s.reg b) 0) ∨
     (instr = .addFp f a b ∧ res = (s.reg 14#4).toNat + (s.reg b).toNat ∧
       flagsAre = sumFlags (s.reg 14#4) (s.reg b) 0) ∨
     (instr = .adc f a b ∧ res = (s.reg a).toNat + (s.reg b).toNat + s.flags.c.toNat ∧
       flagsAre = sumFlags (s.reg a) (s.reg b) s.flags.c.toNat) ∨
     (instr = .sub f a b ∧ res = (s.reg a).toNat - (s.reg b).toNat ∧
       flagsAre = differenceFlags (s.reg a) (s.reg b) 0) ∨
     (instr = .sbc f a b ∧ res = (s.reg a).toNat - (s.reg b).toNat - (1 - s.flags.c.toNat : Nat) ∧
       flagsAre = differenceFlags (s.reg a) (s.reg b) (1 - s.flags.c.toNat))) →
    ∃ t, exec instr s = .next t ∧ t.reg a = word res ∧ (f = true → flagsAre t.flags) ∧
      (f = false → t.flags = s.flags) ∧ t.pc = s.pc + 2 ∧ quiet [a] s t

/-- R187, R191, R192, R193: the copy and the three bitwise operations; with `f` = 1 they write Z and N of the result and
leave C and V, with `f` = 0 they leave `flags`. -/
def Obligations.CopyAndLogic : Prop :=
  ∀ (s : State) (f : Bool) (a b : Reg) (instr : Instr) (res : Word),
    ((instr = .cpy f a b ∧ res = s.reg b) ∨ (instr = .and f a b ∧ res = s.reg a &&& s.reg b) ∨
     (instr = .orr f a b ∧ res = s.reg a ||| s.reg b) ∨ (instr = .xor f a b ∧ res = s.reg a ^^^ s.reg b)) →
    ∃ t, exec instr s = .next t ∧ t.reg a = res ∧ (f = true → resultFlags s.flags res t.flags) ∧
      (f = false → t.flags = s.flags) ∧ t.pc = s.pc + 2 ∧ quiet [a] s t

/-- R196 with R12 (the spec's decision D9, log entry 30): `cmpbc` writes C, V and N of `rA - rB - (1 - C)` and Z as the old
Z AND the zero test, and no register. -/
def Obligations.CompareWithBorrow : Prop :=
  ∀ (s : State) (a b : Reg),
    writesFlags (.cmpbc a b)
      (fun f => ∃ z, differenceFlags (s.reg a) (s.reg b) (1 - s.flags.c.toNat) { f with z := z } ∧
        f.z = (s.flags.z && z)) s

/-- R194's and R195's corner cases (and R282): `add.f` on the low words then `adc` on the high words adds 64-bit values
modulo 2^64, and `sub.f` then `sbc` subtracts them, where the low destination is neither high register (with the spec's
decisions D9 and D10 for the carry between them, log entries 19 and 30). -/
def Obligations.DoubleWordAddAndSubtract : Prop :=
  ∀ (s t u : State) (f : Bool) (ah al bh bl : Reg), al ≠ ah → al ≠ bh →
    (exec (.add true al bl) s = .next t → exec (.adc f ah bh) t = .next u →
      pairValue (u.reg ah) (u.reg al) =
        (pairValue (s.reg ah) (s.reg al) + pairValue (s.reg bh) (s.reg bl)) % 18446744073709551616) ∧
    (exec (.sub true al bl) s = .next t → exec (.sbc f ah bh) t = .next u →
      (pairValue (u.reg ah) (u.reg al) : Int) =
        ((pairValue (s.reg ah) (s.reg al) : Int) - pairValue (s.reg bh) (s.reg bl)) % 18446744073709551616)

/-- R196's use (the flag formulas are the spec's decision D9, log entry 30): `cmp` on the low words then `cmpbc` on the high
words leaves the flags of the 64-bit comparison. -/
def Obligations.DoubleWordCompare : Prop :=
  ∀ (s t u : State) (ah al bh bl : Reg),
    exec (.cmp al bl) s = .next t → exec (.cmpbc ah bh) t = .next u →
      differenceFlags (s.reg ah ++ s.reg al) (s.reg bh ++ s.reg bl) 0 u.flags

/-! Group 3. -/

/-- R211, R212: `bl` and `bra` go to an even target, and `bl` links with the address after its own unit; an odd target is
`fault(misaligned_pc)`. -/
def Obligations.CallAndBranchAlways : Prop :=
  ∀ (s : State) (o : BitVec 9),
    ((target s o).getLsbD 0 = false →
      (∃ t, exec (.bl o) s = .next t ∧ t.reg 13#4 = s.pc + 2 ∧ t.pc = target s o ∧ t.flags = s.flags ∧
        quiet [13#4] s t) ∧
      goesTo (.bra o) [] (target s o) s) ∧
    ((target s o).getLsbD 0 = true →
      exec (.bl o) s = .fault .misalignedPc ∧ exec (.bra o) s = .fault .misalignedPc)

/-- R213 to R220: the eight branches on one flag, taken to an even target. -/
def Obligations.SingleFlagBranches : Prop :=
  branches .beq (fun s => s.flags.z) ∧ branches .bne (fun s => !s.flags.z) ∧
  branches .bmi (fun s => s.flags.n) ∧ branches .bpl (fun s => !s.flags.n) ∧
  branches .bvs (fun s => s.flags.v) ∧ branches .bvc (fun s => !s.flags.v) ∧
  branches .bgeu (fun s => s.flags.c) ∧ branches .bltu (fun s => !s.flags.c)

/-- R221 to R226: the six branches on a combination of flags, taken to an even target. -/
def Obligations.CombinedFlagBranches : Prop :=
  branches .bgtu (fun s => s.flags.c && !s.flags.z) ∧ branches .bleu (fun s => !s.flags.c || s.flags.z) ∧
  branches .bges (fun s => !(s.flags.n ^^ s.flags.v)) ∧ branches .blts (fun s => s.flags.n ^^ s.flags.v) ∧
  branches .bgts (fun s => !(s.flags.n ^^ s.flags.v) && !s.flags.z) ∧
  branches .bles (fun s => (s.flags.n ^^ s.flags.v) || s.flags.z)

/-- R186 with R213, R214 and R219 to R226 (the flags of `cmp` are the spec's decision D9, log entry 30): after `cmp rA, rB`,
each of the ten comparing branches with an even target goes there exactly when its relation holds between the registers, and
else to the next unit. -/
def Obligations.CompareThenBranch : Prop :=
  ∀ (s t : State) (a b : Reg) (o : BitVec 9) (br : BitVec 9 → Instr) (holds : Prop),
    exec (.cmp a b) s = .next t → (target t o).getLsbD 0 = false →
    ((br = .beq ∧ (holds ↔ s.reg a = s.reg b)) ∨ (br = .bne ∧ (holds ↔ s.reg a ≠ s.reg b)) ∨
     (br = .bgeu ∧ (holds ↔ (s.reg a).toNat ≥ (s.reg b).toNat)) ∨
     (br = .bltu ∧ (holds ↔ (s.reg a).toNat < (s.reg b).toNat)) ∨
     (br = .bgtu ∧ (holds ↔ (s.reg a).toNat > (s.reg b).toNat)) ∨
     (br = .bleu ∧ (holds ↔ (s.reg a).toNat ≤ (s.reg b).toNat)) ∨
     (br = .bges ∧ (holds ↔ (s.reg a).toInt ≥ (s.reg b).toInt)) ∨
     (br = .blts ∧ (holds ↔ (s.reg a).toInt < (s.reg b).toInt)) ∨
     (br = .bgts ∧ (holds ↔ (s.reg a).toInt > (s.reg b).toInt)) ∨
     (br = .bles ∧ (holds ↔ (s.reg a).toInt ≤ (s.reg b).toInt))) →
    (holds → goesTo (br o) [] (target t o) t) ∧ (¬ holds → goesTo (br o) [] (t.pc + 2) t)

/-- R68 (the spec's decision D18, log entry 19): a taken branch, a jump, a return or a `pop pc` to an odd address is
`fault(misaligned_pc)`. -/
def Obligations.OddTargetsFault : Prop :=
  (∀ (s : State) (o : BitVec 9), (target s o).getLsbD 0 = true →
    (s.flags.z = true → exec (.beq o) s = .fault .misalignedPc ∧ exec (.bleu o) s = .fault .misalignedPc ∧
      exec (.bles o) s = .fault .misalignedPc) ∧
    (s.flags.z = false → exec (.bne o) s = .fault .misalignedPc) ∧
    (s.flags.n = true → exec (.bmi o) s = .fault .misalignedPc) ∧
    (s.flags.n = false → exec (.bpl o) s = .fault .misalignedPc) ∧
    (s.flags.v = true → exec (.bvs o) s = .fault .misalignedPc) ∧
    (s.flags.v = false → exec (.bvc o) s = .fault .misalignedPc) ∧
    (s.flags.c = true → exec (.bgeu o) s = .fault .misalignedPc) ∧
    (s.flags.c = false → exec (.bltu o) s = .fault .misalignedPc ∧ exec (.bleu o) s = .fault .misalignedPc) ∧
    (s.flags.c = true → s.flags.z = false → exec (.bgtu o) s = .fault .misalignedPc) ∧
    (s.flags.n = s.flags.v → exec (.bges o) s = .fault .misalignedPc) ∧
    (s.flags.n ≠ s.flags.v → exec (.blts o) s = .fault .misalignedPc ∧ exec (.bles o) s = .fault .misalignedPc) ∧
    (s.flags.n = s.flags.v → s.flags.z = false → exec (.bgts o) s = .fault .misalignedPc)) ∧
  (∀ (s : State) (a : Reg), (s.reg a).getLsbD 0 = true →
    exec (.jl a) s = .fault .misalignedPc ∧ exec (.jmp a) s = .fault .misalignedPc) ∧
  (∀ s : State, s.ira.getLsbD 0 = true →
    exec .jmpIra s = .fault .misalignedPc ∧ exec .reti s = .fault .misalignedPc) ∧
  (∀ (s : State) (b : Reg), s.permits (s.reg b + 4) 4 → wordAt s (s.reg b + 4) % 2 = 1 →
    exec (.popPc b) s = .fault .misalignedPc)

/-! Group 4. -/

/-- R241, R242: `jl` links and jumps, reading both right-hand sides first; `jmp` jumps; an odd register is
`fault(misaligned_pc)`. -/
def Obligations.AbsoluteJumps : Prop :=
  ∀ (s : State) (a : Reg),
    ((s.reg a).getLsbD 0 = false →
      (∃ t, exec (.jl a) s = .next t ∧ t.reg 13#4 = s.pc + 2 ∧ t.pc = s.reg a ∧ t.flags = s.flags ∧
        quiet [13#4] s t) ∧
      goesTo (.jmp a) [] (s.reg a) s) ∧
    ((s.reg a).getLsbD 0 = true →
      exec (.jl a) s = .fault .misalignedPc ∧ exec (.jmp a) s = .fault .misalignedPc)

/-- R342, R343: `reti` sets `ie` and goes to `ira`, `jmp ira` only goes there; nothing else is restored or changed. -/
def Obligations.ReturnsFromInterrupt : Prop :=
  ∀ s : State, s.ira.getLsbD 0 = false →
    (∃ t, exec .reti s = .next t ∧ t.pc = s.ira ∧ t.ie = true ∧ t.ira = s.ira ∧ t.ity = s.ity ∧ t.sty = s.sty ∧
      t.ids = s.ids ∧ t.flags = s.flags ∧ keepsRegs [] s t ∧ keepsMemory s t ∧ keepsFetch s t ∧ keepsInputs s t ∧
      noPrefix t) ∧
    goesTo .jmpIra [] s.ira s

/-- R245, R246: `ei` writes 1 to `ie` and `di` writes 0; nothing else changes. -/
def Obligations.InterruptEnable : Prop :=
  ∀ (s : State) (instr : Instr) (v : Bool), (instr = .ei ∧ v = true) ∨ (instr = .di ∧ v = false) →
    ∃ t, exec instr s = .next t ∧ t.ie = v ∧ t.ids = s.ids ∧ t.ira = s.ira ∧ t.ity = s.ity ∧ t.sty = s.sty ∧
      t.flags = s.flags ∧ keepsRegs [] s t ∧ keepsMemory s t ∧ keepsFetch s t ∧ keepsInputs s t ∧ noPrefix t ∧
      t.pc = s.pc + 2

/-- R247, R248 (with the spec's decisions D22, D31 and D32, log entry 19): a push stores its word at the address `rB` holds
and moves `rB` down by 4; `push` of a register on itself does nothing; a special register is pushed zero-extended. -/
def Obligations.Pushes : Prop :=
  (∀ (s : State) (a b : Reg), a ≠ b → s.permits (s.reg b) 4 →
    ∃ t, exec (.push a b) s = .next t ∧ t.reg b = s.reg b - 4 ∧ stores [b] (s.reg b) 4 (s.reg a) s t) ∧
  (∀ (s : State) (a : Reg), goesTo (.push a a) [] (s.pc + 2) s) ∧
  (∀ (s : State) (k : SpecialField) (q : Special) (b : Reg), specialOf k = some q → s.permits (s.reg b) 4 →
    ∃ t, exec (.pushSpecial k b) s = .next t ∧ t.reg b = s.reg b - 4 ∧
      stores [b] (s.reg b) 4 (s.special q) s t)

/-- R249 to R251 (with the spec's decisions D22, D31, D32 and D33, log entry 19): a pop reads the word above the address
`rB` holds and moves `rB` up by 4; `pop` of a register on itself does nothing; a special register keeps its state bits;
`pop pc` goes to an even word. -/
def Obligations.Pops : Prop :=
  (∀ (s : State) (a b : Reg), a ≠ b → s.permits (s.reg b + 4) 4 →
    ∃ t, exec (.pop a b) s = .next t ∧ (t.reg a).toNat = wordAt s (s.reg b + 4) ∧ t.reg b = s.reg b + 4 ∧
      t.flags = s.flags ∧ t.pc = s.pc + 2 ∧ quiet [a, b] s t) ∧
  (∀ (s : State) (a : Reg), goesTo (.pop a a) [] (s.pc + 2) s) ∧
  (∀ (s : State) (k : SpecialField) (q : Special) (b : Reg), specialOf k = some q → s.permits (s.reg b + 4) 4 →
    ∃ t, writesSpecial (.popSpecial k b) q (wordAt s (s.reg b + 4)) [b] s t ∧ t.reg b = s.reg b + 4) ∧
  (∀ (s : State) (b : Reg), s.permits (s.reg b + 4) 4 → wordAt s (s.reg b + 4) % 2 = 0 →
    ∃ t, exec (.popPc b) s = .next t ∧ t.pc.toNat = wordAt s (s.reg b + 4) ∧ t.reg b = s.reg b + 4 ∧
      t.flags = s.flags ∧ quiet [b] s t)

/-- R249's corner case: "`pop` after `push` with the same `rB` restores both the value and `rB`", into any other register,
and a `pop pc` of a pushed even word goes to it. -/
def Obligations.PopAfterPush : Prop :=
  ∀ (s t : State) (a b c : Reg), a ≠ b → c ≠ b → exec (.push a b) s = .next t →
    (∃ u, exec (.pop c b) t = .next u ∧ u.reg c = s.reg a ∧ u.reg b = s.reg b ∧ keepsRegs [c] s u ∧
      u.flags = s.flags ∧ keepsInterruptRegs s u) ∧
    ((s.reg a).getLsbD 0 = false →
      ∃ u, exec (.popPc b) t = .next u ∧ u.pc = s.reg a ∧ keepsRegs [] s u ∧ u.flags = s.flags ∧
        keepsInterruptRegs s u)

/-- R271, R276, R277: the low product, and the unsigned and signed 64-bit products into the pair (`r0`, `r1`). -/
def Obligations.Products : Prop :=
  ∀ (s : State) (a b : Reg),
    writesReg (.mul a b) a (BitVec.ofNat 32 ((s.reg a).toNat * (s.reg b).toNat)) s ∧
    writesPair (.lumul a b) 0#4 1#4 ((s.reg a).toNat * (s.reg b).toNat) s ∧
    writesPair (.lsmul a b) 0#4 1#4 (((s.reg a).toInt * (s.reg b).toInt) % 18446744073709551616).toNat s

/-- R272, R274, R278, R280: unsigned quotient and remainder at 32 bits, and at 64 bits on the even/odd pairs the fields
name; a zero divisor gives `DIV_SPECIAL`'s value, at the destination's width (the spec's decision D13; that the model goes
on with a free value is its choice, log entry 10). -/
def Obligations.UnsignedDivision : Prop :=
  ∀ (s : State) (a b : Reg) (ah al bh bl : Reg), ah = a &&& 0xE#4 → al = ah ||| 1#4 → bh = b &&& 0xE#4 →
    bl = bh ||| 1#4 →
    ((s.reg b).toNat ≠ 0 →
      writesReg (.udiv a b) a (BitVec.ofNat 32 ((s.reg a).toNat / (s.reg b).toNat)) s ∧
      writesReg (.umod a b) a (BitVec.ofNat 32 ((s.reg a).toNat % (s.reg b).toNat)) s) ∧
    ((s.reg b).toNat = 0 →
      writesReg (.udiv a b) a (Config.divSpecial 32 .udiv (s.reg a) (s.reg b)) s ∧
      writesReg (.umod a b) a (Config.divSpecial 32 .umod (s.reg a) (s.reg b)) s) ∧
    (pairValue (s.reg bh) (s.reg bl) ≠ 0 →
      writesPair (.udiv64 a b) ah al (pairValue (s.reg ah) (s.reg al) / pairValue (s.reg bh) (s.reg bl)) s ∧
      writesPair (.umod64 a b) ah al (pairValue (s.reg ah) (s.reg al) % pairValue (s.reg bh) (s.reg bl)) s) ∧
    (pairValue (s.reg bh) (s.reg bl) = 0 →
      writesPair (.udiv64 a b) ah al
        (Config.divSpecial 64 .udiv (s.reg ah ++ s.reg al) (s.reg bh ++ s.reg bl)).toNat s ∧
      writesPair (.umod64 a b) ah al
        (Config.divSpecial 64 .umod (s.reg ah ++ s.reg al) (s.reg bh ++ s.reg bl)).toNat s)

/-- R273, R275 (the spec's decisions D13 and D14, log entries 10 and 30): signed quotient rounded toward zero and the
remainder with the dividend's sign; a zero divisor and the overflow case give `DIV_SPECIAL`'s value. -/
def Obligations.SignedDivision : Prop :=
  ∀ (s : State) (a b : Reg),
    (¬ ((s.reg b).toInt = 0 ∨ ((s.reg a).toInt = -2147483648 ∧ (s.reg b).toInt = -1)) →
      writesReg (.sdiv a b) a (word ((s.reg a).toInt.tdiv (s.reg b).toInt)) s ∧
      writesReg (.smod a b) a (word ((s.reg a).toInt.tmod (s.reg b).toInt)) s) ∧
    ((s.reg b).toInt = 0 ∨ ((s.reg a).toInt = -2147483648 ∧ (s.reg b).toInt = -1) →
      writesReg (.sdiv a b) a (Config.divSpecial 32 .sdiv (s.reg a) (s.reg b)) s ∧
      writesReg (.smod a b) a (Config.divSpecial 32 .smod (s.reg a) (s.reg b)) s)

/-- R279, R281 (the spec's decisions D13 and D14, log entries 10 and 30): the same at 64 bits, on the even/odd pairs the
fields name. -/
def Obligations.SignedDivisionOfPairs : Prop :=
  ∀ (s : State) (a b : Reg) (ah al bh bl : Reg) (x y : BitVec 64), ah = a &&& 0xE#4 → al = ah ||| 1#4 →
    bh = b &&& 0xE#4 → bl = bh ||| 1#4 → x = s.reg ah ++ s.reg al → y = s.reg bh ++ s.reg bl →
    (¬ (y.toInt = 0 ∨ (x.toInt = -9223372036854775808 ∧ y.toInt = -1)) →
      writesPair (.sdiv64 a b) ah al ((x.toInt.tdiv y.toInt) % 18446744073709551616).toNat s ∧
      writesPair (.smod64 a b) ah al ((x.toInt.tmod y.toInt) % 18446744073709551616).toNat s) ∧
    (y.toInt = 0 ∨ (x.toInt = -9223372036854775808 ∧ y.toInt = -1) →
      writesPair (.sdiv64 a b) ah al (Config.divSpecial 64 .sdiv x y).toNat s ∧
      writesPair (.smod64 a b) ah al (Config.divSpecial 64 .smod x y).toNat s)

/-- R270 (the spec's decision D14): "`(a / b) * b + (a % b) = a`", for the results of `sdiv` and `smod` as signed numbers,
wherever the operation is defined, and the remainder is smaller than the divisor and has the dividend's sign. -/
def Obligations.SignedDivisionIdentity : Prop :=
  ∀ (s t u : State) (a b : Reg), (s.reg b).toInt ≠ 0 →
    ¬ ((s.reg a).toInt = -2147483648 ∧ (s.reg b).toInt = -1) →
    exec (.sdiv a b) s = .next t → exec (.smod a b) s = .next u →
      (t.reg a).toInt * (s.reg b).toInt + (u.reg a).toInt = (s.reg a).toInt ∧
      (u.reg a).toInt.natAbs < (s.reg b).toInt.natAbs ∧
      ((u.reg a).toInt = 0 ∨ ((u.reg a).toInt < 0 ↔ (s.reg a).toInt < 0))

/-- R291 to R294 and R300: the five loads write the extended value of the bytes at `rB + IDX` (for `ldr`,
`rB + IDX + IMM`), big-endian. -/
def Obligations.Loads : Prop :=
  (∀ (s : State) (a b : Reg) (ea : Word), ea = s.reg b + (if s.indexHave = true then s.indexReg else 0) →
    (s.permits ea 1 →
      writesReg (.ldub a b) a (BitVec.ofNat 32 (byteAt s ea)) s ∧
      writesReg (.ldsb a b) a (word (sext 8 (byteAt s ea))) s) ∧
    (s.permits ea 2 →
      writesReg (.lduh a b) a (BitVec.ofNat 32 (halfAt s ea)) s ∧
      writesReg (.ldsh a b) a (word (sext 16 (halfAt s ea))) s)) ∧
  (∀ (s : State) (a b : Reg) (i : BitVec 5) (ea : Word),
    ea = s.reg b + (if s.indexHave = true then s.indexReg else 0) + word (simm5 s i) → s.permits ea 4 →
    writesReg (.ldr a b i) a (BitVec.ofNat 32 (wordAt s ea)) s)

/-- R295, R296, R301: the three stores write the low 1, 2 or 4 bytes of `rA` at the address their meanings compute,
big-endian, and nothing else; that address is `rB + IDX`, for `str` `rB + IDX + IMM`. -/
def Obligations.Stores : Prop :=
  (∀ (s : State) (a b : Reg),
    s.narrowAddress b = s.reg b + (if s.indexHave = true then s.indexReg else 0) ∧
    (s.permits (s.narrowAddress b) 1 →
      ∃ t, exec (.stb a b) s = .next t ∧ stores [] (s.narrowAddress b) 1 (s.reg a) s t) ∧
    (s.permits (s.narrowAddress b) 2 →
      ∃ t, exec (.sth a b) s = .next t ∧ stores [] (s.narrowAddress b) 2 (s.reg a) s t)) ∧
  (∀ (s : State) (a b : Reg) (i : BitVec 5),
    s.wordAddress b i = s.reg b + (if s.indexHave = true then s.indexReg else 0) + word (simm5 s i) ∧
    (s.permits (s.wordAddress b i) 4 →
      ∃ t, exec (.str a b i) s = .next t ∧ stores [] (s.wordAddress b i) 4 (s.reg a) s t))

/-- R62, R76: after `str rA, [rB]` with no prefix in effect, `ldr` at the same address gives the stored word back, `ldub` its
most significant byte and `lduh` its high halfword. -/
def Obligations.LoadAfterStore : Prop :=
  ∀ (s t : State) (a b c : Reg), noPrefix s → exec (.str a b 0#5) s = .next t →
    (∃ u, exec (.ldr c b 0#5) t = .next u ∧ u.reg c = s.reg a) ∧
    (∃ u, exec (.ldub c b) t = .next u ∧ (u.reg c).toNat = (s.reg a).toNat / 16777216) ∧
    (∃ u, exec (.lduh c b) t = .next u ∧ (u.reg c).toNat = (s.reg a).toNat / 65536)

/-- R30, R31, R252 to R254 (with R39, the spec's decision D22, log entry 19): which register each field's number names, and
what each register reads as; the three special-register copies, read zero-extended and written truncated, with the state
they leave; and the same state after every write of a special register that these statements speak of. -/
def Obligations.SpecialCopies : Prop :=
  (∀ (k : SpecialField) (q : Special), specialOf k = some q ↔ fieldNames k q) ∧
  (∀ (s : State) (q : Special), (s.special q).toNat = specialValue s q) ∧
  (∀ (s : State) (a : Reg) (k : SpecialField) (q : Special), fieldNames k q →
    writesReg (.cpyFromSpecial a k) a (BitVec.ofNat 32 (specialValue s q)) s ∧ specialValue s q < 2 ^ specialBits q) ∧
  (∀ (s : State) (k : SpecialField) (q : Special) (b : Reg), fieldNames k q →
    ∃ t, writesSpecial (.cpyToSpecial k b) q (s.reg b).toNat [] s t ∧ specialHolds t q (s.reg b).toNat) ∧
  (∀ (s : State) (j k : SpecialField) (p q : Special), fieldNames j p → fieldNames k q →
    ∃ t, writesSpecial (.cpySpecial j k) p (specialValue s q) [] s t ∧ specialHolds t p (specialValue s q)) ∧
  (∀ (s t : State) (i : Instr) (q : Special) (v : Nat) (written : List Reg),
    writesSpecial i q v written s t → specialHolds t q v)

/-! Group 7. -/

/-- R313 to R316 (the spec's decision D15, log entries 8 and 19): the four narrow shifts under both settings of
`NARROW_SHIFT_WRITEBACK`, with the free value's low bits for an amount of the width or more. -/
def Obligations.NarrowShifts : Prop :=
  ∀ (s : State) (a b : Reg) (w : Nat) (instr : Instr) (signed : Bool) (op : ShiftOp) (res : Nat),
    ((instr = .lsrb a b ∧ w = 8 ∧ signed = false ∧ op = .lsrb) ∨
     (instr = .lsrh a b ∧ w = 16 ∧ signed = false ∧ op = .lsrh) ∨
     (instr = .asrb a b ∧ w = 8 ∧ signed = true ∧ op = .asrb) ∨
     (instr = .asrh a b ∧ w = 16 ∧ signed = true ∧ op = .asrh)) →
    (res = if (s.reg b).toNat < w then
        (if signed = true then (sext w ((s.reg a).toNat % 2 ^ w) / 2 ^ (s.reg b).toNat % 2 ^ w).toNat
         else (s.reg a).toNat % 2 ^ w / 2 ^ (s.reg b).toNat)
      else (Config.shiftOor op (s.reg a) (s.reg b)).toNat % 2 ^ w) →
    (s.params.narrowShiftWriteback = .extend →
      writesReg instr a (if signed = true then word (sext w res) else BitVec.ofNat 32 res) s) ∧
    (s.params.narrowShiftWriteback = .merge →
      writesReg instr a (BitVec.ofNat 32 ((s.reg a).toNat / 2 ^ w * 2 ^ w + res)) s)

/-- R317, R318 (with R39, the spec's decision D22, log entry 19): a special register is loaded from the address a general
or a special register holds, and keeps its state bits. -/
def Obligations.SpecialLoads : Prop :=
  (∀ (s : State) (k : SpecialField) (q : Special) (b : Reg), specialOf k = some q → s.permits (s.reg b) 4 →
    ∃ t, writesSpecial (.ldrSpecial k b) q (wordAt s (s.reg b)) [] s t) ∧
  (∀ (s : State) (j k : SpecialField) (p q : Special), specialOf j = some p → specialOf k = some q →
    s.permits (s.special q) 4 →
    ∃ t, writesSpecial (.ldrSpecialAt j k) p (wordAt s (s.special q)) [] s t)

/-- R319, R320: a special register is stored, zero-extended, to the address a general or a special register holds. -/
def Obligations.SpecialStores : Prop :=
  (∀ (s : State) (k : SpecialField) (q : Special) (b : Reg), specialOf k = some q → s.permits (s.reg b) 4 →
    ∃ t, exec (.strSpecial k b) s = .next t ∧ stores [] (s.reg b) 4 (s.special q) s t) ∧
  (∀ (s : State) (j k : SpecialField) (p q : Special), specialOf j = some p → specialOf k = some q →
    s.permits (s.special q) 4 →
    ∃ t, exec (.strSpecialAt j k) s = .next t ∧ stores [] (s.special q) 4 (s.special p) s t)

/-- R321, R81 (the spec's decisions D29 and D30, log entries 5 and 30): `icreload` of a line of RAM changes no register, flag
or byte of memory; afterwards a fetch of any byte of that line reads memory, the line no longer counts as written, and
fetches from other lines read what they read before. -/
def Obligations.IcacheReload : Prop :=
  ∀ (s : State) (a : Reg) (i : BitVec 5) (ea : Word),
    ea = (if s.indexHave = true then s.indexReg else 0) + s.reg a + word (simm5 s i) →
    (∀ k, k < 64 → s.kindAt (BitVec.ofNat 32 (ea.toNat / 64 * 64 + k)) = .ram) →
    ∃ t, exec (.icreload a i) s = .next t ∧ t.pc = s.pc + 2 ∧ t.flags = s.flags ∧ keepsRegs [] s t ∧
      keepsInterruptRegs s t ∧ keepsMemory s t ∧ keepsInputs s t ∧ noPrefix t ∧
      (∀ x : Word, x.toNat / 64 = ea.toNat / 64 →
        t.fetchByte x = t.mem.read x.toNat ∧ lineOf x ∉ t.staleLines) ∧
      (∀ x : Word, x.toNat / 64 ≠ ea.toNat / 64 →
        t.fetchByte x = s.fetchByte x ∧ (lineOf x ∈ t.staleLines ↔ lineOf x ∈ s.staleLines))

/-! Where an instruction stops. -/

/-- R69 (the spec's decision D17, log entry 7): with `MISALIGNED_DATA` = fault, a 2-byte access at an odd address and a
4-byte access at an address that is no multiple of 4 are `fault(misaligned_data)`, also where a byte is absent or a
device's (the model's order of the causes, log entry 13). -/
def Obligations.MisalignedDataFaults : Prop :=
  ∀ s : State, s.params.misalignedData = .fault →
    (∀ a b : Reg, (s.narrowAddress b).toNat % 2 = 1 →
      exec (.lduh a b) s = .fault .misalignedData ∧ exec (.ldsh a b) s = .fault .misalignedData ∧
      exec (.sth a b) s = .fault .misalignedData) ∧
    (∀ (a b : Reg) (i : BitVec 5), (s.wordAddress b i).toNat % 4 ≠ 0 →
      exec (.ldr a b i) s = .fault .misalignedData ∧ exec (.str a b i) s = .fault .misalignedData) ∧
    (∀ (a b : Reg) (k : SpecialField), (s.reg b).toNat % 4 ≠ 0 → k.assigned = true →
      (a ≠ b → exec (.push a b) s = .fault .misalignedData ∧ exec (.pop a b) s = .fault .misalignedData) ∧
      exec (.pushSpecial k b) s = .fault .misalignedData ∧ exec (.popSpecial k b) s = .fault .misalignedData ∧
      exec (.popPc b) s = .fault .misalignedData ∧ exec (.ldrSpecial k b) s = .fault .misalignedData ∧
      exec (.strSpecial k b) s = .fault .misalignedData) ∧
    (∀ (j k : SpecialField) (q : Special), j.assigned = true → specialOf k = some q → (s.special q).toNat % 4 ≠ 0 →
      exec (.ldrSpecialAt j k) s = .fault .misalignedData ∧ exec (.strSpecialAt j k) s = .fault .misalignedData)

/-- R38 (the spec's decision D20, log entry 17): an instruction whose special-register field holds 6 to 15 is
`fault(reserved_sreg)`, also where its address is misaligned, absent or a device's (the model's order of the causes, log
entry 13). -/
def Obligations.ReservedSpecialFieldFaults : Prop :=
  ∀ (s : State) (k : SpecialField), 6 ≤ k.toNat →
    (∀ b : Reg, exec (.cpyFromSpecial b k) s = .fault .reservedSreg ∧
      exec (.cpyToSpecial k b) s = .fault .reservedSreg ∧ exec (.pushSpecial k b) s = .fault .reservedSreg ∧
      exec (.popSpecial k b) s = .fault .reservedSreg ∧ exec (.ldrSpecial k b) s = .fault .reservedSreg ∧
      exec (.strSpecial k b) s = .fault .reservedSreg) ∧
    (∀ j : SpecialField,
      exec (.cpySpecial j k) s = .fault .reservedSreg ∧ exec (.cpySpecial k j) s = .fault .reservedSreg ∧
      exec (.ldrSpecialAt j k) s = .fault .reservedSreg ∧ exec (.ldrSpecialAt k j) s = .fault .reservedSreg ∧
      exec (.strSpecialAt j k) s = .fault .reservedSreg ∧ exec (.strSpecialAt k j) s = .fault .reservedSreg)

/-- R66, R73, R347 (the spec's decision D28; the refusal and the order of the causes are the model's, log entries 12, 13 and
27): an access with an absent byte is `fault(bus)`, and one with none absent and a device's byte is the refusal
`deviceAccess`: for every load and store that `MISALIGNED_DATA` lets through, for the 64 bytes of the line of an `icreload`,
and for the fetch of the unit at an even `pc` and of the second unit of an `lpre`, when no interrupt is taken before it. -/
def Obligations.AbsentAddressFaults : Prop :=
  (∀ (s : State) (i : Instr) (a : Word) (n : Nat), loadsFrom s i a n ∨ storesTo s i a n →
    (s.params.misalignedData = .split ∨ a.toNat % n = 0) → mapStops s (exec i s) a n) ∧
  (∀ (s : State) (r : Reg) (v : BitVec 5),
    mapStops s (exec (.icreload r v) s) (BitVec.ofNat 32 ((s.reloadAddress r v).toNat / 64 * 64)) 64) ∧
  (∀ s : State, noInterruptNow s →
    (s.pcEven → mapStops s (step s) s.pc 2) ∧
    (firstUnitIsLpre s → mapStops s (step s) (s.pc + 2) 2))

/-- R79, R81 (the spec's decisions D29 and D30, log entries 5 and 14): when no interrupt is taken before it, a fetch from a
line written and not reloaded since is `fault(stale_fetch)`: of the unit at an even `pc`, and of the second unit of an
`lpre`, where they stand in RAM; so it is in the step after any store, into the line of the next instruction. With the
model's choice for a `pc` that R28 calls no valid state (log entry 15): a fetch at an odd `pc` is
`fault(misaligned_pc)`. -/
def Obligations.StaleFetchFaults : Prop :=
  (∀ s : State, noInterruptNow s →
    (s.pcEven → s.ramAt s.pc 2 → lineOf s.pc ∈ s.staleLines → step s = .fault .staleFetch) ∧
    (firstUnitIsLpre s → s.ramAt (s.pc + 2) 2 → lineOf (s.pc + 2) ∈ s.staleLines → step s = .fault .staleFetch) ∧
    (¬ s.pcEven → step s = .fault .misalignedPc)) ∧
  (∀ (s t : State) (i : Instr) (a : Word) (n k : Nat), storesTo s i a n → exec i s = .next t → s.pcEven →
    noInterruptNow t → t.ramAt t.pc 2 → k < n → lineOf t.pc = lineOf (a + BitVec.ofNat 32 k) →
    step t = .fault .staleFetch)

/-! Steps, interrupts and reset. -/

/-- R112, R334, R368: when no interrupt is taken and the bytes of memory at `pc` decode to an instruction, the step is that
instruction's meaning at the state whose interrupt sample is consumed (log entry 23). The cache holds lines as memory has
them, or the line is not held (R81). -/
def Obligations.StepRunsTheDecodedInstruction : Prop :=
  ∀ (s : State) (i : Instr) (rest : List Byte), noInterruptNow s → s.cacheCoherent →
    decode (bytesAtPc s) = .ok (i, rest) → fetchable s (encode i).length → step s = exec i s.sampled

/-- R114 (the spec's decision D19, log entry 18): when the bytes at `pc` are no instruction, the step is
`fault(reserved_encoding)`, or, under the `nop` setting, only advances `pc` and ends the prefixes. -/
def Obligations.ReservedEncodingPolicy : Prop :=
  ∀ (s : State) (e : DecodeError), noInterruptNow s → s.cacheCoherent → fetchable s 2 →
    decode (bytesAtPc s) = .error e →
    (s.params.reservedEncoding = .fault → step s = .fault .reservedEncoding) ∧
    (s.params.reservedEncoding = .nop →
      ∃ t, step s = .next t ∧ t.pc = s.pc + 2 ∧ t.flags = s.flags ∧ keepsRegs [] s t ∧ keepsInterruptRegs s t ∧
        keepsMemory s t ∧ keepsFetch s t ∧ noPrefix t ∧ t.irqLine = s.irqLine.tail ∧ t.params = s.params)

/-- R334, R335, R336 (the spec's decisions D23 and D41, log entries 11, 19 and 23): with the request true, `ie` = 1, no prefix
in effect and an even `ids`, the step enters the handler: `ira` is the address of the instruction not executed, `ity` is 0,
`sty` and everything else is as it was, and one sample is consumed; with an odd `ids` it is `fault(misaligned_pc)`. -/
def Obligations.InterruptEntry : Prop :=
  ∀ (s : State) (samples : List Bool), s.irqLine = true :: samples → s.ie = true → noPrefix s →
    (s.ids.getLsbD 0 = false →
      ∃ t, step s = .next t ∧ t.pc = s.ids ∧ t.ira = s.pc ∧ t.ity = false ∧ t.sty = s.sty ∧ t.ids = s.ids ∧
        t.ie = !s.params.irqEntryClearsIe ∧ t.flags = s.flags ∧ keepsRegs [] s t ∧ keepsMemory s t ∧
        keepsFetch s t ∧ noPrefix t ∧ t.irqLine = samples ∧ t.params = s.params) ∧
    (s.ids.getLsbD 0 = true → step s = .fault .misalignedPc)

/-- R336, R342, R344 (the request at the boundary is the next sample, log entries 11 and 23): after an interrupt whose handler
is `reti` at once, `pc`, `ie`, `flags`, every general register, every byte of memory, what a fetch reads, `ids` and `sty`
are as before the entry, and no prefix is in effect. Of `ira` and `ity`, which the entry writes, it says nothing. -/
def Obligations.ReturnAfterEntryResumes : Prop :=
  ∀ (s t u : State), s.irqLine.head? = some true → s.ie = true → noPrefix s → s.pcEven → step s = .next t →
    exec .reti t = .next u →
    u.pc = s.pc ∧ u.ie = s.ie ∧ u.flags = s.flags ∧ keepsRegs [] s u ∧ keepsMemory s u ∧ keepsFetch s u ∧
      noPrefix u ∧ u.ids = s.ids ∧ u.sty = s.sty

/-- R32 to R37: which instructions can change each of `flags`, `ids`, `ie`, `ira`, `ity` and `sty`; no other instruction
changes it. -/
def Obligations.WhoWritesTheSpecialRegisters : Prop :=
  ∀ (i : Instr) (s t : State), exec i s = .next t →
    (t.flags ≠ s.flags →
      (∃ a v, i = .cmpImm a v) ∨ (∃ a b, i = .cmp a b ∨ i = .cmpbc a b ∨ i = .cmpb a b ∨ i = .cmph a b) ∨
      (∃ a b, i = .add true a b ∨ i = .sub true a b ∨ i = .addSp true a b ∨ i = .addFp true a b ∨ i = .cpy true a b ∨
        i = .lsl true a b ∨ i = .lsr true a b ∨ i = .asr true a b ∨ i = .and true a b ∨ i = .orr true a b ∨
        i = .xor true a b ∨ i = .adc true a b ∨ i = .sbc true a b) ∨
      (∃ b, i = .cpyToSpecial 0#4 b ∨ i = .cpySpecial 0#4 b ∨ i = .popSpecial 0#4 b ∨ i = .ldrSpecial 0#4 b ∨
        i = .ldrSpecialAt 0#4 b)) ∧
    (t.ids ≠ s.ids →
      ∃ b, i = .cpyToSpecial 1#4 b ∨ i = .cpySpecial 1#4 b ∨ i = .popSpecial 1#4 b ∨ i = .ldrSpecial 1#4 b ∨
        i = .ldrSpecialAt 1#4 b) ∧
    (t.ie ≠ s.ie →
      i = .ei ∨ i = .di ∨ i = .reti ∨ (∃ a v, i = .swiReg a v) ∨ (∃ v, i = .swiImm v) ∨
      ∃ b, i = .cpyToSpecial 3#4 b ∨ i = .cpySpecial 3#4 b ∨ i = .popSpecial 3#4 b ∨ i = .ldrSpecial 3#4 b ∨
        i = .ldrSpecialAt 3#4 b) ∧
    (t.ira ≠ s.ira →
      (∃ a v, i = .swiReg a v) ∨ (∃ v, i = .swiImm v) ∨
      ∃ b, i = .cpyToSpecial 2#4 b ∨ i = .cpySpecial 2#4 b ∨ i = .popSpecial 2#4 b ∨ i = .ldrSpecial 2#4 b ∨
        i = .ldrSpecialAt 2#4 b) ∧
    (t.ity ≠ s.ity →
      (∃ a v, i = .swiReg a v) ∨ (∃ v, i = .swiImm v) ∨
      ∃ b, i = .cpyToSpecial 4#4 b ∨ i = .cpySpecial 4#4 b ∨ i = .popSpecial 4#4 b ∨ i = .ldrSpecial 4#4 b ∨
        i = .ldrSpecialAt 4#4 b) ∧
    (t.sty ≠ s.sty →
      (∃ a v, i = .swiReg a v) ∨ (∃ v, i = .swiImm v) ∨
      ∃ b, i = .cpyToSpecial 5#4 b ∨ i = .cpySpecial 5#4 b ∨ i = .popSpecial 5#4 b ∨ i = .ldrSpecial 5#4 b ∨
        i = .ldrSpecialAt 5#4 b)

/-- R120 with R104 to R106: the prefix the assembler inserts, executed where no prefix is in effect, makes the field express
the value asked for, for every value and both extensions (log entry 25). -/
def Obligations.AssembledImmediateIsTheValue : Prop :=
  ∀ (s : State) (signed : Bool) (v : Word), noPrefix s →
    match prefixFor5 signed v with
    | ([], i) => s.imm5 signed i = v
    | ([p], i) => ∃ t, exec p s = .next t ∧ t.imm5 signed i = v ∧ keepsRegs [] s t ∧ t.flags = s.flags
    | _ => False

/-- R210's assembler clause with R120 (log entry 25): each of the sixteen branches, assembled at `place` for an even target
and executed from there with no prefix in effect and its flags met, with the prefix it needs, goes to the target, for every
pair of even addresses. -/
def Obligations.AssembledBranchReachesItsTarget : Prop :=
  ∀ (s : State) (goal : Word) (br : BitVec 9 → Instr), noPrefix s → s.pcEven → goal.getLsbD 0 = false →
    takesBranch s br →
    match assembleBranch br s.pc goal with
    | [b] => ∃ t, exec b s = .next t ∧ t.pc = goal ∧ noPrefix t
    | [p, b] => ∃ t u, exec p s = .next t ∧ exec b t = .next u ∧ u.pc = goal ∧ noPrefix u
    | _ => False

/-- R360, R361, R48: after reset `ie` is 0, whatever the unspecified values are; with the spec's decision D27, no prefix is in
effect, the instruction cache holds no line and no line counts as written (log entry 5), and each other piece of state, the
data a prefix will carry, the interrupt samples and the parameters among them, is what the harness supplies (log entries 1
to 4, 6, 7 and 11). -/
def Obligations.ResetState : Prop :=
  ∀ d : ResetDraw,
    (State.resetFrom d).ie = false ∧ noPrefix (State.resetFrom d) ∧ (State.resetFrom d).icache = [] ∧
    (State.resetFrom d).staleLines = [] ∧ (State.resetFrom d).pc = d.pc ∧ (State.resetFrom d).regs = d.regs ∧
    (State.resetFrom d).flags = d.flags ∧ (State.resetFrom d).ids = d.ids ∧ (State.resetFrom d).ira = d.ira ∧
    (State.resetFrom d).ity = d.ity ∧ (State.resetFrom d).sty = d.sty ∧ (State.resetFrom d).preData = d.preData ∧
    (State.resetFrom d).lpreData = d.lpreData ∧ (State.resetFrom d).indexReg = d.indexReg ∧
    (State.resetFrom d).mem = d.mem ∧ (State.resetFrom d).irqLine = d.irqLine ∧ (State.resetFrom d).params = d.params

/-- R28, R42, R81 and the model's canonical forms: every step keeps the invariant: `pc` even, `pre` and `lpre` not both in
effect, memory, the written lines and the cached lines in their canonical form, and every line held and not written since
equal to memory; and no step changes the parameters. -/
def Obligations.StepKeepsTheInvariant : Prop :=
  ∀ s t : State, s.Inv → step s = .next t → t.Inv ∧ t.params = s.params

/-- The invariant holds of the state after reset for every draw with an even `pc` and a canonical memory, and of the
model's own reset state. -/
def Obligations.ResetHasTheInvariant : Prop :=
  (∀ d : ResetDraw, d.pc.getLsbD 0 = false → d.mem.wf = true → (State.resetFrom d).Inv) ∧ State.reset.Inv
end

