-- ==== Sys2Proof/Laws/Encoding.lean ====
section
/-! SUPPORT. What each encoding format's fields read back as: one lemma per format and field, which a
proof about decoding cites instead of computing with bits. -/

namespace Sys2Proof

/-- A unit is its two bytes (R63). -/
theorem unitOfBytes_bytes (u : Half) : unitOfBytes (u.extractLsb' 8 8) (u.extractLsb' 0 8) = u := by
  apply BitVec.eq_of_getLsbD_eq
  intro k hk
  simp only [unitOfBytes, BitVec.getLsbD_append, BitVec.getLsbD_extractLsb']
  split <;> rename_i h
  · simp [h]
  · simp only [show 8 + (k - 8) = k by omega, show k - 8 < 8 by omega, decide_true, Bool.true_and]

/-- A unit of any group but 0 is 16 bits long (R112). -/
theorem isLong_of_group {u : Half} {g : BitVec 3} (h : u.extractLsb' 13 3 = g) (hg : g ≠ 0#3) : isLong u = false := by
  unfold isLong
  rw [beq_eq_false_iff_ne]
  intro e
  apply hg
  rw [← h]
  apply BitVec.eq_of_getLsbD_eq
  intro k hk
  have := congrArg (fun v : BitVec 5 => v.getLsbD (k + 2)) e
  simp only [BitVec.getLsbD_extractLsb', show 11 + (k + 2) = 13 + k by omega] at this
  rw [BitVec.getLsbD_extractLsb']
  interval_cases k <;> simpa using this

/-! `encodeG1` -/

/-- The bits of the format, the field at the low end first. -/
theorem encodeG1_bit (op : BitVec 4) (i : BitVec 5) (a : Reg) (k : Nat) :
    (encodeG1 op i a).getLsbD k =
    if k < 4 then a.getLsbD k else
    if k - 4 < 4 then op.getLsbD (k - 4) else
    if k - 4 - 4 < 5 then i.getLsbD (k - 4 - 4) else (0b001#3).getLsbD (k - 4 - 4 - 5) := by
  change @BitVec.getLsbD (3 + 5 + 4 + 4) (0b001#3 ++ i ++ op ++ a) k = _
  simp only [BitVec.getLsbD_append]

theorem encodeG1_group (op : BitVec 4) (i : BitVec 5) (a : Reg) :
    (encodeG1 op i a).extractLsb' 13 3 = 1#3 := by
  apply BitVec.eq_of_getLsbD_eq
  intro k hk
  simp only [BitVec.getLsbD_extractLsb', encodeG1_bit]
  interval_cases k <;> simp

theorem encodeG1_op (op : BitVec 4) (i : BitVec 5) (a : Reg) :
    (encodeG1 op i a).extractLsb' 4 4 = op := by
  apply BitVec.eq_of_getLsbD_eq
  intro k hk
  simp only [BitVec.getLsbD_extractLsb', encodeG1_bit]
  interval_cases k <;> simp

theorem encodeG1_i5 (op : BitVec 4) (i : BitVec 5) (a : Reg) :
    fieldI5 (encodeG1 op i a) = i := by
  apply BitVec.eq_of_getLsbD_eq
  intro k hk
  simp only [fieldI5, BitVec.getLsbD_extractLsb', encodeG1_bit]
  interval_cases k <;> simp

theorem encodeG1_a (op : BitVec 4) (i : BitVec 5) (a : Reg) :
    fieldA (encodeG1 op i a) = a := by
  apply BitVec.eq_of_getLsbD_eq
  intro k hk
  simp only [fieldA, BitVec.getLsbD_extractLsb', encodeG1_bit]
  interval_cases k <;> simp

/-! `encodeG2` -/

/-- The bits of the format, the field at the low end first. -/
theorem encodeG2_bit (f : Bool) (op b a : BitVec 4) (k : Nat) :
    (encodeG2 f op b a).getLsbD k =
    if k < 4 then a.getLsbD k else
    if k - 4 < 4 then b.getLsbD (k - 4) else
    if k - 4 - 4 < 4 then op.getLsbD (k - 4 - 4) else
    if k - 4 - 4 - 4 < 1 then (BitVec.ofBool f).getLsbD (k - 4 - 4 - 4) else (0b010#3).getLsbD (k - 4 - 4 - 4 - 1) := by
  change @BitVec.getLsbD (3 + 1 + 4 + 4 + 4) (0b010#3 ++ BitVec.ofBool f ++ op ++ b ++ a) k = _
  simp only [BitVec.getLsbD_append]

theorem encodeG2_group (f : Bool) (op b a : BitVec 4) :
    (encodeG2 f op b a).extractLsb' 13 3 = 2#3 := by
  apply BitVec.eq_of_getLsbD_eq
  intro k hk
  simp only [BitVec.getLsbD_extractLsb', encodeG2_bit]
  interval_cases k <;> simp

theorem encodeG2_op (f : Bool) (op b a : BitVec 4) :
    (encodeG2 f op b a).extractLsb' 8 4 = op := by
  apply BitVec.eq_of_getLsbD_eq
  intro k hk
  simp only [BitVec.getLsbD_extractLsb', encodeG2_bit]
  interval_cases k <;> simp

theorem encodeG2_f (f : Bool) (op b a : BitVec 4) :
    (encodeG2 f op b a).getLsbD 12 = f := by
  rw [encodeG2_bit]
  simp

theorem encodeG2_a (f : Bool) (op b a : BitVec 4) :
    fieldA (encodeG2 f op b a) = a := by
  apply BitVec.eq_of_getLsbD_eq
  intro k hk
  simp only [fieldA, BitVec.getLsbD_extractLsb', encodeG2_bit]
  interval_cases k <;> simp

theorem encodeG2_b (f : Bool) (op b a : BitVec 4) :
    fieldB (encodeG2 f op b a) = b := by
  apply BitVec.eq_of_getLsbD_eq
  intro k hk
  simp only [fieldB, BitVec.getLsbD_extractLsb', encodeG2_bit]
  interval_cases k <;> simp

/-! `encodeG3` -/

/-- The bits of the format, the field at the low end first. -/
theorem encodeG3_bit (i : BitVec 9) (op : BitVec 4) (k : Nat) :
    (encodeG3 i op).getLsbD k =
    if k < 4 then op.getLsbD k else
    if k - 4 < 9 then i.getLsbD (k - 4) else (0b011#3).getLsbD (k - 4 - 9) := by
  change @BitVec.getLsbD (3 + 9 + 4) (0b011#3 ++ i ++ op) k = _
  simp only [BitVec.getLsbD_append]

theorem encodeG3_group (i : BitVec 9) (op : BitVec 4) :
    (encodeG3 i op).extractLsb' 13 3 = 3#3 := by
  apply BitVec.eq_of_getLsbD_eq
  intro k hk
  simp only [BitVec.getLsbD_extractLsb', encodeG3_bit]
  interval_cases k <;> simp

theorem encodeG3_op (i : BitVec 9) (op : BitVec 4) :
    (encodeG3 i op).extractLsb' 0 4 = op := by
  apply BitVec.eq_of_getLsbD_eq
  intro k hk
  simp only [BitVec.getLsbD_extractLsb', encodeG3_bit]
  interval_cases k <;> simp

theorem encodeG3_i9 (i : BitVec 9) (op : BitVec 4) :
    (encodeG3 i op).extractLsb' 4 9 = i := by
  apply BitVec.eq_of_getLsbD_eq
  intro k hk
  simp only [BitVec.getLsbD_extractLsb', encodeG3_bit]
  interval_cases k <;> simp

/-! `encodeG4` -/

/-- The bits of the format, the field at the low end first. -/
theorem encodeG4_bit (op : BitVec 5) (b a : BitVec 4) (k : Nat) :
    (encodeG4 op b a).getLsbD k =
    if k < 4 then a.getLsbD k else
    if k - 4 < 4 then b.getLsbD (k - 4) else
    if k - 4 - 4 < 5 then op.getLsbD (k - 4 - 4) else (0b100#3).getLsbD (k - 4 - 4 - 5) := by
  change @BitVec.getLsbD (3 + 5 + 4 + 4) (0b100#3 ++ op ++ b ++ a) k = _
  simp only [BitVec.getLsbD_append]

theorem encodeG4_group (op : BitVec 5) (b a : BitVec 4) :
    (encodeG4 op b a).extractLsb' 13 3 = 4#3 := by
  apply BitVec.eq_of_getLsbD_eq
  intro k hk
  simp only [BitVec.getLsbD_extractLsb', encodeG4_bit]
  interval_cases k <;> simp

theorem encodeG4_op (op : BitVec 5) (b a : BitVec 4) :
    (encodeG4 op b a).extractLsb' 8 5 = op := by
  apply BitVec.eq_of_getLsbD_eq
  intro k hk
  simp only [BitVec.getLsbD_extractLsb', encodeG4_bit]
  interval_cases k <;> simp

theorem encodeG4_a (op : BitVec 5) (b a : BitVec 4) :
    fieldA (encodeG4 op b a) = a := by
  apply BitVec.eq_of_getLsbD_eq
  intro k hk
  simp only [fieldA, BitVec.getLsbD_extractLsb', encodeG4_bit]
  interval_cases k <;> simp

theorem encodeG4_b (op : BitVec 5) (b a : BitVec 4) :
    fieldB (encodeG4 op b a) = b := by
  apply BitVec.eq_of_getLsbD_eq
  intro k hk
  simp only [fieldB, BitVec.getLsbD_extractLsb', encodeG4_bit]
  interval_cases k <;> simp

/-! `encodeG56` -/

/-- The bits of the format, the field at the low end first. -/
theorem encodeG56_bit (g : BitVec 3) (i : BitVec 5) (b a : Reg) (k : Nat) :
    (encodeG56 g i b a).getLsbD k =
    if k < 4 then a.getLsbD k else
    if k - 4 < 4 then b.getLsbD (k - 4) else
    if k - 4 - 4 < 5 then i.getLsbD (k - 4 - 4) else g.getLsbD (k - 4 - 4 - 5) := by
  change @BitVec.getLsbD (3 + 5 + 4 + 4) (g ++ i ++ b ++ a) k = _
  simp only [BitVec.getLsbD_append]

theorem encodeG56_group (g : BitVec 3) (i : BitVec 5) (b a : Reg) :
    (encodeG56 g i b a).extractLsb' 13 3 = g := by
  apply BitVec.eq_of_getLsbD_eq
  intro k hk
  simp only [BitVec.getLsbD_extractLsb', encodeG56_bit]
  interval_cases k <;> simp

theorem encodeG56_i5 (g : BitVec 3) (i : BitVec 5) (b a : Reg) :
    fieldI5 (encodeG56 g i b a) = i := by
  apply BitVec.eq_of_getLsbD_eq
  intro k hk
  simp only [fieldI5, BitVec.getLsbD_extractLsb', encodeG56_bit]
  interval_cases k <;> simp

theorem encodeG56_a (g : BitVec 3) (i : BitVec 5) (b a : Reg) :
    fieldA (encodeG56 g i b a) = a := by
  apply BitVec.eq_of_getLsbD_eq
  intro k hk
  simp only [fieldA, BitVec.getLsbD_extractLsb', encodeG56_bit]
  interval_cases k <;> simp

theorem encodeG56_b (g : BitVec 3) (i : BitVec 5) (b a : Reg) :
    fieldB (encodeG56 g i b a) = b := by
  apply BitVec.eq_of_getLsbD_eq
  intro k hk
  simp only [fieldB, BitVec.getLsbD_extractLsb', encodeG56_bit]
  interval_cases k <;> simp

/-! `encodeNarrow` -/

/-- The bits of the format, the field at the low end first. -/
theorem encodeNarrow_bit (w : Bool) (op : BitVec 2) (b a : Reg) (k : Nat) :
    (encodeNarrow w op b a).getLsbD k =
    if k < 4 then a.getLsbD k else
    if k - 4 < 4 then b.getLsbD (k - 4) else
    if k - 4 - 4 < 2 then op.getLsbD (k - 4 - 4) else
    if k - 4 - 4 - 2 < 1 then (BitVec.ofBool w).getLsbD (k - 4 - 4 - 2) else (0b11100#5).getLsbD (k - 4 - 4 - 2 - 1) := by
  change @BitVec.getLsbD (5 + 1 + 2 + 4 + 4) (0b11100#5 ++ BitVec.ofBool w ++ op ++ b ++ a) k = _
  simp only [BitVec.getLsbD_append]

theorem encodeNarrow_group (w : Bool) (op : BitVec 2) (b a : Reg) :
    (encodeNarrow w op b a).extractLsb' 13 3 = 7#3 := by
  apply BitVec.eq_of_getLsbD_eq
  intro k hk
  simp only [BitVec.getLsbD_extractLsb', encodeNarrow_bit]
  interval_cases k <;> simp

theorem encodeNarrow_sub (w : Bool) (op : BitVec 2) (b a : Reg) :
    (encodeNarrow w op b a).extractLsb' 11 2 = 0#2 := by
  apply BitVec.eq_of_getLsbD_eq
  intro k hk
  simp only [BitVec.getLsbD_extractLsb', encodeNarrow_bit]
  interval_cases k <;> simp

theorem encodeNarrow_w (w : Bool) (op : BitVec 2) (b a : Reg) :
    (encodeNarrow w op b a).getLsbD 10 = w := by
  rw [encodeNarrow_bit]
  simp

theorem encodeNarrow_op (w : Bool) (op : BitVec 2) (b a : Reg) :
    (encodeNarrow w op b a).extractLsb' 8 2 = op := by
  apply BitVec.eq_of_getLsbD_eq
  intro k hk
  simp only [BitVec.getLsbD_extractLsb', encodeNarrow_bit]
  interval_cases k <;> simp

theorem encodeNarrow_a (w : Bool) (op : BitVec 2) (b a : Reg) :
    fieldA (encodeNarrow w op b a) = a := by
  apply BitVec.eq_of_getLsbD_eq
  intro k hk
  simp only [fieldA, BitVec.getLsbD_extractLsb', encodeNarrow_bit]
  interval_cases k <;> simp

theorem encodeNarrow_b (w : Bool) (op : BitVec 2) (b a : Reg) :
    fieldB (encodeNarrow w op b a) = b := by
  apply BitVec.eq_of_getLsbD_eq
  intro k hk
  simp only [fieldB, BitVec.getLsbD_extractLsb', encodeNarrow_bit]
  interval_cases k <;> simp

/-! `encodeSpecialAccess` -/

/-- The bits of the format, the field at the low end first. -/
theorem encodeSpecialAccess_bit (op : BitVec 2) (b a : BitVec 4) (k : Nat) :
    (encodeSpecialAccess op b a).getLsbD k =
    if k < 4 then a.getLsbD k else
    if k - 4 < 4 then b.getLsbD (k - 4) else
    if k - 4 - 4 < 2 then op.getLsbD (k - 4 - 4) else (0b111010#6).getLsbD (k - 4 - 4 - 2) := by
  change @BitVec.getLsbD (6 + 2 + 4 + 4) (0b111010#6 ++ op ++ b ++ a) k = _
  simp only [BitVec.getLsbD_append]

theorem encodeSpecialAccess_group (op : BitVec 2) (b a : BitVec 4) :
    (encodeSpecialAccess op b a).extractLsb' 13 3 = 7#3 := by
  apply BitVec.eq_of_getLsbD_eq
  intro k hk
  simp only [BitVec.getLsbD_extractLsb', encodeSpecialAccess_bit]
  interval_cases k <;> simp

theorem encodeSpecialAccess_high (op : BitVec 2) (b a : BitVec 4) :
    (encodeSpecialAccess op b a).extractLsb' 11 2 = 1#2 := by
  apply BitVec.eq_of_getLsbD_eq
  intro k hk
  simp only [BitVec.getLsbD_extractLsb', encodeSpecialAccess_bit]
  interval_cases k <;> simp

theorem encodeSpecialAccess_sub (op : BitVec 2) (b a : BitVec 4) :
    (encodeSpecialAccess op b a).extractLsb' 10 3 = 2#3 := by
  apply BitVec.eq_of_getLsbD_eq
  intro k hk
  simp only [BitVec.getLsbD_extractLsb', encodeSpecialAccess_bit]
  interval_cases k <;> simp

theorem encodeSpecialAccess_op (op : BitVec 2) (b a : BitVec 4) :
    (encodeSpecialAccess op b a).extractLsb' 8 2 = op := by
  apply BitVec.eq_of_getLsbD_eq
  intro k hk
  simp only [BitVec.getLsbD_extractLsb', encodeSpecialAccess_bit]
  interval_cases k <;> simp

theorem encodeSpecialAccess_a (op : BitVec 2) (b a : BitVec 4) :
    fieldA (encodeSpecialAccess op b a) = a := by
  apply BitVec.eq_of_getLsbD_eq
  intro k hk
  simp only [fieldA, BitVec.getLsbD_extractLsb', encodeSpecialAccess_bit]
  interval_cases k <;> simp

theorem encodeSpecialAccess_b (op : BitVec 2) (b a : BitVec 4) :
    fieldB (encodeSpecialAccess op b a) = b := by
  apply BitVec.eq_of_getLsbD_eq
  intro k hk
  simp only [fieldB, BitVec.getLsbD_extractLsb', encodeSpecialAccess_bit]
  interval_cases k <;> simp

/-! `encodeIcreload` -/

/-- The bits of the format, the field at the low end first. -/
theorem encodeIcreload_bit (i : BitVec 5) (a : Reg) (k : Nat) :
    (encodeIcreload i a).getLsbD k =
    if k < 4 then a.getLsbD k else
    if k - 4 < 5 then i.getLsbD (k - 4) else (0b1110110#7).getLsbD (k - 4 - 5) := by
  change @BitVec.getLsbD (7 + 5 + 4) (0b1110110#7 ++ i ++ a) k = _
  simp only [BitVec.getLsbD_append]

theorem encodeIcreload_group (i : BitVec 5) (a : Reg) :
    (encodeIcreload i a).extractLsb' 13 3 = 7#3 := by
  apply BitVec.eq_of_getLsbD_eq
  intro k hk
  simp only [BitVec.getLsbD_extractLsb', encodeIcreload_bit]
  interval_cases k <;> simp

theorem encodeIcreload_high (i : BitVec 5) (a : Reg) :
    (encodeIcreload i a).extractLsb' 11 2 = 1#2 := by
  apply BitVec.eq_of_getLsbD_eq
  intro k hk
  simp only [BitVec.getLsbD_extractLsb', encodeIcreload_bit]
  interval_cases k <;> simp

theorem encodeIcreload_mid (i : BitVec 5) (a : Reg) :
    (encodeIcreload i a).extractLsb' 10 3 = 3#3 := by
  apply BitVec.eq_of_getLsbD_eq
  intro k hk
  simp only [BitVec.getLsbD_extractLsb', encodeIcreload_bit]
  interval_cases k <;> simp

theorem encodeIcreload_sub (i : BitVec 5) (a : Reg) :
    (encodeIcreload i a).extractLsb' 9 4 = 6#4 := by
  apply BitVec.eq_of_getLsbD_eq
  intro k hk
  simp only [BitVec.getLsbD_extractLsb', encodeIcreload_bit]
  interval_cases k <;> simp

theorem encodeIcreload_i5 (i : BitVec 5) (a : Reg) :
    (encodeIcreload i a).extractLsb' 4 5 = i := by
  apply BitVec.eq_of_getLsbD_eq
  intro k hk
  simp only [BitVec.getLsbD_extractLsb', encodeIcreload_bit]
  interval_cases k <;> simp

theorem encodeIcreload_a (i : BitVec 5) (a : Reg) :
    fieldA (encodeIcreload i a) = a := by
  apply BitVec.eq_of_getLsbD_eq
  intro k hk
  simp only [fieldA, BitVec.getLsbD_extractLsb', encodeIcreload_bit]
  interval_cases k <;> simp

/-! The prefixes. -/

/-- The bits of the format, the field at the low end first. -/
theorem encodePre_bit (imm : BitVec 12) (k : Nat) :
    ((0b0000#4 ++ imm : Half)).getLsbD k =
    if k < 12 then imm.getLsbD k else (0b0000#4).getLsbD (k - 12) := by
  simp only [BitVec.getLsbD_append]

theorem encodePre_group (imm : BitVec 12) :
    (0b0000#4 ++ imm : Half).extractLsb' 13 3 = 0#3 := by
  apply BitVec.eq_of_getLsbD_eq
  intro k hk
  simp only [BitVec.getLsbD_extractLsb', encodePre_bit]
  interval_cases k <;> simp

theorem encodePre_12 (imm : BitVec 12) : (0b0000#4 ++ imm : Half).getLsbD 12 = false := by
  rw [encodePre_bit]
  simp

theorem encodePre_imm (imm : BitVec 12) :
    (0b0000#4 ++ imm : Half).extractLsb' 0 12 = imm := by
  apply BitVec.eq_of_getLsbD_eq
  intro k hk
  simp only [BitVec.getLsbD_extractLsb', encodePre_bit]
  interval_cases k <;> simp

theorem encodePre_short (imm : BitVec 12) : isLong (0b0000#4 ++ imm : Half) = false := by
  unfold isLong
  rw [beq_eq_false_iff_ne]
  intro e
  have := congrArg (fun v : BitVec 5 => v.getLsbD 1) e
  simp only [BitVec.getLsbD_extractLsb', encodePre_bit] at this
  simp at this

/-- The bits of the format, the field at the low end first. -/
theorem encodeLpreHead_bit (v : BitVec 11) (k : Nat) :
    ((0b00010#5 ++ v : Half)).getLsbD k =
    if k < 11 then v.getLsbD k else (0b00010#5).getLsbD (k - 11) := by
  simp only [BitVec.getLsbD_append]

theorem encodeLpreHead_group (v : BitVec 11) :
    (0b00010#5 ++ v : Half).extractLsb' 13 3 = 0#3 := by
  apply BitVec.eq_of_getLsbD_eq
  intro k hk
  simp only [BitVec.getLsbD_extractLsb', encodeLpreHead_bit]
  interval_cases k <;> simp

theorem encodeLpreHead_12 (v : BitVec 11) : (0b00010#5 ++ v : Half).getLsbD 12 = true := by
  rw [encodeLpreHead_bit]
  simp

theorem encodeLpreHead_11 (v : BitVec 11) : (0b00010#5 ++ v : Half).getLsbD 11 = false := by
  rw [encodeLpreHead_bit]
  simp

theorem encodeLpreHead_imm (v : BitVec 11) :
    (0b00010#5 ++ v : Half).extractLsb' 0 11 = v := by
  apply BitVec.eq_of_getLsbD_eq
  intro k hk
  simp only [BitVec.getLsbD_extractLsb', encodeLpreHead_bit]
  interval_cases k <;> simp

theorem encodeLpreHead_long (v : BitVec 11) : isLong (0b00010#5 ++ v : Half) = true := by
  unfold isLong
  rw [beq_iff_eq]
  apply BitVec.eq_of_getLsbD_eq
  intro k hk
  simp only [BitVec.getLsbD_extractLsb', encodeLpreHead_bit]
  interval_cases k <;> simp

/-- The two units of `lpre` give its constant back (R95). -/
theorem lpre_imm (imm : BitVec 27) : (imm.extractLsb' 16 11 ++ imm.extractLsb' 0 16 : BitVec 27) = imm := by
  apply BitVec.eq_of_getLsbD_eq
  intro k hk
  rw [BitVec.getLsbD_append]
  simp only [BitVec.getLsbD_extractLsb']
  interval_cases k <;> simp

/-! Every format but `lpre`'s is 16 bits long (R90). -/

@[simp] theorem encodeG1_short (op : BitVec 4) (i : BitVec 5) (a : Reg) : isLong (encodeG1 op i a) = false :=
  isLong_of_group (encodeG1_group op i a) (by decide)

@[simp] theorem encodeG2_short (f : Bool) (op b a : BitVec 4) : isLong (encodeG2 f op b a) = false :=
  isLong_of_group (encodeG2_group f op b a) (by decide)

@[simp] theorem encodeG3_short (i : BitVec 9) (op : BitVec 4) : isLong (encodeG3 i op) = false :=
  isLong_of_group (encodeG3_group i op) (by decide)

@[simp] theorem encodeG4_short (op : BitVec 5) (b a : BitVec 4) : isLong (encodeG4 op b a) = false :=
  isLong_of_group (encodeG4_group op b a) (by decide)

@[simp] theorem encodeG5_short (i : BitVec 5) (b a : Reg) : isLong (encodeG56 5#3 i b a) = false :=
  isLong_of_group (encodeG56_group 5#3 i b a) (by decide)

@[simp] theorem encodeG6_short (i : BitVec 5) (b a : Reg) : isLong (encodeG56 6#3 i b a) = false :=
  isLong_of_group (encodeG56_group 6#3 i b a) (by decide)

@[simp] theorem encodeNarrow_short (w : Bool) (op : BitVec 2) (b a : Reg) : isLong (encodeNarrow w op b a) = false :=
  isLong_of_group (encodeNarrow_group w op b a) (by decide)

@[simp] theorem encodeSpecialAccess_short (op : BitVec 2) (b a : BitVec 4) :
    isLong (encodeSpecialAccess op b a) = false :=
  isLong_of_group (encodeSpecialAccess_group op b a) (by decide)

@[simp] theorem encodeIcreload_short (i : BitVec 5) (a : Reg) : isLong (encodeIcreload i a) = false :=
  isLong_of_group (encodeIcreload_group i a) (by decide)

/-! Decoding one unit of each format, and a byte string that starts with an instruction's units. -/

/-- A short unit decodes alone, and the bytes after it are left (R112). -/
theorem decode_short (u : Half) (rest : List Byte) (h : isLong u = false) :
    decode (bytesOfUnit u ++ rest) = (decodeUnits u 0#16).map fun i => (i, rest) := by
  simp [decode, bytesOfUnit, unitOfBytes_bytes, h]

/-- A long unit decodes with the unit after it (R112). -/
theorem decode_long (u u2 : Half) (rest : List Byte) (h : isLong u = true) :
    decode (bytesOfUnit u ++ (bytesOfUnit u2 ++ rest)) = (decodeUnits u u2).map fun i => (i, rest) := by
  simp [decode, bytesOfUnit, unitOfBytes_bytes, h]

theorem decodeUnits_encodeG1 (op : BitVec 4) (i : BitVec 5) (a : Reg) (u2 : Half) :
    decodeUnits (encodeG1 op i a) u2 = .ok (decodeGroup1 op i a) := by
  unfold decodeUnits
  rw [encodeG1_group]
  simp only [encodeG1_op, encodeG1_i5, encodeG1_a]

theorem decodeUnits_encodeG2 (f : Bool) (op b a : BitVec 4) (u2 : Half) :
    decodeUnits (encodeG2 f op b a) u2 = decodeGroup2 op f a b := by
  unfold decodeUnits
  rw [encodeG2_group]
  simp only [encodeG2_op, encodeG2_f, encodeG2_a, encodeG2_b]

theorem decodeUnits_encodeG3 (op : BitVec 4) (i : BitVec 9) (u2 : Half) :
    decodeUnits (encodeG3 i op) u2 = .ok (decodeGroup3 op i) := by
  unfold decodeUnits
  rw [encodeG3_group]
  simp only [encodeG3_op, encodeG3_i9]

theorem decodeUnits_encodeG4 (op : BitVec 5) (b a : BitVec 4) (u2 : Half) :
    decodeUnits (encodeG4 op b a) u2 = .ok (decodeGroup4 op a b) := by
  unfold decodeUnits
  rw [encodeG4_group]
  simp only [encodeG4_op, encodeG4_a, encodeG4_b]

theorem decodeUnits_encodeG5 (i : BitVec 5) (b a : Reg) (u2 : Half) :
    decodeUnits (encodeG56 5#3 i b a) u2 = .ok (.ldr a b i) := by
  unfold decodeUnits
  rw [encodeG56_group]
  simp only [encodeG56_i5, encodeG56_a, encodeG56_b]

theorem decodeUnits_encodeG6 (i : BitVec 5) (b a : Reg) (u2 : Half) :
    decodeUnits (encodeG56 6#3 i b a) u2 = .ok (.str a b i) := by
  unfold decodeUnits
  rw [encodeG56_group]
  simp only [encodeG56_i5, encodeG56_a, encodeG56_b]

theorem decodeUnits_encodeNarrow (w : Bool) (op : BitVec 2) (b a : Reg) (u2 : Half) :
    decodeUnits (encodeNarrow w op b a) u2 = decodeNarrow w op a b := by
  unfold decodeUnits
  rw [encodeNarrow_group]
  change decodeGroup7 (encodeNarrow w op b a) = _
  simp only [decodeGroup7, encodeNarrow_sub, encodeNarrow_w, encodeNarrow_op, encodeNarrow_a, encodeNarrow_b, if_true]

theorem decodeUnits_encodeSpecialAccess (op : BitVec 2) (b a : BitVec 4) (u2 : Half) :
    decodeUnits (encodeSpecialAccess op b a) u2 = .ok (decodeSpecialAccess op a b) := by
  unfold decodeUnits
  rw [encodeSpecialAccess_group]
  simp [decodeGroup7, encodeSpecialAccess_high, encodeSpecialAccess_sub, encodeSpecialAccess_op,
    encodeSpecialAccess_a, encodeSpecialAccess_b]

theorem decodeUnits_encodeIcreload (i : BitVec 5) (a : Reg) (u2 : Half) :
    decodeUnits (encodeIcreload i a) u2 = .ok (.icreload a i) := by
  unfold decodeUnits
  rw [encodeIcreload_group]
  simp [decodeGroup7, encodeIcreload_high, encodeIcreload_mid, encodeIcreload_sub, encodeIcreload_i5,
    encodeIcreload_a]

theorem decodeUnits_pre (imm : BitVec 12) (u2 : Half) : decodeUnits (0b0000#4 ++ imm) u2 = .ok (.pre imm) := by
  unfold decodeUnits
  rw [encodePre_group]
  simp only [encodePre_12, encodePre_imm, if_true]

theorem decodeUnits_lpre (imm : BitVec 27) :
    decodeUnits (0b00010#5 ++ imm.extractLsb' 16 11) (imm.extractLsb' 0 16) = .ok (.lpre imm) := by
  unfold decodeUnits
  rw [encodeLpreHead_group]
  simp only [encodeLpreHead_12, encodeLpreHead_11, encodeLpreHead_imm, lpre_imm, if_true, Bool.true_eq_false,
    if_false]

end Sys2Proof
end

