-- ==== Sys2Proof/Laws/Memory.lean ====
section
/-! SUPPORT. The laws of memory (read after write, what a write leaves alone), the canonical forms of memory, of the
written lines and of the cached lines, each kept by every operation on it. -/

namespace Sys2Proof.Machine

/-! One byte. -/

theorem Memory.read_erase (m : Memory) (a x : Nat) :
    (m.erase a).read x = if x = a then Memory.unlisted else m.read x := by
  induction m with
  | nil => simp [Memory.erase, Memory.read]
  | cons e t ih =>
    obtain ⟨k, b⟩ := e
    simp only [Memory.erase, Memory.read]
    by_cases hk : k = a
    · subst hk; rw [if_pos rfl, ih]
      by_cases hx : x = k
      · simp [hx]
      · simp [hx, Ne.symm hx]
    · simp only [hk, if_false, Memory.read, ih]
      by_cases hx : k = x
      · subst hx; simp [hk]
      · simp [hx]

theorem Memory.read_insert (m : Memory) (a x : Nat) (b : Byte) (h : m.read a = Memory.unlisted)
    (hk : ∀ c, (a, c) ∉ m) :
    (m.insert a b).read x = if x = a then b else m.read x := by
  induction m with
  | nil => simp [Memory.insert, Memory.read, eq_comm]
  | cons e t ih =>
    obtain ⟨k, c⟩ := e
    have hne : k ≠ a := fun e => hk c (by simp [e])
    simp only [Memory.read, hne, if_false] at h
    have := ih h (fun d hd => hk d (List.mem_cons_of_mem _ hd))
    simp only [Memory.insert]
    split
    · simp [Memory.read, eq_comm]
    · simp only [Memory.read, this]
      by_cases hx : k = x
      · subst hx; simp [hne]
      · simp [hx]

theorem Memory.erase_not_mem (m : Memory) (a : Nat) (c : Byte) : (a, c) ∉ m.erase a := by
  induction m with
  | nil => simp [Memory.erase]
  | cons e t ih =>
    obtain ⟨k, b⟩ := e
    simp only [Memory.erase]
    split
    · exact ih
    · rename_i h; simp [ih, Ne.symm h]

/-- A byte reads what was last written to its address, and a write leaves every other address alone (R49, R76). -/
theorem Memory.read_write (m : Memory) (a x : Nat) (b : Byte) :
    (m.write a b).read x = if x = a then b else m.read x := by
  unfold Memory.write
  split
  · rename_i h; rw [Memory.read_erase, h]
  · rw [Memory.read_insert _ _ _ _ (by simp [Memory.read_erase]) (Memory.erase_not_mem m a), Memory.read_erase]
    by_cases h : x = a <;> simp [h]

/-! The canonical form. -/

theorem Memory.wfAbove_mono {lo hi : Nat} (h : lo ≤ hi) (m : Memory) :
    Memory.wfAbove hi m = true → Memory.wfAbove lo m = true := by
  cases m with
  | nil => simp [Memory.wfAbove]
  | cons e t =>
    obtain ⟨k, b⟩ := e
    simp only [Memory.wfAbove, Bool.and_eq_true, decide_eq_true_eq]
    rintro ⟨⟨⟨h1, h2⟩, h3⟩, h4⟩
    exact ⟨⟨⟨by omega, h2⟩, h3⟩, h4⟩

theorem Memory.wfAbove_erase (m : Memory) (a lo : Nat) (h : Memory.wfAbove lo m = true) :
    Memory.wfAbove lo (m.erase a) = true := by
  induction m generalizing lo with
  | nil => exact h
  | cons e t ih =>
    obtain ⟨k, b⟩ := e
    simp only [Memory.wfAbove, Bool.and_eq_true, decide_eq_true_eq] at h
    obtain ⟨⟨⟨h1, h2⟩, h3⟩, h4⟩ := h
    simp only [Memory.erase]
    split
    · exact Memory.wfAbove_mono (by omega) _ (ih _ h4)
    · simp only [Memory.wfAbove, Bool.and_eq_true, decide_eq_true_eq]
      exact ⟨⟨⟨h1, h2⟩, h3⟩, ih _ h4⟩

theorem Memory.wfAbove_insert (m : Memory) (a lo : Nat) (b : Byte) (h : Memory.wfAbove lo m = true)
    (hlo : lo ≤ a) (ha : a < 2 ^ 32) (hb : b ≠ Memory.unlisted) (hn : ∀ c, (a, c) ∉ m) :
    Memory.wfAbove lo (m.insert a b) = true := by
  induction m generalizing lo with
  | nil => simp [Memory.insert, Memory.wfAbove, hlo, hb]; exact ha
  | cons e t ih =>
    obtain ⟨k, c⟩ := e
    have hne : k ≠ a := fun e => hn c (by simp [e])
    simp only [Memory.wfAbove, Bool.and_eq_true, decide_eq_true_eq] at h
    obtain ⟨⟨⟨h1, h2⟩, h3⟩, h4⟩ := h
    simp only [Memory.insert]
    split
    · simp only [Memory.wfAbove, Bool.and_eq_true, decide_eq_true_eq]
      exact ⟨⟨⟨hlo, ha⟩, hb⟩, ⟨⟨by omega, h2⟩, h3⟩, h4⟩
    · simp only [Memory.wfAbove, Bool.and_eq_true, decide_eq_true_eq]
      exact ⟨⟨⟨h1, h2⟩, h3⟩, ih _ h4 (by omega) (fun d hd => hn d (List.mem_cons_of_mem _ hd))⟩

/-- A write keeps the canonical form. -/
theorem Memory.wf_write (m : Memory) (a : Nat) (b : Byte) (ha : a < 2 ^ 32) (h : m.wf = true) :
    (m.write a b).wf = true := by
  unfold Memory.write Memory.wf
  split
  · exact Memory.wfAbove_erase m a 0 h
  · rename_i hb
    exact Memory.wfAbove_insert _ a 0 b (Memory.wfAbove_erase m a 0 h) (Nat.zero_le _) ha hb
      (Memory.erase_not_mem m a)

/-- `MemWrite` keeps the canonical form (R65). -/
theorem Memory.wf_writeN (m : Memory) (addr v : Word) (n : Nat) (h : m.wf = true) :
    (m.writeN addr v n).wf = true := by
  induction n generalizing v with
  | zero => exact h
  | succ n ih => exact Memory.wf_write _ _ _ (BitVec.isLt _) (ih _)

theorem Memory.wfAbove_keys {lo : Nat} {m : Memory} (h : Memory.wfAbove lo m = true) {a : Nat} (ha : a < lo) :
    m.read a = Memory.unlisted := by
  induction m generalizing lo with
  | nil => rfl
  | cons e t ih =>
    obtain ⟨k, b⟩ := e
    simp only [Memory.wfAbove, Bool.and_eq_true, decide_eq_true_eq] at h
    obtain ⟨⟨⟨h1, h2⟩, h3⟩, h4⟩ := h
    rw [Memory.read, if_neg (by omega)]
    exact ih h4 (by omega)

/-- Canonical memories that read the same at every address are the same list. -/
theorem Memory.ext_of_wfAbove {lo : Nat} {m n : Memory} (hm : Memory.wfAbove lo m = true)
    (hn : Memory.wfAbove lo n = true) (h : ∀ a, m.read a = n.read a) : m = n := by
  induction m generalizing lo n with
  | nil =>
    cases n with
    | nil => rfl
    | cons e t =>
      obtain ⟨k, b⟩ := e
      simp only [Memory.wfAbove, Bool.and_eq_true, decide_eq_true_eq] at hn
      have := h k
      simp only [Memory.read, if_true] at this
      exact absurd this.symm hn.1.2
  | cons e t ih =>
    obtain ⟨k, b⟩ := e
    simp only [Memory.wfAbove, Bool.and_eq_true, decide_eq_true_eq] at hm
    obtain ⟨⟨⟨h1, h2⟩, h3⟩, h4⟩ := hm
    cases n with
    | nil =>
      have := h k
      simp only [Memory.read, if_true] at this
      exact absurd this h3
    | cons e' t' =>
      obtain ⟨k', b'⟩ := e'
      simp only [Memory.wfAbove, Bool.and_eq_true, decide_eq_true_eq] at hn
      obtain ⟨⟨⟨g1, g2⟩, g3⟩, g4⟩ := hn
      have hk : k = k' := by
        rcases Nat.lt_trichotomy k k' with l | l | l
        · have := h k
          rw [Memory.read, if_pos rfl, Memory.read, if_neg (by omega), Memory.wfAbove_keys g4 (by omega)] at this
          exact absurd this h3
        · exact l
        · have := h k'
          rw [Memory.read, if_neg (by omega), Memory.wfAbove_keys h4 (by omega), Memory.read, if_pos rfl] at this
          exact absurd this.symm g3
      subst hk
      have hb : b = b' := by simpa [Memory.read] using h k
      subst hb
      congr 1
      refine ih h4 g4 fun a => ?_
      by_cases ha : k = a
      · subst ha; rw [Memory.wfAbove_keys h4 (by omega), Memory.wfAbove_keys g4 (by omega)]
      · simpa [Memory.read, ha] using h a

/-- Equal memories are equal data: the canonical form is unique. -/
theorem Memory.ext_of_wf {m n : Memory} (hm : m.wf = true) (hn : n.wf = true) (h : ∀ a, m.read a = n.read a) :
    m = n := Memory.ext_of_wfAbove hm hn h

/-! `MemRead` and `MemWrite` (R65). -/

/-- `MemWrite` leaves every address outside its bytes alone (R65). -/
theorem Memory.read_writeN_of_not_within (m : Memory) (addr v x : Word) (n : Nat) (h : ¬ withinBytes addr n x) :
    (m.writeN addr v n).read x.toNat = m.read x.toNat := by
  induction n generalizing v with
  | zero => rfl
  | succ n ih =>
    rw [Memory.writeN, Memory.read_write, if_neg, ih _ fun ⟨k, hk, e⟩ => h ⟨k, by omega, e⟩]
    exact fun e => h ⟨n, by omega, BitVec.eq_of_toNat_eq e⟩

/-- Offsets below 2^32 from one address reach different addresses. -/
theorem offset_inj {addr : Word} {j k : Nat} (hj : j < 2 ^ 32) (hk : k < 2 ^ 32)
    (h : addr + BitVec.ofNat 32 j = addr + BitVec.ofNat 32 k) : j = k := by
  have := congrArg BitVec.toNat ((BitVec.add_right_inj addr).1 h)
  simp only [BitVec.toNat_ofNat] at this
  rwa [Nat.mod_eq_of_lt hj, Nat.mod_eq_of_lt hk] at this

/-- After `MemWrite`, the byte at offset `k` is bits `8 * (n - 1 - k)` and up of the value (R65). -/
theorem Memory.read_writeN (m : Memory) (addr v : Word) (n k : Nat) (hn : n ≤ 2 ^ 32) (hk : k < n) :
    (m.writeN addr v n).read (addr + BitVec.ofNat 32 k).toNat = (v >>> (8 * (n - 1 - k))).setWidth 8 := by
  induction n generalizing v with
  | zero => omega
  | succ n ih =>
    rw [Memory.writeN, Memory.read_write]
    by_cases h : k = n
    · subst h; simp
    · have hne : ¬ (addr + BitVec.ofNat 32 k).toNat = (addr + BitVec.ofNat 32 n).toNat :=
        fun e => h (offset_inj (by omega) (by omega) (BitVec.eq_of_toNat_eq e))
      rw [if_neg hne, ih _ (by omega) (by omega), ← BitVec.shiftRight_add]
      congr 2
      omega

/-- A `MemRead` of the four bytes just written by a `MemWrite` gives the value (R65). -/
theorem Memory.readN_writeN_word (m : Memory) (addr v : Word) : (m.writeN addr v 4).readN addr 4 = v := by
  simp only [Memory.readN]
  rw [Memory.read_writeN _ _ _ 4 0 (by norm_num) (by norm_num), Memory.read_writeN _ _ _ 4 1 (by norm_num) (by norm_num),
    Memory.read_writeN _ _ _ 4 2 (by norm_num) (by norm_num), Memory.read_writeN _ _ _ 4 3 (by norm_num) (by norm_num)]
  apply BitVec.eq_of_getLsbD_eq
  intro i hi
  interval_cases i <;> simp

/-- `MemRead` reads its `n` bytes and no others (R65). -/
theorem Memory.readN_congr {m m' : Memory} {addr : Word} {n : Nat}
    (h : ∀ k, k < n → m.read (addr + BitVec.ofNat 32 k).toNat = m'.read (addr + BitVec.ofNat 32 k).toNat) :
    m.readN addr n = m'.readN addr n := by
  induction n with
  | zero => rfl
  | succ n ih => rw [Memory.readN, Memory.readN, ih fun k hk => h k (by omega), h n (by omega)]

/-! The written lines (R81). -/

theorem mem_insertLine (ls : List Nat) (l x : Nat) : x ∈ insertLine ls l ↔ x = l ∨ x ∈ ls := by
  induction ls with
  | nil => simp [insertLine]
  | cons k t ih =>
    simp only [insertLine]
    split
    · simp
    · split
      · rename_i h; subst h; simp
      · simp only [List.mem_cons, ih]; tauto

/-- Exactly the lines of the `n` bytes at `addr` are added. -/
theorem mem_insertLinesOf (ls : List Nat) (addr : Word) (n x : Nat) :
    x ∈ insertLinesOf ls addr n ↔ (∃ k, k < n ∧ x = lineOf (addr + BitVec.ofNat 32 k)) ∨ x ∈ ls := by
  induction n with
  | zero => simp [insertLinesOf]
  | succ n ih =>
    rw [insertLinesOf, mem_insertLine, ih]
    constructor
    · rintro (h | ⟨k, hk, h⟩ | h)
      · exact .inl ⟨n, by omega, h⟩
      · exact .inl ⟨k, by omega, h⟩
      · exact .inr h
    · rintro (⟨k, hk, h⟩ | h)
      · by_cases e : k = n
        · subst e; exact .inl h
        · exact .inr (.inl ⟨k, by omega, h⟩)
      · exact .inr (.inr h)

theorem mem_eraseLine (ls : List Nat) (l x : Nat) : x ∈ eraseLine ls l ↔ x ∈ ls ∧ x ≠ l := by
  simp [eraseLine]

/-- A line address is a multiple of 64 in the address space (R81). -/
theorem lineOf_mod (a : Word) : lineOf a % 64 = 0 := by
  unfold lineOf
  have : (a &&& 0xFFFFFFC0#32) = (a >>> 6) <<< 6 := by
    apply BitVec.eq_of_getLsbD_eq
    intro i hi
    interval_cases i <;> simp
  rw [this, BitVec.toNat_shiftLeft, Nat.shiftLeft_eq]
  omega

theorem lineOf_lt (a : Word) : lineOf a < 2 ^ 32 := BitVec.isLt _

/-- An address stands in its line at its low six bits. -/
theorem lineOf_add_mod (a : Word) : lineOf a + a.toNat % 64 = a.toNat := by
  unfold lineOf
  have : (a &&& 0xFFFFFFC0#32) = (a >>> 6) <<< 6 := by
    apply BitVec.eq_of_getLsbD_eq
    intro i hi
    interval_cases i <;> simp
  have h := a.isLt
  rw [this, BitVec.toNat_shiftLeft, Nat.shiftLeft_eq, BitVec.toNat_ushiftRight, Nat.shiftRight_eq_div_pow]
  omega

/-- The line of every byte of a line is that line. -/
theorem lineOf_eq_of_within {a : Word} {l : Nat} (hl : l % 64 = 0) (h1 : l ≤ a.toNat) (h2 : a.toNat < l + 64) :
    lineOf a = l := by
  have := lineOf_add_mod a
  have := lineOf_mod a
  omega

theorem linesAbove_mono {lo hi : Nat} (h : lo ≤ hi) (ls : List Nat) :
    linesAbove hi ls = true → linesAbove lo ls = true := by
  cases ls with
  | nil => simp [linesAbove]
  | cons k t =>
    simp only [linesAbove, Bool.and_eq_true, decide_eq_true_eq]
    rintro ⟨⟨⟨h1, h2⟩, h3⟩, h4⟩
    exact ⟨⟨⟨by omega, h2⟩, h3⟩, h4⟩

theorem linesAbove_insertLine (ls : List Nat) (l lo : Nat) (h : linesAbove lo ls = true) (hlo : lo ≤ l)
    (hl : l < 2 ^ 32) (hm : l % 64 = 0) : linesAbove lo (insertLine ls l) = true := by
  induction ls generalizing lo with
  | nil => simp [insertLine, linesAbove, hlo, hm]; exact hl
  | cons k t ih =>
    simp only [linesAbove, Bool.and_eq_true, decide_eq_true_eq] at h
    obtain ⟨⟨⟨h1, h2⟩, h3⟩, h4⟩ := h
    simp only [insertLine]
    split
    · simp only [linesAbove, Bool.and_eq_true, decide_eq_true_eq]
      exact ⟨⟨⟨hlo, hl⟩, hm⟩, ⟨⟨by omega, h2⟩, h3⟩, h4⟩
    · split <;> simp only [linesAbove, Bool.and_eq_true, decide_eq_true_eq]
      · exact ⟨⟨⟨h1, h2⟩, h3⟩, h4⟩
      · exact ⟨⟨⟨h1, h2⟩, h3⟩, ih _ h4 (by omega)⟩

/-- A store keeps the written lines canonical. -/
theorem linesAbove_insertLinesOf (ls : List Nat) (addr : Word) (n : Nat) (h : linesAbove 0 ls = true) :
    linesAbove 0 (insertLinesOf ls addr n) = true := by
  induction n with
  | zero => exact h
  | succ n ih => exact linesAbove_insertLine _ _ 0 ih (Nat.zero_le _) (lineOf_lt _) (lineOf_mod _)

/-- A reload keeps the written lines canonical. -/
theorem linesAbove_eraseLine (ls : List Nat) (l lo : Nat) (h : linesAbove lo ls = true) :
    linesAbove lo (eraseLine ls l) = true := by
  induction ls generalizing lo with
  | nil => exact h
  | cons k t ih =>
    simp only [linesAbove, Bool.and_eq_true, decide_eq_true_eq] at h
    obtain ⟨⟨⟨h1, h2⟩, h3⟩, h4⟩ := h
    rw [eraseLine, List.filter_cons]
    split
    · simp only [linesAbove, Bool.and_eq_true, decide_eq_true_eq]
      exact ⟨⟨⟨h1, h2⟩, h3⟩, ih _ h4⟩
    · exact linesAbove_mono (by omega) _ (ih _ h4)

/-! The cached lines (R79). -/

theorem cachedLine_insertCached (cs : List CacheLine) (c : CacheLine) (l : Nat) (h : cachedLine cs c.base = none) :
    cachedLine (insertCached cs c) l = if l = c.base then some c.bytes else cachedLine cs l := by
  induction cs with
  | nil => simp [insertCached, cachedLine, eq_comm]
  | cons d t ih =>
    simp only [cachedLine] at h
    split at h
    · cases h
    · rename_i hd
      simp only [insertCached]
      split
      · simp [cachedLine, eq_comm]
      · simp only [cachedLine, ih h]
        by_cases e : d.base = l
        · subst e; simp [hd]
        · simp [e]

theorem cachedLine_filter (cs : List CacheLine) (b l : Nat) :
    cachedLine (cs.filter (fun d => decide (d.base ≠ b))) l = if l = b then none else cachedLine cs l := by
  induction cs with
  | nil => simp [cachedLine]
  | cons d t ih =>
    rw [List.filter_cons]
    by_cases hb : d.base = b
    · have : (decide (d.base ≠ b)) = false := by simp [hb]
      rw [this, if_neg (by simp), ih, cachedLine]
      by_cases hl : l = b
      · simp [hl]
      · simp [hl, hb, Ne.symm hl]
    · have : (decide (d.base ≠ b)) = true := by simp [hb]
      rw [this, if_pos rfl, cachedLine, ih, cachedLine]
      by_cases e : d.base = l
      · subst e; simp [hb]
      · simp [e]

/-- After a reload the line holds the new snapshot, and every other line what it held (R79). -/
theorem cachedLine_replaceCached (cs : List CacheLine) (c : CacheLine) (l : Nat) :
    cachedLine (replaceCached cs c) l = if l = c.base then some c.bytes else cachedLine cs l := by
  unfold replaceCached
  rw [cachedLine_insertCached _ _ _ (by rw [cachedLine_filter, if_pos rfl]), cachedLine_filter]
  by_cases h : l = c.base <;> simp [h]

theorem cachedAbove_mono {lo hi : Nat} (h : lo ≤ hi) (cs : List CacheLine) :
    cachedAbove hi cs = true → cachedAbove lo cs = true := by
  cases cs with
  | nil => simp [cachedAbove]
  | cons k t =>
    simp only [cachedAbove, Bool.and_eq_true, decide_eq_true_eq]
    rintro ⟨⟨⟨⟨h1, h5⟩, h2⟩, h3⟩, h4⟩
    exact ⟨⟨⟨⟨by omega, h5⟩, h2⟩, h3⟩, h4⟩

theorem cachedAbove_filter (cs : List CacheLine) (b lo : Nat) (h : cachedAbove lo cs = true) :
    cachedAbove lo (cs.filter (fun d => decide (d.base ≠ b))) = true := by
  induction cs generalizing lo with
  | nil => exact h
  | cons k t ih =>
    simp only [cachedAbove, Bool.and_eq_true, decide_eq_true_eq] at h
    obtain ⟨⟨⟨⟨h1, h5⟩, h2⟩, h3⟩, h4⟩ := h
    rw [List.filter_cons]
    split
    · simp only [cachedAbove, Bool.and_eq_true, decide_eq_true_eq]
      exact ⟨⟨⟨⟨h1, h5⟩, h2⟩, h3⟩, ih _ h4⟩
    · exact cachedAbove_mono (by omega) _ (ih _ h4)

theorem cachedAbove_insertCached (cs : List CacheLine) (c : CacheLine) (lo : Nat) (h : cachedAbove lo cs = true)
    (hlo : lo ≤ c.base) (hl : c.base < 2 ^ 32) (hm : c.base % 64 = 0) (hb : c.bytes.length = 64) (hn : ∀ d ∈ cs, d.base ≠ c.base) :
    cachedAbove lo (insertCached cs c) = true := by
  induction cs generalizing lo with
  | nil => simp [insertCached, cachedAbove, hlo, hm, hb]; exact hl
  | cons k t ih =>
    have hne := hn k (by simp)
    simp only [cachedAbove, Bool.and_eq_true, decide_eq_true_eq] at h
    obtain ⟨⟨⟨⟨h1, h5⟩, h2⟩, h3⟩, h4⟩ := h
    simp only [insertCached]
    split
    · simp only [cachedAbove, Bool.and_eq_true, decide_eq_true_eq]
      exact ⟨⟨⟨⟨hlo, hl⟩, hm⟩, hb⟩, ⟨⟨by omega, h2⟩, h3⟩, h4⟩
    · simp only [cachedAbove, Bool.and_eq_true, decide_eq_true_eq]
      exact ⟨⟨⟨⟨h1, h5⟩, h2⟩, h3⟩, ih _ h4 (by omega) fun d hd => hn d (List.mem_cons_of_mem _ hd)⟩

/-- A reload keeps the cached lines canonical. -/
theorem cachedAbove_replaceCached (cs : List CacheLine) (c : CacheLine) (h : cachedAbove 0 cs = true)
    (hl : c.base < 2 ^ 32) (hm : c.base % 64 = 0) (hb : c.bytes.length = 64) : cachedAbove 0 (replaceCached cs c) = true := by
  refine cachedAbove_insertCached _ c 0 (cachedAbove_filter cs c.base 0 h) (Nat.zero_le _) hl hm hb fun d hd => ?_
  simpa using (List.mem_filter.1 hd).2

/-- A line the canonical cache holds is a line of the address space. -/
theorem cachedAbove_cachedLine {cs : List CacheLine} {lo l : Nat} {bytes : List Byte} (h : cachedAbove lo cs = true)
    (hc : cachedLine cs l = some bytes) : l % 64 = 0 ∧ l < 2 ^ 32 ∧ bytes.length = 64 := by
  induction cs generalizing lo with
  | nil => cases hc
  | cons d t ih =>
    simp only [cachedAbove, Bool.and_eq_true, decide_eq_true_eq] at h
    obtain ⟨⟨⟨⟨h1, h5⟩, h2⟩, h3⟩, h4⟩ := h
    rw [cachedLine] at hc
    split at hc
    · rename_i e; subst e; cases hc; exact ⟨h2, h5, h3⟩
    · exact ih h4 hc

@[simp] theorem Memory.lineBytes_length (m : Memory) (l : Nat) : (m.lineBytes l).length = 64 := by
  simp [Memory.lineBytes]

/-- The byte at offset `k` of a line's bytes (R321). -/
theorem Memory.lineBytes_getD (m : Memory) (l k : Nat) (h : k < 64) : (m.lineBytes l).getD k 0#8 = m.read (l + k) := by
  simp [Memory.lineBytes, List.getD_eq_getElem?_getD, h]

/-- A `MemWrite` leaves the bytes of a line none of whose bytes it writes. -/
theorem Memory.lineBytes_writeN (m : Memory) (addr v : Word) (n l : Nat) (hl : l % 64 = 0)
    (h : ∀ k, k < n → l ≠ lineOf (addr + BitVec.ofNat 32 k)) (hlt : l < 2 ^ 32) :
    (m.writeN addr v n).lineBytes l = m.lineBytes l := by
  unfold Memory.lineBytes
  refine List.map_congr_left fun k hk => ?_
  have hk : k < 64 := List.mem_range.1 hk
  have hx : (BitVec.ofNat 32 (l + k)).toNat = l + k := by
    rw [BitVec.toNat_ofNat, Nat.mod_eq_of_lt (by omega)]
  have := Memory.read_writeN_of_not_within m addr v (BitVec.ofNat 32 (l + k)) n ?_
  · rwa [hx] at this
  · rintro ⟨j, hj, e⟩
    refine h j hj ?_
    rw [← e]
    exact (lineOf_eq_of_within hl (by omega) (by omega)).symm

/-- Reset's memory is canonical. -/
theorem State.reset_mem_wf : State.reset.mem.wf = true := rfl

end Sys2Proof.Machine
end

