-- ==== Sys2Proof/Laws/State.lean ====
section
/-! SUPPORT. The small lemmas of the state updates: one per field per update, so that no proof unfolds a record update. -/

namespace Sys2Proof.Machine

/-! `State.setReg` -/

@[simp] theorem State.setReg_pc (s : State) (i : Reg) (v : Word) : (s.setReg i v).pc = s.pc := rfl
@[simp] theorem State.setReg_flags (s : State) (i : Reg) (v : Word) : (s.setReg i v).flags = s.flags := rfl
@[simp] theorem State.setReg_ids (s : State) (i : Reg) (v : Word) : (s.setReg i v).ids = s.ids := rfl
@[simp] theorem State.setReg_ira (s : State) (i : Reg) (v : Word) : (s.setReg i v).ira = s.ira := rfl
@[simp] theorem State.setReg_ie (s : State) (i : Reg) (v : Word) : (s.setReg i v).ie = s.ie := rfl
@[simp] theorem State.setReg_ity (s : State) (i : Reg) (v : Word) : (s.setReg i v).ity = s.ity := rfl
@[simp] theorem State.setReg_sty (s : State) (i : Reg) (v : Word) : (s.setReg i v).sty = s.sty := rfl
@[simp] theorem State.setReg_preHave (s : State) (i : Reg) (v : Word) : (s.setReg i v).preHave = s.preHave := rfl
@[simp] theorem State.setReg_preData (s : State) (i : Reg) (v : Word) : (s.setReg i v).preData = s.preData := rfl
@[simp] theorem State.setReg_lpreHave (s : State) (i : Reg) (v : Word) : (s.setReg i v).lpreHave = s.lpreHave := rfl
@[simp] theorem State.setReg_lpreData (s : State) (i : Reg) (v : Word) : (s.setReg i v).lpreData = s.lpreData := rfl
@[simp] theorem State.setReg_indexHave (s : State) (i : Reg) (v : Word) : (s.setReg i v).indexHave = s.indexHave := rfl
@[simp] theorem State.setReg_indexReg (s : State) (i : Reg) (v : Word) : (s.setReg i v).indexReg = s.indexReg := rfl
@[simp] theorem State.setReg_mem (s : State) (i : Reg) (v : Word) : (s.setReg i v).mem = s.mem := rfl
@[simp] theorem State.setReg_icache (s : State) (i : Reg) (v : Word) : (s.setReg i v).icache = s.icache := rfl
@[simp] theorem State.setReg_staleLines (s : State) (i : Reg) (v : Word) : (s.setReg i v).staleLines = s.staleLines := rfl
@[simp] theorem State.setReg_irqLine (s : State) (i : Reg) (v : Word) : (s.setReg i v).irqLine = s.irqLine := rfl
@[simp] theorem State.setReg_params (s : State) (i : Reg) (v : Word) : (s.setReg i v).params = s.params := rfl
@[simp] theorem State.setReg_special (s : State) (i : Reg) (v : Word) (q : Special) : (s.setReg i v).special q = s.special q := by cases q <;> rfl
@[simp] theorem State.setReg_kindAt (s : State) (i : Reg) (v : Word) (x : Word) : (s.setReg i v).kindAt x = s.kindAt x := rfl
@[simp] theorem State.setReg_imm5 (s : State) (i : Reg) (v : Word) (g : Bool) (k : BitVec 5) : (s.setReg i v).imm5 g k = s.imm5 g k := rfl
@[simp] theorem State.setReg_imm9 (s : State) (i : Reg) (v : Word) (k : BitVec 9) : (s.setReg i v).imm9 k = s.imm9 k := rfl
@[simp] theorem State.setReg_idx (s : State) (i : Reg) (v : Word) : (s.setReg i v).idx = s.idx := rfl

/-! `State.setPair` -/

@[simp] theorem State.setPair_pc (s : State) (a : Reg) (v : BitVec 64) : (s.setPair a v).pc = s.pc := rfl
@[simp] theorem State.setPair_flags (s : State) (a : Reg) (v : BitVec 64) : (s.setPair a v).flags = s.flags := rfl
@[simp] theorem State.setPair_ids (s : State) (a : Reg) (v : BitVec 64) : (s.setPair a v).ids = s.ids := rfl
@[simp] theorem State.setPair_ira (s : State) (a : Reg) (v : BitVec 64) : (s.setPair a v).ira = s.ira := rfl
@[simp] theorem State.setPair_ie (s : State) (a : Reg) (v : BitVec 64) : (s.setPair a v).ie = s.ie := rfl
@[simp] theorem State.setPair_ity (s : State) (a : Reg) (v : BitVec 64) : (s.setPair a v).ity = s.ity := rfl
@[simp] theorem State.setPair_sty (s : State) (a : Reg) (v : BitVec 64) : (s.setPair a v).sty = s.sty := rfl
@[simp] theorem State.setPair_preHave (s : State) (a : Reg) (v : BitVec 64) : (s.setPair a v).preHave = s.preHave := rfl
@[simp] theorem State.setPair_preData (s : State) (a : Reg) (v : BitVec 64) : (s.setPair a v).preData = s.preData := rfl
@[simp] theorem State.setPair_lpreHave (s : State) (a : Reg) (v : BitVec 64) : (s.setPair a v).lpreHave = s.lpreHave := rfl
@[simp] theorem State.setPair_lpreData (s : State) (a : Reg) (v : BitVec 64) : (s.setPair a v).lpreData = s.lpreData := rfl
@[simp] theorem State.setPair_indexHave (s : State) (a : Reg) (v : BitVec 64) : (s.setPair a v).indexHave = s.indexHave := rfl
@[simp] theorem State.setPair_indexReg (s : State) (a : Reg) (v : BitVec 64) : (s.setPair a v).indexReg = s.indexReg := rfl
@[simp] theorem State.setPair_mem (s : State) (a : Reg) (v : BitVec 64) : (s.setPair a v).mem = s.mem := rfl
@[simp] theorem State.setPair_icache (s : State) (a : Reg) (v : BitVec 64) : (s.setPair a v).icache = s.icache := rfl
@[simp] theorem State.setPair_staleLines (s : State) (a : Reg) (v : BitVec 64) : (s.setPair a v).staleLines = s.staleLines := rfl
@[simp] theorem State.setPair_irqLine (s : State) (a : Reg) (v : BitVec 64) : (s.setPair a v).irqLine = s.irqLine := rfl
@[simp] theorem State.setPair_params (s : State) (a : Reg) (v : BitVec 64) : (s.setPair a v).params = s.params := rfl
@[simp] theorem State.setPair_special (s : State) (a : Reg) (v : BitVec 64) (q : Special) : (s.setPair a v).special q = s.special q := by cases q <;> rfl
@[simp] theorem State.setPair_kindAt (s : State) (a : Reg) (v : BitVec 64) (x : Word) : (s.setPair a v).kindAt x = s.kindAt x := rfl
@[simp] theorem State.setPair_imm5 (s : State) (a : Reg) (v : BitVec 64) (g : Bool) (k : BitVec 5) : (s.setPair a v).imm5 g k = s.imm5 g k := rfl
@[simp] theorem State.setPair_imm9 (s : State) (a : Reg) (v : BitVec 64) (k : BitVec 9) : (s.setPair a v).imm9 k = s.imm9 k := rfl
@[simp] theorem State.setPair_idx (s : State) (a : Reg) (v : BitVec 64) : (s.setPair a v).idx = s.idx := rfl

/-! `State.setFlags` -/

@[simp] theorem State.setFlags_regs (s : State) (f : Flags) : (s.setFlags f).regs = s.regs := rfl
@[simp] theorem State.setFlags_pc (s : State) (f : Flags) : (s.setFlags f).pc = s.pc := rfl
@[simp] theorem State.setFlags_flags (s : State) (f : Flags) : (s.setFlags f).flags = f := rfl
@[simp] theorem State.setFlags_ids (s : State) (f : Flags) : (s.setFlags f).ids = s.ids := rfl
@[simp] theorem State.setFlags_ira (s : State) (f : Flags) : (s.setFlags f).ira = s.ira := rfl
@[simp] theorem State.setFlags_ie (s : State) (f : Flags) : (s.setFlags f).ie = s.ie := rfl
@[simp] theorem State.setFlags_ity (s : State) (f : Flags) : (s.setFlags f).ity = s.ity := rfl
@[simp] theorem State.setFlags_sty (s : State) (f : Flags) : (s.setFlags f).sty = s.sty := rfl
@[simp] theorem State.setFlags_preHave (s : State) (f : Flags) : (s.setFlags f).preHave = s.preHave := rfl
@[simp] theorem State.setFlags_preData (s : State) (f : Flags) : (s.setFlags f).preData = s.preData := rfl
@[simp] theorem State.setFlags_lpreHave (s : State) (f : Flags) : (s.setFlags f).lpreHave = s.lpreHave := rfl
@[simp] theorem State.setFlags_lpreData (s : State) (f : Flags) : (s.setFlags f).lpreData = s.lpreData := rfl
@[simp] theorem State.setFlags_indexHave (s : State) (f : Flags) : (s.setFlags f).indexHave = s.indexHave := rfl
@[simp] theorem State.setFlags_indexReg (s : State) (f : Flags) : (s.setFlags f).indexReg = s.indexReg := rfl
@[simp] theorem State.setFlags_mem (s : State) (f : Flags) : (s.setFlags f).mem = s.mem := rfl
@[simp] theorem State.setFlags_icache (s : State) (f : Flags) : (s.setFlags f).icache = s.icache := rfl
@[simp] theorem State.setFlags_staleLines (s : State) (f : Flags) : (s.setFlags f).staleLines = s.staleLines := rfl
@[simp] theorem State.setFlags_irqLine (s : State) (f : Flags) : (s.setFlags f).irqLine = s.irqLine := rfl
@[simp] theorem State.setFlags_params (s : State) (f : Flags) : (s.setFlags f).params = s.params := rfl
@[simp] theorem State.setFlags_reg (s : State) (f : Flags) (j : Reg) : (s.setFlags f).reg j = s.reg j := rfl
@[simp] theorem State.setFlags_kindAt (s : State) (f : Flags) (x : Word) : (s.setFlags f).kindAt x = s.kindAt x := rfl
@[simp] theorem State.setFlags_imm5 (s : State) (f : Flags) (g : Bool) (k : BitVec 5) : (s.setFlags f).imm5 g k = s.imm5 g k := rfl
@[simp] theorem State.setFlags_imm9 (s : State) (f : Flags) (k : BitVec 9) : (s.setFlags f).imm9 k = s.imm9 k := rfl
@[simp] theorem State.setFlags_idx (s : State) (f : Flags) : (s.setFlags f).idx = s.idx := rfl

/-! `State.setPc` -/

@[simp] theorem State.setPc_regs (s : State) (v : Word) : (s.setPc v).regs = s.regs := rfl
@[simp] theorem State.setPc_pc (s : State) (v : Word) : (s.setPc v).pc = v := rfl
@[simp] theorem State.setPc_flags (s : State) (v : Word) : (s.setPc v).flags = s.flags := rfl
@[simp] theorem State.setPc_ids (s : State) (v : Word) : (s.setPc v).ids = s.ids := rfl
@[simp] theorem State.setPc_ira (s : State) (v : Word) : (s.setPc v).ira = s.ira := rfl
@[simp] theorem State.setPc_ie (s : State) (v : Word) : (s.setPc v).ie = s.ie := rfl
@[simp] theorem State.setPc_ity (s : State) (v : Word) : (s.setPc v).ity = s.ity := rfl
@[simp] theorem State.setPc_sty (s : State) (v : Word) : (s.setPc v).sty = s.sty := rfl
@[simp] theorem State.setPc_preHave (s : State) (v : Word) : (s.setPc v).preHave = s.preHave := rfl
@[simp] theorem State.setPc_preData (s : State) (v : Word) : (s.setPc v).preData = s.preData := rfl
@[simp] theorem State.setPc_lpreHave (s : State) (v : Word) : (s.setPc v).lpreHave = s.lpreHave := rfl
@[simp] theorem State.setPc_lpreData (s : State) (v : Word) : (s.setPc v).lpreData = s.lpreData := rfl
@[simp] theorem State.setPc_indexHave (s : State) (v : Word) : (s.setPc v).indexHave = s.indexHave := rfl
@[simp] theorem State.setPc_indexReg (s : State) (v : Word) : (s.setPc v).indexReg = s.indexReg := rfl
@[simp] theorem State.setPc_mem (s : State) (v : Word) : (s.setPc v).mem = s.mem := rfl
@[simp] theorem State.setPc_icache (s : State) (v : Word) : (s.setPc v).icache = s.icache := rfl
@[simp] theorem State.setPc_staleLines (s : State) (v : Word) : (s.setPc v).staleLines = s.staleLines := rfl
@[simp] theorem State.setPc_irqLine (s : State) (v : Word) : (s.setPc v).irqLine = s.irqLine := rfl
@[simp] theorem State.setPc_params (s : State) (v : Word) : (s.setPc v).params = s.params := rfl
@[simp] theorem State.setPc_reg (s : State) (v : Word) (j : Reg) : (s.setPc v).reg j = s.reg j := rfl
@[simp] theorem State.setPc_special (s : State) (v : Word) (q : Special) : (s.setPc v).special q = s.special q := by cases q <;> rfl
@[simp] theorem State.setPc_kindAt (s : State) (v : Word) (x : Word) : (s.setPc v).kindAt x = s.kindAt x := rfl
@[simp] theorem State.setPc_imm5 (s : State) (v : Word) (g : Bool) (k : BitVec 5) : (s.setPc v).imm5 g k = s.imm5 g k := rfl
@[simp] theorem State.setPc_imm9 (s : State) (v : Word) (k : BitVec 9) : (s.setPc v).imm9 k = s.imm9 k := rfl
@[simp] theorem State.setPc_idx (s : State) (v : Word) : (s.setPc v).idx = s.idx := rfl

/-! `State.clearPrefixes` -/

@[simp] theorem State.clearPrefixes_regs (s : State) : (s.clearPrefixes).regs = s.regs := rfl
@[simp] theorem State.clearPrefixes_pc (s : State) : (s.clearPrefixes).pc = s.pc := rfl
@[simp] theorem State.clearPrefixes_flags (s : State) : (s.clearPrefixes).flags = s.flags := rfl
@[simp] theorem State.clearPrefixes_ids (s : State) : (s.clearPrefixes).ids = s.ids := rfl
@[simp] theorem State.clearPrefixes_ira (s : State) : (s.clearPrefixes).ira = s.ira := rfl
@[simp] theorem State.clearPrefixes_ie (s : State) : (s.clearPrefixes).ie = s.ie := rfl
@[simp] theorem State.clearPrefixes_ity (s : State) : (s.clearPrefixes).ity = s.ity := rfl
@[simp] theorem State.clearPrefixes_sty (s : State) : (s.clearPrefixes).sty = s.sty := rfl
@[simp] theorem State.clearPrefixes_preHave (s : State) : (s.clearPrefixes).preHave = false := rfl
@[simp] theorem State.clearPrefixes_preData (s : State) : (s.clearPrefixes).preData = s.preData := rfl
@[simp] theorem State.clearPrefixes_lpreHave (s : State) : (s.clearPrefixes).lpreHave = false := rfl
@[simp] theorem State.clearPrefixes_lpreData (s : State) : (s.clearPrefixes).lpreData = s.lpreData := rfl
@[simp] theorem State.clearPrefixes_indexHave (s : State) : (s.clearPrefixes).indexHave = false := rfl
@[simp] theorem State.clearPrefixes_indexReg (s : State) : (s.clearPrefixes).indexReg = s.indexReg := rfl
@[simp] theorem State.clearPrefixes_mem (s : State) : (s.clearPrefixes).mem = s.mem := rfl
@[simp] theorem State.clearPrefixes_icache (s : State) : (s.clearPrefixes).icache = s.icache := rfl
@[simp] theorem State.clearPrefixes_staleLines (s : State) : (s.clearPrefixes).staleLines = s.staleLines := rfl
@[simp] theorem State.clearPrefixes_irqLine (s : State) : (s.clearPrefixes).irqLine = s.irqLine := rfl
@[simp] theorem State.clearPrefixes_params (s : State) : (s.clearPrefixes).params = s.params := rfl
@[simp] theorem State.clearPrefixes_reg (s : State) (j : Reg) : (s.clearPrefixes).reg j = s.reg j := rfl
@[simp] theorem State.clearPrefixes_special (s : State) (q : Special) : (s.clearPrefixes).special q = s.special q := by cases q <;> rfl
@[simp] theorem State.clearPrefixes_kindAt (s : State) (x : Word) : (s.clearPrefixes).kindAt x = s.kindAt x := rfl

/-! `State.retire` -/

@[simp] theorem State.retire_regs (s : State) : (s.retire).regs = s.regs := rfl
@[simp] theorem State.retire_pc (s : State) : (s.retire).pc = s.pc + 2 := rfl
@[simp] theorem State.retire_flags (s : State) : (s.retire).flags = s.flags := rfl
@[simp] theorem State.retire_ids (s : State) : (s.retire).ids = s.ids := rfl
@[simp] theorem State.retire_ira (s : State) : (s.retire).ira = s.ira := rfl
@[simp] theorem State.retire_ie (s : State) : (s.retire).ie = s.ie := rfl
@[simp] theorem State.retire_ity (s : State) : (s.retire).ity = s.ity := rfl
@[simp] theorem State.retire_sty (s : State) : (s.retire).sty = s.sty := rfl
@[simp] theorem State.retire_preHave (s : State) : (s.retire).preHave = false := rfl
@[simp] theorem State.retire_preData (s : State) : (s.retire).preData = s.preData := rfl
@[simp] theorem State.retire_lpreHave (s : State) : (s.retire).lpreHave = false := rfl
@[simp] theorem State.retire_lpreData (s : State) : (s.retire).lpreData = s.lpreData := rfl
@[simp] theorem State.retire_indexHave (s : State) : (s.retire).indexHave = false := rfl
@[simp] theorem State.retire_indexReg (s : State) : (s.retire).indexReg = s.indexReg := rfl
@[simp] theorem State.retire_mem (s : State) : (s.retire).mem = s.mem := rfl
@[simp] theorem State.retire_icache (s : State) : (s.retire).icache = s.icache := rfl
@[simp] theorem State.retire_staleLines (s : State) : (s.retire).staleLines = s.staleLines := rfl
@[simp] theorem State.retire_irqLine (s : State) : (s.retire).irqLine = s.irqLine := rfl
@[simp] theorem State.retire_params (s : State) : (s.retire).params = s.params := rfl
@[simp] theorem State.retire_reg (s : State) (j : Reg) : (s.retire).reg j = s.reg j := rfl
@[simp] theorem State.retire_special (s : State) (q : Special) : (s.retire).special q = s.special q := by cases q <;> rfl
@[simp] theorem State.retire_kindAt (s : State) (x : Word) : (s.retire).kindAt x = s.kindAt x := rfl

/-! `State.written` -/

@[simp] theorem State.written_regs (s : State) (a : Word) (n : Nat) (v : Word) : (s.written a n v).regs = s.regs := rfl
@[simp] theorem State.written_pc (s : State) (a : Word) (n : Nat) (v : Word) : (s.written a n v).pc = s.pc := rfl
@[simp] theorem State.written_flags (s : State) (a : Word) (n : Nat) (v : Word) : (s.written a n v).flags = s.flags := rfl
@[simp] theorem State.written_ids (s : State) (a : Word) (n : Nat) (v : Word) : (s.written a n v).ids = s.ids := rfl
@[simp] theorem State.written_ira (s : State) (a : Word) (n : Nat) (v : Word) : (s.written a n v).ira = s.ira := rfl
@[simp] theorem State.written_ie (s : State) (a : Word) (n : Nat) (v : Word) : (s.written a n v).ie = s.ie := rfl
@[simp] theorem State.written_ity (s : State) (a : Word) (n : Nat) (v : Word) : (s.written a n v).ity = s.ity := rfl
@[simp] theorem State.written_sty (s : State) (a : Word) (n : Nat) (v : Word) : (s.written a n v).sty = s.sty := rfl
@[simp] theorem State.written_preHave (s : State) (a : Word) (n : Nat) (v : Word) : (s.written a n v).preHave = s.preHave := rfl
@[simp] theorem State.written_preData (s : State) (a : Word) (n : Nat) (v : Word) : (s.written a n v).preData = s.preData := rfl
@[simp] theorem State.written_lpreHave (s : State) (a : Word) (n : Nat) (v : Word) : (s.written a n v).lpreHave = s.lpreHave := rfl
@[simp] theorem State.written_lpreData (s : State) (a : Word) (n : Nat) (v : Word) : (s.written a n v).lpreData = s.lpreData := rfl
@[simp] theorem State.written_indexHave (s : State) (a : Word) (n : Nat) (v : Word) : (s.written a n v).indexHave = s.indexHave := rfl
@[simp] theorem State.written_indexReg (s : State) (a : Word) (n : Nat) (v : Word) : (s.written a n v).indexReg = s.indexReg := rfl
@[simp] theorem State.written_mem (s : State) (a : Word) (n : Nat) (v : Word) : (s.written a n v).mem = s.mem.writeN a v n := rfl
@[simp] theorem State.written_icache (s : State) (a : Word) (n : Nat) (v : Word) : (s.written a n v).icache = s.icache := rfl
@[simp] theorem State.written_staleLines (s : State) (a : Word) (n : Nat) (v : Word) : (s.written a n v).staleLines = insertLinesOf s.staleLines a n := rfl
@[simp] theorem State.written_irqLine (s : State) (a : Word) (n : Nat) (v : Word) : (s.written a n v).irqLine = s.irqLine := rfl
@[simp] theorem State.written_params (s : State) (a : Word) (n : Nat) (v : Word) : (s.written a n v).params = s.params := rfl
@[simp] theorem State.written_reg (s : State) (a : Word) (n : Nat) (v : Word) (j : Reg) : (s.written a n v).reg j = s.reg j := rfl
@[simp] theorem State.written_special (s : State) (a : Word) (n : Nat) (v : Word) (q : Special) : (s.written a n v).special q = s.special q := by cases q <;> rfl
@[simp] theorem State.written_kindAt (s : State) (a : Word) (n : Nat) (v : Word) (x : Word) : (s.written a n v).kindAt x = s.kindAt x := rfl
@[simp] theorem State.written_imm5 (s : State) (a : Word) (n : Nat) (v : Word) (g : Bool) (k : BitVec 5) : (s.written a n v).imm5 g k = s.imm5 g k := rfl
@[simp] theorem State.written_imm9 (s : State) (a : Word) (n : Nat) (v : Word) (k : BitVec 9) : (s.written a n v).imm9 k = s.imm9 k := rfl
@[simp] theorem State.written_idx (s : State) (a : Word) (n : Nat) (v : Word) : (s.written a n v).idx = s.idx := rfl

/-! `State.reloaded` -/

@[simp] theorem State.reloaded_regs (s : State) (l : Nat) : (s.reloaded l).regs = s.regs := rfl
@[simp] theorem State.reloaded_pc (s : State) (l : Nat) : (s.reloaded l).pc = s.pc := rfl
@[simp] theorem State.reloaded_flags (s : State) (l : Nat) : (s.reloaded l).flags = s.flags := rfl
@[simp] theorem State.reloaded_ids (s : State) (l : Nat) : (s.reloaded l).ids = s.ids := rfl
@[simp] theorem State.reloaded_ira (s : State) (l : Nat) : (s.reloaded l).ira = s.ira := rfl
@[simp] theorem State.reloaded_ie (s : State) (l : Nat) : (s.reloaded l).ie = s.ie := rfl
@[simp] theorem State.reloaded_ity (s : State) (l : Nat) : (s.reloaded l).ity = s.ity := rfl
@[simp] theorem State.reloaded_sty (s : State) (l : Nat) : (s.reloaded l).sty = s.sty := rfl
@[simp] theorem State.reloaded_preHave (s : State) (l : Nat) : (s.reloaded l).preHave = s.preHave := rfl
@[simp] theorem State.reloaded_preData (s : State) (l : Nat) : (s.reloaded l).preData = s.preData := rfl
@[simp] theorem State.reloaded_lpreHave (s : State) (l : Nat) : (s.reloaded l).lpreHave = s.lpreHave := rfl
@[simp] theorem State.reloaded_lpreData (s : State) (l : Nat) : (s.reloaded l).lpreData = s.lpreData := rfl
@[simp] theorem State.reloaded_indexHave (s : State) (l : Nat) : (s.reloaded l).indexHave = s.indexHave := rfl
@[simp] theorem State.reloaded_indexReg (s : State) (l : Nat) : (s.reloaded l).indexReg = s.indexReg := rfl
@[simp] theorem State.reloaded_mem (s : State) (l : Nat) : (s.reloaded l).mem = s.mem := rfl
@[simp] theorem State.reloaded_icache (s : State) (l : Nat) : (s.reloaded l).icache = replaceCached s.icache { base := l, bytes := s.mem.lineBytes l } := rfl
@[simp] theorem State.reloaded_staleLines (s : State) (l : Nat) : (s.reloaded l).staleLines = eraseLine s.staleLines l := rfl
@[simp] theorem State.reloaded_irqLine (s : State) (l : Nat) : (s.reloaded l).irqLine = s.irqLine := rfl
@[simp] theorem State.reloaded_params (s : State) (l : Nat) : (s.reloaded l).params = s.params := rfl
@[simp] theorem State.reloaded_reg (s : State) (l : Nat) (j : Reg) : (s.reloaded l).reg j = s.reg j := rfl
@[simp] theorem State.reloaded_special (s : State) (l : Nat) (q : Special) : (s.reloaded l).special q = s.special q := by cases q <;> rfl
@[simp] theorem State.reloaded_kindAt (s : State) (l : Nat) (x : Word) : (s.reloaded l).kindAt x = s.kindAt x := rfl
@[simp] theorem State.reloaded_imm5 (s : State) (l : Nat) (g : Bool) (k : BitVec 5) : (s.reloaded l).imm5 g k = s.imm5 g k := rfl
@[simp] theorem State.reloaded_imm9 (s : State) (l : Nat) (k : BitVec 9) : (s.reloaded l).imm9 k = s.imm9 k := rfl
@[simp] theorem State.reloaded_idx (s : State) (l : Nat) : (s.reloaded l).idx = s.idx := rfl

/-! `State.sampled` -/

@[simp] theorem State.sampled_regs (s : State) : (s.sampled).regs = s.regs := rfl
@[simp] theorem State.sampled_pc (s : State) : (s.sampled).pc = s.pc := rfl
@[simp] theorem State.sampled_flags (s : State) : (s.sampled).flags = s.flags := rfl
@[simp] theorem State.sampled_ids (s : State) : (s.sampled).ids = s.ids := rfl
@[simp] theorem State.sampled_ira (s : State) : (s.sampled).ira = s.ira := rfl
@[simp] theorem State.sampled_ie (s : State) : (s.sampled).ie = s.ie := rfl
@[simp] theorem State.sampled_ity (s : State) : (s.sampled).ity = s.ity := rfl
@[simp] theorem State.sampled_sty (s : State) : (s.sampled).sty = s.sty := rfl
@[simp] theorem State.sampled_preHave (s : State) : (s.sampled).preHave = s.preHave := rfl
@[simp] theorem State.sampled_preData (s : State) : (s.sampled).preData = s.preData := rfl
@[simp] theorem State.sampled_lpreHave (s : State) : (s.sampled).lpreHave = s.lpreHave := rfl
@[simp] theorem State.sampled_lpreData (s : State) : (s.sampled).lpreData = s.lpreData := rfl
@[simp] theorem State.sampled_indexHave (s : State) : (s.sampled).indexHave = s.indexHave := rfl
@[simp] theorem State.sampled_indexReg (s : State) : (s.sampled).indexReg = s.indexReg := rfl
@[simp] theorem State.sampled_mem (s : State) : (s.sampled).mem = s.mem := rfl
@[simp] theorem State.sampled_icache (s : State) : (s.sampled).icache = s.icache := rfl
@[simp] theorem State.sampled_staleLines (s : State) : (s.sampled).staleLines = s.staleLines := rfl
@[simp] theorem State.sampled_irqLine (s : State) : (s.sampled).irqLine = s.irqLine.tail := rfl
@[simp] theorem State.sampled_params (s : State) : (s.sampled).params = s.params := rfl
@[simp] theorem State.sampled_reg (s : State) (j : Reg) : (s.sampled).reg j = s.reg j := rfl
@[simp] theorem State.sampled_special (s : State) (q : Special) : (s.sampled).special q = s.special q := by cases q <;> rfl
@[simp] theorem State.sampled_kindAt (s : State) (x : Word) : (s.sampled).kindAt x = s.kindAt x := rfl
@[simp] theorem State.sampled_imm5 (s : State) (g : Bool) (k : BitVec 5) : (s.sampled).imm5 g k = s.imm5 g k := rfl
@[simp] theorem State.sampled_imm9 (s : State) (k : BitVec 9) : (s.sampled).imm9 k = s.imm9 k := rfl
@[simp] theorem State.sampled_idx (s : State) : (s.sampled).idx = s.idx := rfl

/-! `State.setSpecial` -/

@[simp] theorem State.setSpecial_regs (s : State) (q : Special) (v : Word) : (s.setSpecial q v).regs = s.regs := by cases q <;> rfl
@[simp] theorem State.setSpecial_pc (s : State) (q : Special) (v : Word) : (s.setSpecial q v).pc = s.pc := by cases q <;> rfl
@[simp] theorem State.setSpecial_preHave (s : State) (q : Special) (v : Word) : (s.setSpecial q v).preHave = s.preHave := by cases q <;> rfl
@[simp] theorem State.setSpecial_preData (s : State) (q : Special) (v : Word) : (s.setSpecial q v).preData = s.preData := by cases q <;> rfl
@[simp] theorem State.setSpecial_lpreHave (s : State) (q : Special) (v : Word) : (s.setSpecial q v).lpreHave = s.lpreHave := by cases q <;> rfl
@[simp] theorem State.setSpecial_lpreData (s : State) (q : Special) (v : Word) : (s.setSpecial q v).lpreData = s.lpreData := by cases q <;> rfl
@[simp] theorem State.setSpecial_indexHave (s : State) (q : Special) (v : Word) : (s.setSpecial q v).indexHave = s.indexHave := by cases q <;> rfl
@[simp] theorem State.setSpecial_indexReg (s : State) (q : Special) (v : Word) : (s.setSpecial q v).indexReg = s.indexReg := by cases q <;> rfl
@[simp] theorem State.setSpecial_mem (s : State) (q : Special) (v : Word) : (s.setSpecial q v).mem = s.mem := by cases q <;> rfl
@[simp] theorem State.setSpecial_icache (s : State) (q : Special) (v : Word) : (s.setSpecial q v).icache = s.icache := by cases q <;> rfl
@[simp] theorem State.setSpecial_staleLines (s : State) (q : Special) (v : Word) : (s.setSpecial q v).staleLines = s.staleLines := by cases q <;> rfl
@[simp] theorem State.setSpecial_irqLine (s : State) (q : Special) (v : Word) : (s.setSpecial q v).irqLine = s.irqLine := by cases q <;> rfl
@[simp] theorem State.setSpecial_params (s : State) (q : Special) (v : Word) : (s.setSpecial q v).params = s.params := by cases q <;> rfl
@[simp] theorem State.setSpecial_reg (s : State) (q : Special) (v : Word) (j : Reg) : (s.setSpecial q v).reg j = s.reg j := by cases q <;> rfl
@[simp] theorem State.setSpecial_kindAt (s : State) (q : Special) (v x : Word) : (s.setSpecial q v).kindAt x = s.kindAt x := by cases q <;> rfl

/-- `flags` as a value: Z, C, V and N are bits 0 to 3 and the other bits are 0 (R31, R39). -/
theorem Flags.toNat_toWord (f : Flags) :
    f.toWord.toNat = f.z.toNat + 2 * f.c.toNat + 4 * f.v.toNat + 8 * f.n.toNat := by
  obtain ⟨z, c, v, n⟩ := f
  cases z <;> cases c <;> cases v <;> cases n <;> rfl

/-- A special register reads back the state bits of what was written to it (R39). -/
theorem State.setSpecial_special_same (s : State) (q : Special) (v : Word) :
    (s.setSpecial q v).special q =
      match q with
      | .flags => (Flags.ofWord v).toWord
      | .ie => (BitVec.ofBool (v.getLsbD 0)).setWidth 32
      | .ity => (BitVec.ofBool (v.getLsbD 0)).setWidth 32
      | _ => v := by
  cases q <;> rfl

/-- Writing one special register leaves the others (R40). -/
theorem State.setSpecial_special_ne (s : State) {q p : Special} (h : p ≠ q) (v : Word) :
    (s.setSpecial q v).special p = s.special p := by
  cases q <;> cases p <;> first | rfl | exact absurd rfl h

/-! Registers. -/

/-- A register reads what was last written to it (R23). -/
theorem State.setReg_reg (s : State) (i j : Reg) (v : Word) :
    (s.setReg i v).reg j = if j = i then v else s.reg j := by
  unfold State.reg State.setReg
  by_cases h : j = i
  · subst h; simp
  · have : i.toNat ≠ j.toNat := fun e => h (BitVec.eq_of_toNat_eq e.symm)
    simp [h, this]

@[simp] theorem State.setReg_reg_same (s : State) (i : Reg) (v : Word) : (s.setReg i v).reg i = v := by
  simp [State.setReg_reg]

@[simp] theorem State.setReg_reg_ne (s : State) {i j : Reg} (h : j ≠ i) (v : Word) :
    (s.setReg i v).reg j = s.reg j := by
  simp [State.setReg_reg, h]

/-- The two registers of a pair are different (R24). -/
theorem Reg_pair_ne (a : Reg) : a.pairHigh ≠ a.pairLow := by revert a; decide

/-- A pair reads back the 64-bit value written to it (R24). -/
theorem State.setPair_pair (s : State) (a : Reg) (v : BitVec 64) : (s.setPair a v).pair a = v := by
  unfold State.pair State.setPair
  rw [State.setReg_reg_same, State.setReg_reg_ne _ (Reg_pair_ne a), State.setReg_reg_same]
  ext k hk
  simp only [BitVec.getElem_append, BitVec.getElem_extractLsb']
  split <;> rename_i h
  · simp [BitVec.getLsbD_eq_getElem hk]
  · rw [show 32 + (k - 32) = k by omega, BitVec.getLsbD_eq_getElem hk]

/-- Writing a pair leaves every register outside it. -/
theorem State.setPair_reg_ne (s : State) {a j : Reg} (v : BitVec 64) (h : j ≠ a.pairHigh) (l : j ≠ a.pairLow) :
    (s.setPair a v).reg j = s.reg j := by
  simp [State.setPair, h, l]

end Sys2Proof.Machine
end

