-- ==== Sys2Proof/Laws/Ops.lean ====
section
/-! SUPPORT. For each shared operation, one lemma that says everything it can do when it gives a next state. -/

namespace Sys2Proof.Machine

/-- A sequence gives a next state exactly when both of its parts do. -/
theorem andThen_eq_next {α β : Type} (x : Result α) (f : α → Result β) (b : β) :
    andThen x f = .next b ↔ ∃ a, x = .next a ∧ f a = .next b := by
  cases x <;> simp [andThen]

@[simp] theorem andThen_next {α β : Type} (a : α) (f : α → Result β) : andThen (.next a) f = f a := rfl

@[simp] theorem andThen_fault {α β : Type} (r : Fault) (f : α → Result β) : andThen (.fault r) f = .fault r := rfl

@[simp] theorem andThen_refused {α β : Type} (r : Refusal) (f : α → Result β) :
    andThen (.refused r) f = .refused r := rfl

/-- A control transfer reaches even targets only, and changes `pc` and the prefix state (R68, R134). -/
theorem jumpTo_eq_next (s t : State) (v : Word) :
    jumpTo s v = .next t ↔ v.getLsbD 0 = false ∧ t = s.clearPrefixes.setPc v := by
  unfold jumpTo
  cases h : v.getLsbD 0 <;> simp [eq_comm]

/-- An even target is reached (R68). -/
theorem jumpTo_even (s : State) {v : Word} (h : v.getLsbD 0 = false) :
    jumpTo s v = .next (s.clearPrefixes.setPc v) := by
  simp only [jumpTo, h, Bool.false_eq_true, if_false]

/-- An odd target stops (R68). -/
theorem jumpTo_odd (s : State) {v : Word} (h : v.getLsbD 0 = true) : jumpTo s v = .fault .misalignedPc := by
  simp only [jumpTo, h, if_true]

/-- Some byte of an access is of a kind. -/
theorem touches_eq_true (s : State) (k : RegionKind) (a : Word) (n : Nat) :
    s.touches k a n = true ↔ ∃ j, j < n ∧ s.kindAt (a + BitVec.ofNat 32 j) = k := by
  induction n with
  | zero => simp [State.touches]
  | succ n ih =>
    rw [State.touches, Bool.or_eq_true, ih, decide_eq_true_eq]
    constructor
    · rintro (⟨j, hj, h⟩ | h)
      · exact ⟨j, by omega, h⟩
      · exact ⟨n, by omega, h⟩
    · rintro ⟨j, hj, h⟩
      by_cases e : j = n
      · subst e; exact .inr h
      · exact .inl ⟨j, by omega, h⟩

/-- The address map lets an access through exactly when all its bytes are RAM (R73). -/
theorem mapAllows_eq_next (s : State) (a : Word) (n : Nat) (u : Unit) : mapAllows s a n = .next u ↔ s.ramAt a n := by
  have key : s.ramAt a n ↔ s.touches .absent a n = false ∧ s.touches .device a n = false := by
    simp only [State.ramAt, Bool.eq_false_iff, ne_eq, touches_eq_true, not_exists, not_and]
    constructor
    · intro h
      exact ⟨fun j hj e => by simp [h j hj] at e, fun j hj e => by simp [h j hj] at e⟩
    · rintro ⟨h1, h2⟩ j hj
      cases e : s.kindAt (a + BitVec.ofNat 32 j)
      · rfl
      · exact absurd e (h2 j hj)
      · exact absurd e (h1 j hj)
  rw [key]
  unfold mapAllows
  cases s.touches .absent a n <;> cases s.touches .device a n <;> simp

/-- An absent byte stops the access (R73). -/
theorem mapAllows_absent {s : State} {a : Word} {n k : Nat} (hk : k < n)
    (h : s.kindAt (a + BitVec.ofNat 32 k) = .absent) : mapAllows s a n = .fault .bus := by
  simp only [mapAllows, (touches_eq_true s .absent a n).2 ⟨k, hk, h⟩, if_true]

/-- With no byte absent, a device's byte refuses the access (log entries 12 and 27). -/
theorem mapAllows_device {s : State} {a : Word} {n k : Nat} (hk : k < n)
    (h : s.kindAt (a + BitVec.ofNat 32 k) = .device)
    (none : ¬ ∃ j, j < n ∧ s.kindAt (a + BitVec.ofNat 32 j) = .absent) : mapAllows s a n = .refused .deviceAccess := by
  have hd := (touches_eq_true s .device a n).2 ⟨k, hk, h⟩
  have ha : s.touches .absent a n = false := by rwa [Bool.eq_false_iff, ne_eq, touches_eq_true]
  simp only [mapAllows, ha, hd, Bool.false_eq_true, if_false, if_true]

/-- Where `MISALIGNED_DATA` lets an access through, the address map alone decides (R69, R73). -/
theorem dataAccess_aligned {s : State} {a : Word} {n : Nat}
    (h : s.params.misalignedData = .split ∨ a.toNat % n = 0) : dataAccess s a n = mapAllows s a n := by
  unfold dataAccess
  rcases h with h | h <;> simp [h]

/-- A data access is let through exactly when it is permitted (R69, R73). -/
theorem dataAccess_eq_next (s : State) (a : Word) (n : Nat) (u : Unit) :
    dataAccess s a n = .next u ↔ s.permits a n := by
  unfold dataAccess State.permits
  cases h : s.params.misalignedData
  · by_cases e : a.toNat % n = 0 <;> simp [e, mapAllows_eq_next]
  · simp [mapAllows_eq_next]

theorem dataAccess_of_permits {s : State} {a : Word} {n : Nat} (h : s.permits a n) : dataAccess s a n = .next () :=
  (dataAccess_eq_next s a n ()).2 h

/-- A load reads permitted bytes, big-endian, and nothing else happens (R65). -/
theorem load_eq_next (s : State) (a : Word) (n : Nat) (v : Word) :
    load s a n = .next v ↔ s.permits a n ∧ v = s.mem.readN a n := by
  simp only [load, andThen_eq_next, dataAccess_eq_next, exists_const, Host.Outcome.next.injEq, @eq_comm _ v]

theorem load_of_permits {s : State} {a : Word} {n : Nat} (h : s.permits a n) :
    load s a n = .next (s.mem.readN a n) := (load_eq_next s a n _).2 ⟨h, rfl⟩

/-- A store writes permitted bytes, big-endian, and marks their lines as written (R65, R81). -/
theorem store_eq_next (s t : State) (a : Word) (n : Nat) (v : Word) :
    store s a n v = .next t ↔ s.permits a n ∧ t = s.written a n v := by
  simp only [store, andThen_eq_next, dataAccess_eq_next, exists_const, Host.Outcome.next.injEq, @eq_comm _ t]

theorem store_of_permits {s : State} {a : Word} {n : Nat} (v : Word) (h : s.permits a n) :
    store s a n v = .next (s.written a n v) := (store_eq_next s _ a n v).2 ⟨h, rfl⟩

/-- A special-register field goes on only with the register it names (R30, R38). -/
theorem withSpecial_eq_next {α : Type} (k : SpecialField) (f : Special → Result α) (b : α) :
    withSpecial k f = .next b ↔ ∃ q, specialOf k = some q ∧ f q = .next b := by
  unfold withSpecial
  cases specialOf k <;> simp

theorem withSpecial_some {α : Type} {k : SpecialField} {q : Special} (h : specialOf k = some q)
    (f : Special → Result α) : withSpecial k f = f q := by
  simp [withSpecial, h]

/-- The fields 0 to 5 name a special register and no other field does (R30, R38). -/
theorem specialOf_isSome (k : SpecialField) : (specialOf k).isSome = k.assigned := by revert k; decide

/-- Interrupt entry needs an even vector and then does exactly what R335 lists. -/
theorem enterInterrupt_eq_next (kind : Interrupt) (ret : Word) (s t : State) :
    enterInterrupt kind ret s = .next t ↔
      s.ids.getLsbD 0 = false ∧
        t = { s with
          preHave := false, lpreHave := false, indexHave := false
          pc := s.ids
          ira := ret
          ity := match kind with
            | .irq => false
            | .swi _ => true
          sty := match kind with
            | .irq => s.sty
            | .swi arg => arg
          ie := if s.params.irqEntryClearsIe then false else s.ie } := by
  unfold enterInterrupt
  rw [jumpTo_eq_next]
  rfl

/-- A `swi` enters, or, when masked, only advances `pc` (R335, R338). -/
theorem raiseSwi_eq_next (arg : Word) (s t : State) :
    raiseSwi arg s = .next t ↔
      ((s.params.swiMaskedByIe && !s.ie) = true ∧ t = s.retire) ∨
      ((s.params.swiMaskedByIe && !s.ie) = false ∧ enterInterrupt (.swi arg) (s.pc + 2) s = .next t) := by
  unfold raiseSwi
  cases s.params.swiMaskedByIe && !s.ie <;> simp [eq_comm]

/-- The return sets `ie` and goes to an even `ira` (R244, R342). -/
theorem returnFromInterrupt_eq_next (s t : State) :
    returnFromInterrupt s = .next t ↔
      s.ira.getLsbD 0 = false ∧ t = ({ s with ie := true } : State).clearPrefixes.setPc s.ira := by
  unfold returnFromInterrupt
  rw [jumpTo_eq_next]

/-- An unassigned encoding goes on only under the `nop` setting (R114). -/
theorem reservedInstruction_eq_next (s t : State) :
    reservedInstruction s = .next t ↔ s.params.reservedEncoding = .nop ∧ t = s.retire := by
  unfold reservedInstruction
  cases s.params.reservedEncoding <;> simp [eq_comm]

/-- A push stores permitted bytes at the register's address and moves it down by 4 (R247). -/
theorem pushWord_eq_next (b : Reg) (v : Word) (s t : State) :
    pushWord b v s = .next t ↔
      s.permits (s.reg b) 4 ∧ t = ((s.written (s.reg b) 4 v).setReg b (s.reg b - 4)).retire := by
  simp only [pushWord, andThen_eq_next, store_eq_next]
  constructor
  · rintro ⟨u, ⟨h, rfl⟩, e⟩; cases e; exact ⟨h, rfl⟩
  · rintro ⟨h, rfl⟩; exact ⟨_, ⟨h, rfl⟩, rfl⟩

/-- A pop loads permitted bytes above the register's address and moves it up by 4 (R249). -/
theorem popWord_eq_next (b : Reg) (s t : State) (f : Word → State → Result State) :
    popWord b s f = .next t ↔
      s.permits (s.reg b + 4) 4 ∧
        f (s.mem.readN (s.reg b + 4) 4) (s.setReg b (s.reg b + 4)) = .next t := by
  simp only [popWord, andThen_eq_next, load_eq_next]
  constructor
  · rintro ⟨v, ⟨h, rfl⟩, e⟩; exact ⟨h, e⟩
  · rintro ⟨h, e⟩; exact ⟨_, ⟨h, rfl⟩, e⟩

/-- A narrow load writes one register with the extension of what it read (R290). -/
theorem loadNarrow_eq_next (a b : Reg) (n : Nat) (f : Word → Word) (s t : State) :
    loadNarrow a b n f s = .next t ↔
      s.permits (s.narrowAddress b) n ∧ t = (s.setReg a (f (s.mem.readN (s.narrowAddress b) n))).retire := by
  simp only [loadNarrow, andThen_eq_next, load_eq_next]
  constructor
  · rintro ⟨v, ⟨h, rfl⟩, e⟩; cases e; exact ⟨h, rfl⟩
  · rintro ⟨h, rfl⟩; exact ⟨_, ⟨h, rfl⟩, rfl⟩

/-- A narrow store writes `n` bytes and no register (R290). -/
theorem storeNarrow_eq_next (a b : Reg) (n : Nat) (s t : State) :
    storeNarrow a b n s = .next t ↔
      s.permits (s.narrowAddress b) n ∧ t = (s.written (s.narrowAddress b) n (s.reg a)).retire := by
  simp only [storeNarrow, andThen_eq_next, store_eq_next]
  constructor
  · rintro ⟨v, ⟨h, rfl⟩, e⟩; cases e; exact ⟨h, rfl⟩
  · rintro ⟨h, rfl⟩; exact ⟨_, ⟨h, rfl⟩, rfl⟩

/-- A special-register load writes that register alone (R317). -/
theorem loadSpecial_eq_next (q : Special) (addr : Word) (s t : State) :
    loadSpecial q addr s = .next t ↔
      s.permits addr 4 ∧ t = (s.setSpecial q (s.mem.readN addr 4)).retire := by
  simp only [loadSpecial, andThen_eq_next, load_eq_next]
  constructor
  · rintro ⟨v, ⟨h, rfl⟩, e⟩; cases e; exact ⟨h, rfl⟩
  · rintro ⟨h, rfl⟩; exact ⟨_, ⟨h, rfl⟩, rfl⟩

/-- A special-register store writes four bytes and no register (R319). -/
theorem storeSpecial_eq_next (q : Special) (addr : Word) (s t : State) :
    storeSpecial q addr s = .next t ↔
      s.permits addr 4 ∧ t = (s.written addr 4 (s.special q)).retire := by
  simp only [storeSpecial, andThen_eq_next, store_eq_next]
  constructor
  · rintro ⟨v, ⟨h, rfl⟩, e⟩; cases e; exact ⟨h, rfl⟩
  · rintro ⟨h, rfl⟩; exact ⟨_, ⟨h, rfl⟩, rfl⟩

/-- A branch is not taken, or is taken to an even target (R210). -/
theorem branchIf_eq_next (c : Bool) (i : BitVec 9) (s t : State) :
    branchIf c i s = .next t ↔
      (c = false ∧ t = s.retire) ∨
      (c = true ∧ (s.branchTarget i).getLsbD 0 = false ∧ t = s.clearPrefixes.setPc (s.branchTarget i)) := by
  unfold branchIf
  cases c
  · simp only [Bool.false_eq_true, if_false, Host.Outcome.next.injEq, true_and, false_and, or_false, @eq_comm _ t]
  · simp only [if_true, jumpTo_eq_next, Bool.true_eq_false, true_and, false_and, false_or]

/-- A fetched unit comes from RAM, from a line not written since its last reload (R79, R81). -/
theorem fetchUnit_eq_next (s : State) (a : Word) (u : Half) :
    fetchUnit s a = .next u ↔
      s.ramAt a 2 ∧ lineOf a ∉ s.staleLines ∧ u = unitOfBytes (s.fetchByte a) (s.fetchByte (a + 1)) := by
  simp only [fetchUnit, andThen_eq_next, mapAllows_eq_next, exists_const]
  by_cases h : lineOf a ∈ s.staleLines <;> simp [h, eq_comm]

/-- Fetching decodes the unit at an even `pc`, and the unit after it for `lpre` alone (R112). -/
theorem fetchInstr_eq_next (s : State) (d : Except DecodeError Instr) :
    fetchInstr s = .next d ↔
      s.pc.getLsbD 0 = false ∧ ∃ u, fetchUnit s s.pc = .next u ∧
        ((isLong u = false ∧ d = decodeUnits u 0#16) ∨
         (isLong u = true ∧ ∃ u2, fetchUnit s (s.pc + 2) = .next u2 ∧ d = decodeUnits u u2)) := by
  unfold fetchInstr
  cases h : s.pc.getLsbD 0
  · simp only [Bool.false_eq_true, if_false, andThen_eq_next, true_and]
    refine exists_congr fun u => and_congr_right fun _ => ?_
    cases isLong u <;> simp [@eq_comm _ d, andThen_eq_next]
  · simp

/-- A step takes the IRQ, or runs what it fetched (R334, R368). -/
theorem step_eq_next (s t : State) :
    step s = .next t ↔
      (s.takesIrq = true ∧ raiseIrq s.sampled = .next t) ∨
      (s.takesIrq = false ∧ ∃ d, fetchInstr s.sampled = .next d ∧ execDecoded d s.sampled = .next t) := by
  unfold step
  cases s.takesIrq <;> simp [andThen_eq_next]

end Sys2Proof.Machine
end

