-- ==== Sys2Proof/Laws/PerInstr.lean ====
section
/-! SUPPORT. Laws about every instruction as syntax, one lemma per constructor. -/

namespace Sys2Proof.Laws

/-- "Every instruction is 16 bits long except `lpre`, which is 32 bits long." (R90) -/
def EncodedLength.Statement (i : Instr) : Prop :=
  (encode i).length = match i with
    | .lpre _ => 4
    | _ => 2

theorem EncodedLength.pre (imm : BitVec 12) : EncodedLength.Statement (.pre imm) := rfl
theorem EncodedLength.lpre (imm : BitVec 27) : EncodedLength.Statement (.lpre imm) := rfl
theorem EncodedLength.addImm (a : Reg) (i : BitVec 5) : EncodedLength.Statement (.addImm a i) := rfl
theorem EncodedLength.addPcImm (a : Reg) (i : BitVec 5) : EncodedLength.Statement (.addPcImm a i) := rfl
theorem EncodedLength.addSpImm (a : Reg) (i : BitVec 5) : EncodedLength.Statement (.addSpImm a i) := rfl
theorem EncodedLength.addFpImm (a : Reg) (i : BitVec 5) : EncodedLength.Statement (.addFpImm a i) := rfl
theorem EncodedLength.cmpImm (a : Reg) (i : BitVec 5) : EncodedLength.Statement (.cmpImm a i) := rfl
theorem EncodedLength.cpyImm (a : Reg) (i : BitVec 5) : EncodedLength.Statement (.cpyImm a i) := rfl
theorem EncodedLength.lslImm (a : Reg) (i : BitVec 5) : EncodedLength.Statement (.lslImm a i) := rfl
theorem EncodedLength.lsrImm (a : Reg) (i : BitVec 5) : EncodedLength.Statement (.lsrImm a i) := rfl
theorem EncodedLength.asrImm (a : Reg) (i : BitVec 5) : EncodedLength.Statement (.asrImm a i) := rfl
theorem EncodedLength.andImm (a : Reg) (i : BitVec 5) : EncodedLength.Statement (.andImm a i) := rfl
theorem EncodedLength.orrImm (a : Reg) (i : BitVec 5) : EncodedLength.Statement (.orrImm a i) := rfl
theorem EncodedLength.xorImm (a : Reg) (i : BitVec 5) : EncodedLength.Statement (.xorImm a i) := rfl
theorem EncodedLength.zeImm (a : Reg) (i : BitVec 5) : EncodedLength.Statement (.zeImm a i) := rfl
theorem EncodedLength.seImm (a : Reg) (i : BitVec 5) : EncodedLength.Statement (.seImm a i) := rfl
theorem EncodedLength.swiReg (a : Reg) (i : BitVec 5) : EncodedLength.Statement (.swiReg a i) := rfl
theorem EncodedLength.swiImm (i : BitVec 5) : EncodedLength.Statement (.swiImm i) := rfl
theorem EncodedLength.add (f : Bool) (a : Reg) (b : Reg) : EncodedLength.Statement (.add f a b) := rfl
theorem EncodedLength.sub (f : Bool) (a : Reg) (b : Reg) : EncodedLength.Statement (.sub f a b) := rfl
theorem EncodedLength.addSp (f : Bool) (a : Reg) (b : Reg) : EncodedLength.Statement (.addSp f a b) := rfl
theorem EncodedLength.addFp (f : Bool) (a : Reg) (b : Reg) : EncodedLength.Statement (.addFp f a b) := rfl
theorem EncodedLength.cmp (a : Reg) (b : Reg) : EncodedLength.Statement (.cmp a b) := rfl
theorem EncodedLength.cpy (f : Bool) (a : Reg) (b : Reg) : EncodedLength.Statement (.cpy f a b) := rfl
theorem EncodedLength.lsl (f : Bool) (a : Reg) (b : Reg) : EncodedLength.Statement (.lsl f a b) := rfl
theorem EncodedLength.lsr (f : Bool) (a : Reg) (b : Reg) : EncodedLength.Statement (.lsr f a b) := rfl
theorem EncodedLength.asr (f : Bool) (a : Reg) (b : Reg) : EncodedLength.Statement (.asr f a b) := rfl
theorem EncodedLength.and (f : Bool) (a : Reg) (b : Reg) : EncodedLength.Statement (.and f a b) := rfl
theorem EncodedLength.orr (f : Bool) (a : Reg) (b : Reg) : EncodedLength.Statement (.orr f a b) := rfl
theorem EncodedLength.xor (f : Bool) (a : Reg) (b : Reg) : EncodedLength.Statement (.xor f a b) := rfl
theorem EncodedLength.adc (f : Bool) (a : Reg) (b : Reg) : EncodedLength.Statement (.adc f a b) := rfl
theorem EncodedLength.sbc (f : Bool) (a : Reg) (b : Reg) : EncodedLength.Statement (.sbc f a b) := rfl
theorem EncodedLength.cmpbc (a : Reg) (b : Reg) : EncodedLength.Statement (.cmpbc a b) := rfl
theorem EncodedLength.bl (i : BitVec 9) : EncodedLength.Statement (.bl i) := rfl
theorem EncodedLength.bra (i : BitVec 9) : EncodedLength.Statement (.bra i) := rfl
theorem EncodedLength.beq (i : BitVec 9) : EncodedLength.Statement (.beq i) := rfl
theorem EncodedLength.bne (i : BitVec 9) : EncodedLength.Statement (.bne i) := rfl
theorem EncodedLength.bmi (i : BitVec 9) : EncodedLength.Statement (.bmi i) := rfl
theorem EncodedLength.bpl (i : BitVec 9) : EncodedLength.Statement (.bpl i) := rfl
theorem EncodedLength.bvs (i : BitVec 9) : EncodedLength.Statement (.bvs i) := rfl
theorem EncodedLength.bvc (i : BitVec 9) : EncodedLength.Statement (.bvc i) := rfl
theorem EncodedLength.bgeu (i : BitVec 9) : EncodedLength.Statement (.bgeu i) := rfl
theorem EncodedLength.bltu (i : BitVec 9) : EncodedLength.Statement (.bltu i) := rfl
theorem EncodedLength.bgtu (i : BitVec 9) : EncodedLength.Statement (.bgtu i) := rfl
theorem EncodedLength.bleu (i : BitVec 9) : EncodedLength.Statement (.bleu i) := rfl
theorem EncodedLength.bges (i : BitVec 9) : EncodedLength.Statement (.bges i) := rfl
theorem EncodedLength.blts (i : BitVec 9) : EncodedLength.Statement (.blts i) := rfl
theorem EncodedLength.bgts (i : BitVec 9) : EncodedLength.Statement (.bgts i) := rfl
theorem EncodedLength.bles (i : BitVec 9) : EncodedLength.Statement (.bles i) := rfl
theorem EncodedLength.jl (a : Reg) : EncodedLength.Statement (.jl a) := rfl
theorem EncodedLength.jmp (a : Reg) : EncodedLength.Statement (.jmp a) := rfl
theorem EncodedLength.jmpIra : EncodedLength.Statement (.jmpIra) := rfl
theorem EncodedLength.reti : EncodedLength.Statement (.reti) := rfl
theorem EncodedLength.ei : EncodedLength.Statement (.ei) := rfl
theorem EncodedLength.di : EncodedLength.Statement (.di) := rfl
theorem EncodedLength.push (a : Reg) (b : Reg) : EncodedLength.Statement (.push a b) := rfl
theorem EncodedLength.pushSpecial (sa : SpecialField) (b : Reg) : EncodedLength.Statement (.pushSpecial sa b) := rfl
theorem EncodedLength.pop (a : Reg) (b : Reg) : EncodedLength.Statement (.pop a b) := rfl
theorem EncodedLength.popSpecial (sa : SpecialField) (b : Reg) : EncodedLength.Statement (.popSpecial sa b) := rfl
theorem EncodedLength.popPc (b : Reg) : EncodedLength.Statement (.popPc b) := rfl
theorem EncodedLength.mul (a : Reg) (b : Reg) : EncodedLength.Statement (.mul a b) := rfl
theorem EncodedLength.udiv (a : Reg) (b : Reg) : EncodedLength.Statement (.udiv a b) := rfl
theorem EncodedLength.sdiv (a : Reg) (b : Reg) : EncodedLength.Statement (.sdiv a b) := rfl
theorem EncodedLength.umod (a : Reg) (b : Reg) : EncodedLength.Statement (.umod a b) := rfl
theorem EncodedLength.smod (a : Reg) (b : Reg) : EncodedLength.Statement (.smod a b) := rfl
theorem EncodedLength.lumul (a : Reg) (b : Reg) : EncodedLength.Statement (.lumul a b) := rfl
theorem EncodedLength.lsmul (a : Reg) (b : Reg) : EncodedLength.Statement (.lsmul a b) := rfl
theorem EncodedLength.udiv64 (a : Reg) (b : Reg) : EncodedLength.Statement (.udiv64 a b) := rfl
theorem EncodedLength.sdiv64 (a : Reg) (b : Reg) : EncodedLength.Statement (.sdiv64 a b) := rfl
theorem EncodedLength.umod64 (a : Reg) (b : Reg) : EncodedLength.Statement (.umod64 a b) := rfl
theorem EncodedLength.smod64 (a : Reg) (b : Reg) : EncodedLength.Statement (.smod64 a b) := rfl
theorem EncodedLength.ldub (a : Reg) (b : Reg) : EncodedLength.Statement (.ldub a b) := rfl
theorem EncodedLength.ldsb (a : Reg) (b : Reg) : EncodedLength.Statement (.ldsb a b) := rfl
theorem EncodedLength.lduh (a : Reg) (b : Reg) : EncodedLength.Statement (.lduh a b) := rfl
theorem EncodedLength.ldsh (a : Reg) (b : Reg) : EncodedLength.Statement (.ldsh a b) := rfl
theorem EncodedLength.stb (a : Reg) (b : Reg) : EncodedLength.Statement (.stb a b) := rfl
theorem EncodedLength.sth (a : Reg) (b : Reg) : EncodedLength.Statement (.sth a b) := rfl
theorem EncodedLength.cpyFromSpecial (a : Reg) (sb : SpecialField) : EncodedLength.Statement (.cpyFromSpecial a sb) := rfl
theorem EncodedLength.cpyToSpecial (sa : SpecialField) (b : Reg) : EncodedLength.Statement (.cpyToSpecial sa b) := rfl
theorem EncodedLength.cpySpecial (sa : SpecialField) (sb : SpecialField) : EncodedLength.Statement (.cpySpecial sa sb) := rfl
theorem EncodedLength.index (a : Reg) : EncodedLength.Statement (.index a) := rfl
theorem EncodedLength.ldr (a : Reg) (b : Reg) (i : BitVec 5) : EncodedLength.Statement (.ldr a b i) := rfl
theorem EncodedLength.str (a : Reg) (b : Reg) (i : BitVec 5) : EncodedLength.Statement (.str a b i) := rfl
theorem EncodedLength.cmpb (a : Reg) (b : Reg) : EncodedLength.Statement (.cmpb a b) := rfl
theorem EncodedLength.lsrb (a : Reg) (b : Reg) : EncodedLength.Statement (.lsrb a b) := rfl
theorem EncodedLength.asrb (a : Reg) (b : Reg) : EncodedLength.Statement (.asrb a b) := rfl
theorem EncodedLength.cmph (a : Reg) (b : Reg) : EncodedLength.Statement (.cmph a b) := rfl
theorem EncodedLength.lsrh (a : Reg) (b : Reg) : EncodedLength.Statement (.lsrh a b) := rfl
theorem EncodedLength.asrh (a : Reg) (b : Reg) : EncodedLength.Statement (.asrh a b) := rfl
theorem EncodedLength.ldrSpecial (sa : SpecialField) (b : Reg) : EncodedLength.Statement (.ldrSpecial sa b) := rfl
theorem EncodedLength.ldrSpecialAt (sa : SpecialField) (sb : SpecialField) : EncodedLength.Statement (.ldrSpecialAt sa sb) := rfl
theorem EncodedLength.strSpecial (sa : SpecialField) (b : Reg) : EncodedLength.Statement (.strSpecial sa b) := rfl
theorem EncodedLength.strSpecialAt (sa : SpecialField) (sb : SpecialField) : EncodedLength.Statement (.strSpecialAt sa sb) := rfl
theorem EncodedLength.icreload (a : Reg) (i : BitVec 5) : EncodedLength.Statement (.icreload a i) := rfl

end Sys2Proof.Laws
end

