-- ==== Sys2Proof/Machine/AsmText.lean ====
section
/-! DEFINITION. An instruction written in the assembly syntax the sources use (spec 30_encoding.md R117, R119). The machine
does not call it. An immediate is the bare field's value, in decimal, as it reads with no prefix in effect (R104). -/

namespace Sys2Proof.Machine

/-- The names of the general registers (R22, R117). -/
def regName (r : Reg) : String :=
  match r with
  | 0xD#4 => "lr"
  | 0xE#4 => "fp"
  | 0xF#4 => "sp"
  | _ => "r" ++ toString r.toNat

/-- The names of the special registers (R30, R117); a reserved field has none and is shown by its number. -/
def specialName (k : SpecialField) : String :=
  match k with
  | 0#4 => "flags"
  | 1#4 => "ids"
  | 2#4 => "ira"
  | 3#4 => "ie"
  | 4#4 => "ity"
  | 5#4 => "sty"
  | _ => "reserved" ++ toString k.toNat

/-- An immediate operand written `#simm`. -/
def simmText (i : BitVec 5) : String := "#" ++ toString i.toInt

/-- An immediate operand written `#imm`. -/
def immText (i : BitVec 5) : String := "#" ++ toString i.toNat

/-- The `.f` suffix of group 2 (R119). -/
def flagSuffix (f : Bool) : String := if f then ".f" else ""

/-- The instruction's text (R117). -/
def asmText (i : Instr) : String :=
  match i with
  | .pre imm => "pre #" ++ toString imm.toNat
  | .lpre imm => "lpre #" ++ toString imm.toNat
  | .addImm a i => "add " ++ regName a ++ ", " ++ simmText i
  | .addPcImm a i => "add " ++ regName a ++ ", pc, " ++ simmText i
  | .addSpImm a i => "add " ++ regName a ++ ", sp, " ++ simmText i
  | .addFpImm a i => "add " ++ regName a ++ ", fp, " ++ simmText i
  | .cmpImm a i => "cmp " ++ regName a ++ ", " ++ simmText i
  | .cpyImm a i => "cpy " ++ regName a ++ ", " ++ simmText i
  | .lslImm a i => "lsl " ++ regName a ++ ", " ++ immText i
  | .lsrImm a i => "lsr " ++ regName a ++ ", " ++ immText i
  | .asrImm a i => "asr " ++ regName a ++ ", " ++ immText i
  | .andImm a i => "and " ++ regName a ++ ", " ++ simmText i
  | .orrImm a i => "orr " ++ regName a ++ ", " ++ simmText i
  | .xorImm a i => "xor " ++ regName a ++ ", " ++ simmText i
  | .zeImm a i => "ze " ++ regName a ++ ", " ++ immText i
  | .seImm a i => "se " ++ regName a ++ ", " ++ immText i
  | .swiReg a i => "swi " ++ regName a ++ ", " ++ simmText i
  | .swiImm i => "swi " ++ immText i
  | .add f a b => "add" ++ flagSuffix f ++ " " ++ regName a ++ ", " ++ regName b
  | .sub f a b => "sub" ++ flagSuffix f ++ " " ++ regName a ++ ", " ++ regName b
  | .addSp f a b => "add" ++ flagSuffix f ++ " " ++ regName a ++ ", sp, " ++ regName b
  | .addFp f a b => "add" ++ flagSuffix f ++ " " ++ regName a ++ ", fp, " ++ regName b
  | .cmp a b => "cmp " ++ regName a ++ ", " ++ regName b
  | .cpy f a b => "cpy" ++ flagSuffix f ++ " " ++ regName a ++ ", " ++ regName b
  | .lsl f a b => "lsl" ++ flagSuffix f ++ " " ++ regName a ++ ", " ++ regName b
  | .lsr f a b => "lsr" ++ flagSuffix f ++ " " ++ regName a ++ ", " ++ regName b
  | .asr f a b => "asr" ++ flagSuffix f ++ " " ++ regName a ++ ", " ++ regName b
  | .and f a b => "and" ++ flagSuffix f ++ " " ++ regName a ++ ", " ++ regName b
  | .orr f a b => "orr" ++ flagSuffix f ++ " " ++ regName a ++ ", " ++ regName b
  | .xor f a b => "xor" ++ flagSuffix f ++ " " ++ regName a ++ ", " ++ regName b
  | .adc f a b => "adc" ++ flagSuffix f ++ " " ++ regName a ++ ", " ++ regName b
  | .sbc f a b => "sbc" ++ flagSuffix f ++ " " ++ regName a ++ ", " ++ regName b
  | .cmpbc a b => "cmpbc " ++ regName a ++ ", " ++ regName b
  | .bl i => "bl " ++ toString i.toInt
  | .bra i => "bra " ++ toString i.toInt
  | .beq i => "beq " ++ toString i.toInt
  | .bne i => "bne " ++ toString i.toInt
  | .bmi i => "bmi " ++ toString i.toInt
  | .bpl i => "bpl " ++ toString i.toInt
  | .bvs i => "bvs " ++ toString i.toInt
  | .bvc i => "bvc " ++ toString i.toInt
  | .bgeu i => "bgeu " ++ toString i.toInt
  | .bltu i => "bltu " ++ toString i.toInt
  | .bgtu i => "bgtu " ++ toString i.toInt
  | .bleu i => "bleu " ++ toString i.toInt
  | .bges i => "bges " ++ toString i.toInt
  | .blts i => "blts " ++ toString i.toInt
  | .bgts i => "bgts " ++ toString i.toInt
  | .bles i => "bles " ++ toString i.toInt
  | .jl a => "jl " ++ regName a
  | .jmp a => "jmp " ++ regName a
  | .jmpIra => "jmp ira"
  | .reti => "reti"
  | .ei => "ei"
  | .di => "di"
  | .push a b => "push " ++ regName a ++ ", " ++ regName b
  | .pushSpecial sa b => "push " ++ specialName sa ++ ", " ++ regName b
  | .pop a b => "pop " ++ regName a ++ ", " ++ regName b
  | .popSpecial sa b => "pop " ++ specialName sa ++ ", " ++ regName b
  | .popPc b => "pop pc, " ++ regName b
  | .mul a b => "mul " ++ regName a ++ ", " ++ regName b
  | .udiv a b => "udiv " ++ regName a ++ ", " ++ regName b
  | .sdiv a b => "sdiv " ++ regName a ++ ", " ++ regName b
  | .umod a b => "umod " ++ regName a ++ ", " ++ regName b
  | .smod a b => "smod " ++ regName a ++ ", " ++ regName b
  | .lumul a b => "lumul " ++ regName a ++ ", " ++ regName b
  | .lsmul a b => "lsmul " ++ regName a ++ ", " ++ regName b
  | .udiv64 a b => "udiv64 " ++ regName a ++ ", " ++ regName b
  | .sdiv64 a b => "sdiv64 " ++ regName a ++ ", " ++ regName b
  | .umod64 a b => "umod64 " ++ regName a ++ ", " ++ regName b
  | .smod64 a b => "smod64 " ++ regName a ++ ", " ++ regName b
  | .ldub a b => "ldub " ++ regName a ++ ", [" ++ regName b ++ "]"
  | .ldsb a b => "ldsb " ++ regName a ++ ", [" ++ regName b ++ "]"
  | .lduh a b => "lduh " ++ regName a ++ ", [" ++ regName b ++ "]"
  | .ldsh a b => "ldsh " ++ regName a ++ ", [" ++ regName b ++ "]"
  | .stb a b => "stb " ++ regName a ++ ", [" ++ regName b ++ "]"
  | .sth a b => "sth " ++ regName a ++ ", [" ++ regName b ++ "]"
  | .cpyFromSpecial a sb => "cpy " ++ regName a ++ ", " ++ specialName sb
  | .cpyToSpecial sa b => "cpy " ++ specialName sa ++ ", " ++ regName b
  | .cpySpecial sa sb => "cpy " ++ specialName sa ++ ", " ++ specialName sb
  | .index a => "index " ++ regName a
  | .ldr a b i => "ldr " ++ regName a ++ ", [" ++ regName b ++ ", " ++ simmText i ++ "]"
  | .str a b i => "str " ++ regName a ++ ", [" ++ regName b ++ ", " ++ simmText i ++ "]"
  | .cmpb a b => "cmpb " ++ regName a ++ ", " ++ regName b
  | .lsrb a b => "lsrb " ++ regName a ++ ", " ++ regName b
  | .asrb a b => "asrb " ++ regName a ++ ", " ++ regName b
  | .cmph a b => "cmph " ++ regName a ++ ", " ++ regName b
  | .lsrh a b => "lsrh " ++ regName a ++ ", " ++ regName b
  | .asrh a b => "asrh " ++ regName a ++ ", " ++ regName b
  | .ldrSpecial sa b => "ldr " ++ specialName sa ++ ", [" ++ regName b ++ "]"
  | .ldrSpecialAt sa sb => "ldr " ++ specialName sa ++ ", [" ++ specialName sb ++ "]"
  | .strSpecial sa b => "str " ++ specialName sa ++ ", [" ++ regName b ++ "]"
  | .strSpecialAt sa sb => "str " ++ specialName sa ++ ", [" ++ specialName sb ++ "]"
  | .icreload a i => "icreload [" ++ regName a ++ ", " ++ simmText i ++ "]"

end Sys2Proof.Machine
end

