-- ==== Sys2Proof/Tests/Slice0.lean ====
section
/-! SUPPORT. The model's own tests. Expected values are those of the spec's examples under each rule (41 to 48) and of
95_test_vectors.md; the words are written out from the encodings of 30_encoding.md R92 and R93. -/

namespace Sys2Proof.Tests

open Sys2Proof Sys2Proof.Machine Sys2Proof.Claims

/-- Look at the next state of an outcome. -/
def after {α : Type} (o : Result State) (f : State → α) : Option α :=
  match o with
  | .next t => some (f t)
  | _ => none

/-- Is the outcome this fault? -/
def faults (o : Result State) (r : Fault) : Bool :=
  match o with
  | .fault q => decide (q = r)
  | _ => false

/-- The reset state, `pc` = 0x1000, with some registers set. -/
def regs : List (Reg × Word) → State
  | [] => State.reset
  | (r, v) :: t => (regs t).setReg r v

/-- Set the flags Z, C, V, N. -/
def flagged (z c v n : Bool) (s : State) : State := s.setFlags { z := z, c := c, v := v, n := n }

/-- Place bytes in memory. -/
def bytes (a : Nat) (bs : List Byte) (s : State) : State :=
  { s with mem := (List.range bs.length).foldl (fun m k => m.write (a + k) (bs.getD k 0)) s.mem }

/-- The memory of the examples of 46_group4_narrow_loadstore.md and 47_group5_group6_ldr_str.md. -/
def example2000 (s : State) : State := bytes 0x2000 [0x80, 0xFF, 0x7F, 0x01, 0xA1, 0xB2, 0xC3, 0xD4] s

/-- Read back bytes of memory. -/
def bytesAt (t : State) (a n : Nat) : List Byte := (List.range n).map fun k => t.mem.read (a + k)

/-- The flags as Z, C, V, N. -/
def zcvn (t : State) : Bool × Bool × Bool × Bool := (t.flags.z, t.flags.c, t.flags.v, t.flags.n)

/-- A state in which `pre` is in effect. -/
def withPre (d : BitVec 12) (s : State) : State := { s with preHave := true, preData := d }

/-- A state in which `lpre` is in effect. -/
def withLpre (d : BitVec 27) (s : State) : State := { s with lpreHave := true, lpreData := d }

/-- A state in which `index` is in effect. -/
def withIndex (v : Word) (s : State) : State := { s with indexHave := true, indexReg := v }

/-- A state under other settings of R6. -/
def setting (f : Params → Params) (s : State) : State := { s with params := f s.params }

/-! Well-formedness: for each check, an ill-formed term that it refuses (R38), and a term that passes. -/
theorem test_ill_formed_pushSpecial : Instr.wellFormed (.pushSpecial 6 1) = false := by decide
theorem test_ill_formed_popSpecial : Instr.wellFormed (.popSpecial 15 1) = false := by decide
theorem test_ill_formed_cpyFromSpecial : Instr.wellFormed (.cpyFromSpecial 1 6) = false := by decide
theorem test_ill_formed_cpyToSpecial : Instr.wellFormed (.cpyToSpecial 8 1) = false := by decide
theorem test_ill_formed_cpySpecial_first : Instr.wellFormed (.cpySpecial 6 0) = false := by decide
theorem test_ill_formed_cpySpecial_second : Instr.wellFormed (.cpySpecial 0 6) = false := by decide
theorem test_ill_formed_ldrSpecial : Instr.wellFormed (.ldrSpecial 7 1) = false := by decide
theorem test_ill_formed_ldrSpecialAt_first : Instr.wellFormed (.ldrSpecialAt 9 1) = false := by decide
theorem test_ill_formed_ldrSpecialAt_second : Instr.wellFormed (.ldrSpecialAt 1 9) = false := by decide
theorem test_ill_formed_strSpecial : Instr.wellFormed (.strSpecial 10 1) = false := by decide
theorem test_ill_formed_strSpecialAt_first : Instr.wellFormed (.strSpecialAt 6 5) = false := by decide
theorem test_ill_formed_strSpecialAt_second : Instr.wellFormed (.strSpecialAt 5 12) = false := by decide
theorem test_well_formed_cpySpecial : Instr.wellFormed (.cpySpecial 5 5) = true := by decide

/-! Decoding: one word for every constructor, written out from its format and opcode (R93). -/
theorem test_decode_pre : decodeTableWord 16 0x001F = some (.pre 0x01F) := by decide
theorem test_decode_addImm : decodeTableWord 16 0x3D01 = some (.addImm 1 0x1D) := by decide
theorem test_decode_addPcImm : decodeTableWord 16 0x2411 = some (.addPcImm 1 4) := by decide
theorem test_decode_addSpImm : decodeTableWord 16 0x2821 = some (.addSpImm 1 8) := by decide
theorem test_decode_addFpImm : decodeTableWord 16 0x3C31 = some (.addFpImm 1 0x1C) := by decide
theorem test_decode_cmpImm : decodeTableWord 16 0x2641 = some (.cmpImm 1 6) := by decide
theorem test_decode_cpyImm : decodeTableWord 16 0x3F51 = some (.cpyImm 1 0x1F) := by decide
theorem test_decode_lslImm : decodeTableWord 16 0x2461 = some (.lslImm 1 4) := by decide
theorem test_decode_lsrImm : decodeTableWord 16 0x2471 = some (.lsrImm 1 4) := by decide
theorem test_decode_asrImm : decodeTableWord 16 0x3F81 = some (.asrImm 1 0x1F) := by decide
theorem test_decode_andImm : decodeTableWord 16 0x3091 = some (.andImm 1 0x10) := by decide
theorem test_decode_orrImm : decodeTableWord 16 0x21A1 = some (.orrImm 1 1) := by decide
theorem test_decode_xorImm : decodeTableWord 16 0x3FB1 = some (.xorImm 1 0x1F) := by decide
theorem test_decode_zeImm : decodeTableWord 16 0x28C1 = some (.zeImm 1 8) := by decide
theorem test_decode_seImm : decodeTableWord 16 0x27D1 = some (.seImm 1 7) := by decide
theorem test_decode_swiReg : decodeTableWord 16 0x23E1 = some (.swiReg 1 3) := by decide
theorem test_decode_swiImm : decodeTableWord 16 0x3FF0 = some (.swiImm 0x1F) := by decide
theorem test_decode_add : decodeTableWord 16 0x5021 = some (.add true 1 2) := by decide
theorem test_decode_sub : decodeTableWord 16 0x4121 = some (.sub false 1 2) := by decide
theorem test_decode_addSp : decodeTableWord 16 0x5221 = some (.addSp true 1 2) := by decide
theorem test_decode_addFp : decodeTableWord 16 0x4321 = some (.addFp false 1 2) := by decide
theorem test_decode_cmp : decodeTableWord 16 0x4421 = some (.cmp 1 2) := by decide
theorem test_decode_cpy : decodeTableWord 16 0x5521 = some (.cpy true 1 2) := by decide
theorem test_decode_lsl : decodeTableWord 16 0x4621 = some (.lsl false 1 2) := by decide
theorem test_decode_lsr : decodeTableWord 16 0x5721 = some (.lsr true 1 2) := by decide
theorem test_decode_asr : decodeTableWord 16 0x5821 = some (.asr true 1 2) := by decide
theorem test_decode_and : decodeTableWord 16 0x5921 = some (.and true 1 2) := by decide
theorem test_decode_orr : decodeTableWord 16 0x4A21 = some (.orr false 1 2) := by decide
theorem test_decode_xor : decodeTableWord 16 0x5B21 = some (.xor true 1 2) := by decide
theorem test_decode_adc : decodeTableWord 16 0x5C21 = some (.adc true 1 2) := by decide
theorem test_decode_sbc : decodeTableWord 16 0x5D21 = some (.sbc true 1 2) := by decide
theorem test_decode_cmpbc : decodeTableWord 16 0x5E21 = some (.cmpbc 1 2) := by decide
theorem test_decode_bl : decodeTableWord 16 0x6200 = some (.bl 0x20) := by decide
theorem test_decode_bra : decodeTableWord 16 0x7FE1 = some (.bra 0x1FE) := by decide
theorem test_decode_beq : decodeTableWord 16 0x6042 = some (.beq 4) := by decide
theorem test_decode_bne : decodeTableWord 16 0x7F83 = some (.bne 0x1F8) := by decide
theorem test_decode_bmi : decodeTableWord 16 0x6024 = some (.bmi 2) := by decide
theorem test_decode_bpl : decodeTableWord 16 0x6025 = some (.bpl 2) := by decide
theorem test_decode_bvs : decodeTableWord 16 0x6026 = some (.bvs 2) := by decide
theorem test_decode_bvc : decodeTableWord 16 0x6027 = some (.bvc 2) := by decide
theorem test_decode_bgeu : decodeTableWord 16 0x6028 = some (.bgeu 2) := by decide
theorem test_decode_bltu : decodeTableWord 16 0x6029 = some (.bltu 2) := by decide
theorem test_decode_bgtu : decodeTableWord 16 0x602A = some (.bgtu 2) := by decide
theorem test_decode_bleu : decodeTableWord 16 0x602B = some (.bleu 2) := by decide
theorem test_decode_bges : decodeTableWord 16 0x602C = some (.bges 2) := by decide
theorem test_decode_blts : decodeTableWord 16 0x602D = some (.blts 2) := by decide
theorem test_decode_bgts : decodeTableWord 16 0x602E = some (.bgts 2) := by decide
theorem test_decode_bles : decodeTableWord 16 0x7FEF = some (.bles 0x1FE) := by decide
theorem test_decode_jl : decodeTableWord 16 0x8003 = some (.jl 3) := by decide
theorem test_decode_jmp : decodeTableWord 16 0x810D = some (.jmp 0xD) := by decide
theorem test_decode_jmpIra : decodeTableWord 16 0x8200 = some (.jmpIra) := by decide
theorem test_decode_reti : decodeTableWord 16 0x8300 = some (.reti) := by decide
theorem test_decode_ei : decodeTableWord 16 0x8400 = some (.ei) := by decide
theorem test_decode_di : decodeTableWord 16 0x8500 = some (.di) := by decide
theorem test_decode_push : decodeTableWord 16 0x86F1 = some (.push 1 0xF) := by decide
theorem test_decode_pushSpecial : decodeTableWord 16 0x87F0 = some (.pushSpecial 0 0xF) := by decide
theorem test_decode_pop : decodeTableWord 16 0x88F1 = some (.pop 1 0xF) := by decide
theorem test_decode_popSpecial : decodeTableWord 16 0x89F3 = some (.popSpecial 3 0xF) := by decide
theorem test_decode_popPc : decodeTableWord 16 0x8AFF = some (.popPc 0xF) := by decide
theorem test_decode_mul : decodeTableWord 16 0x8B21 = some (.mul 1 2) := by decide
theorem test_decode_udiv : decodeTableWord 16 0x8C21 = some (.udiv 1 2) := by decide
theorem test_decode_sdiv : decodeTableWord 16 0x8D21 = some (.sdiv 1 2) := by decide
theorem test_decode_umod : decodeTableWord 16 0x8E21 = some (.umod 1 2) := by decide
theorem test_decode_smod : decodeTableWord 16 0x8F21 = some (.smod 1 2) := by decide
theorem test_decode_lumul : decodeTableWord 16 0x9032 = some (.lumul 2 3) := by decide
theorem test_decode_lsmul : decodeTableWord 16 0x9132 = some (.lsmul 2 3) := by decide
theorem test_decode_udiv64 : decodeTableWord 16 0x9253 = some (.udiv64 3 5) := by decide
theorem test_decode_sdiv64 : decodeTableWord 16 0x9342 = some (.sdiv64 2 4) := by decide
theorem test_decode_umod64 : decodeTableWord 16 0x940C = some (.umod64 0xC 0) := by decide
theorem test_decode_smod64 : decodeTableWord 16 0x9542 = some (.smod64 2 4) := by decide
theorem test_decode_ldub : decodeTableWord 16 0x9621 = some (.ldub 1 2) := by decide
theorem test_decode_ldsb : decodeTableWord 16 0x9721 = some (.ldsb 1 2) := by decide
theorem test_decode_lduh : decodeTableWord 16 0x9821 = some (.lduh 1 2) := by decide
theorem test_decode_ldsh : decodeTableWord 16 0x9921 = some (.ldsh 1 2) := by decide
theorem test_decode_stb : decodeTableWord 16 0x9A21 = some (.stb 1 2) := by decide
theorem test_decode_sth : decodeTableWord 16 0x9B21 = some (.sth 1 2) := by decide
theorem test_decode_cpyFromSpecial : decodeTableWord 16 0x9C31 = some (.cpyFromSpecial 1 3) := by decide
theorem test_decode_cpyToSpecial : decodeTableWord 16 0x9D24 = some (.cpyToSpecial 4 2) := by decide
theorem test_decode_cpySpecial : decodeTableWord 16 0x9E12 = some (.cpySpecial 2 1) := by decide
theorem test_decode_index : decodeTableWord 16 0x9F03 = some (.index 3) := by decide
theorem test_decode_ldr : decodeTableWord 16 0xBC21 = some (.ldr 1 2 0x1C) := by decide
theorem test_decode_str : decodeTableWord 16 0xD021 = some (.str 1 2 0x10) := by decide
theorem test_decode_cmpb : decodeTableWord 16 0xE021 = some (.cmpb 1 2) := by decide
theorem test_decode_lsrb : decodeTableWord 16 0xE121 = some (.lsrb 1 2) := by decide
theorem test_decode_asrb : decodeTableWord 16 0xE221 = some (.asrb 1 2) := by decide
theorem test_decode_cmph : decodeTableWord 16 0xE421 = some (.cmph 1 2) := by decide
theorem test_decode_lsrh : decodeTableWord 16 0xE521 = some (.lsrh 1 2) := by decide
theorem test_decode_asrh : decodeTableWord 16 0xE621 = some (.asrh 1 2) := by decide
theorem test_decode_ldrSpecial : decodeTableWord 16 0xE821 = some (.ldrSpecial 1 2) := by decide
theorem test_decode_ldrSpecialAt : decodeTableWord 16 0xE910 = some (.ldrSpecialAt 0 1) := by decide
theorem test_decode_strSpecial : decodeTableWord 16 0xEA20 = some (.strSpecial 0 2) := by decide
theorem test_decode_strSpecialAt : decodeTableWord 16 0xEB25 = some (.strSpecialAt 5 2) := by decide
theorem test_decode_icreload : decodeTableWord 16 0xED01 = some (.icreload 1 0x10) := by decide
theorem test_decode_lpre : decodeTableWord 32 0xA2B31091 = some (.lpre 0x091A2B3) := by decide
theorem test_unassigned_group0 : decodeTableWord 16 0x1800 = none := by decide
theorem test_unassigned_group2 : decodeTableWord 16 0x5F21 = none := by decide
theorem test_unassigned_group7_narrow : decodeTableWord 16 0xE700 = none := by decide
theorem test_unassigned_group7_low : decodeTableWord 16 0xEE00 = none := by decide
theorem test_unassigned_group7_high : decodeTableWord 16 0xFFFF = none := by decide
theorem test_asm_text : asmText (.ldr 1 2 0x1C) = "ldr r1, [r2, #-4]" ∧ asmText (.add true 1 0xF) = "add.f r1, sp" ∧
    asmText (.cpyFromSpecial 0xD 4) = "cpy lr, ity" := by decide

/-! One step of each instruction. -/
theorem test_pre :
    after (exec (.pre 0x01F) (regs [])) (fun t => (t.preHave, t.preData, t.pc)) = some (true, 0x01F, 0x1002) := by decide
theorem test_pre_after_pre :
    after (exec (.pre 2) (withIndex 9 (withPre 1 (regs [])))) (fun t => (t.preHave, t.indexHave, t.pc)) = some (false, false, 0x1002) := by decide
theorem test_lpre :
    after (exec (.lpre 0x091A2B3) (regs [])) (fun t => (t.lpreHave, t.lpreData, t.pc)) = some (true, 0x091A2B3, 0x1004) := by decide
theorem test_lpre_after_lpre :
    after (exec (.lpre 5) (withLpre 1 (regs []))) (fun t => (t.lpreHave, t.pc)) = some (false, 0x1004) := by decide
theorem test_index :
    after (exec (.index 3) (withPre 1 (regs [(3, 0x100)]))) (fun t => (t.indexHave, t.indexReg, t.preHave, t.pc)) = some (true, 0x100, true, 0x1002) := by decide
theorem test_index_after_index :
    after (exec (.index 4) (withIndex 0x100 (withPre 1 (regs [])))) (fun t => (t.indexHave, t.preHave)) = some (false, false) := by decide
theorem test_addImm :
    after (exec (.addImm 1 0x1D) (regs [(1, 5)])) (fun t => (t.reg 1, t.pc)) = some (2, 0x1002) := by decide
theorem test_addImm_with_pre :
    after (exec (.addImm 1 8) (withPre 0x01F (regs [(1, 5)]))) (fun t => (t.reg 1, t.pc)) = some (1005, 0x1002) := by decide
theorem test_addPcImm :
    after (exec (.addPcImm 1 4) (regs [])) (fun t => (t.reg 1, t.pc)) = some (0x1006, 0x1002) := by decide
theorem test_addPcImm_with_pre :
    after (exec (.addPcImm 1 0) (withPre 8 (regs []))) (fun t => (t.reg 1, t.pc)) = some (0x1102, 0x1002) := by decide
theorem test_addSpImm :
    after (exec (.addSpImm 1 8) (regs [(0xF, 0x8000)])) (fun t => (t.reg 1, t.pc)) = some (0x8008, 0x1002) := by decide
theorem test_addFpImm :
    after (exec (.addFpImm 1 0x1C) (regs [(0xE, 0x7000)])) (fun t => (t.reg 1, t.pc)) = some (0x6FFC, 0x1002) := by decide
theorem test_cmpImm :
    after (exec (.cmpImm 1 6) (regs [(1, 5)])) (fun t => (zcvn t, t.reg 1)) = some ((false, false, false, true), 5) := by decide
theorem test_cmpImm_overflow :
    after (exec (.cmpImm 1 1) (regs [(1, 0x80000000)])) (fun t => zcvn t) = some (false, true, true, false) := by decide
theorem test_cpyImm :
    after (exec (.cpyImm 1 0x1F) (regs [])) (fun t => (t.reg 1, t.pc)) = some (0xFFFFFFFF, 0x1002) := by decide
theorem test_cpyImm_with_lpre :
    after (exec (.cpyImm 1 0x18) (withLpre 0x091A2B3 (regs []))) (fun t => (t.reg 1, t.pc)) = some (0x12345678, 0x1002) := by decide
theorem test_lslImm :
    after (exec (.lslImm 1 0x1F) (regs [(1, 3)])) (fun t => (t.reg 1, t.pc)) = some (0x80000000, 0x1002) := by decide
theorem test_lsrImm :
    after (exec (.lsrImm 1 4) (regs [(1, 0x87654321)])) (fun t => (t.reg 1, t.pc)) = some (0x08765432, 0x1002) := by decide
theorem test_asrImm :
    after (exec (.asrImm 1 4) (regs [(1, 0x87654321)])) (fun t => (t.reg 1, t.pc)) = some (0xF8765432, 0x1002) := by decide
theorem test_andImm :
    after (exec (.andImm 1 0x10) (regs [(1, 0x12345678)])) (fun t => (t.reg 1, t.pc)) = some (0x12345670, 0x1002) := by decide
theorem test_andImm_with_pre :
    after (exec (.andImm 1 0x1F) (withPre 7 (regs [(1, 0x12345678)]))) (fun t => (t.reg 1, t.pc)) = some (0x78, 0x1002) := by decide
theorem test_orrImm :
    after (exec (.orrImm 1 1) (regs [(1, 0x12345678)])) (fun t => (t.reg 1, t.pc)) = some (0x12345679, 0x1002) := by decide
theorem test_xorImm :
    after (exec (.xorImm 1 0x1F) (regs [(1, 0x12345678)])) (fun t => (t.reg 1, t.pc)) = some (0xEDCBA987, 0x1002) := by decide
theorem test_zeImm :
    after (exec (.zeImm 1 0x1F) (regs [(1, 0xF2345678)])) (fun t => (t.reg 1, t.pc)) = some (0x72345678, 0x1002) := by decide
theorem test_zeImm_zero :
    after (exec (.zeImm 1 0) (regs [(1, 0xF2345678)])) (fun t => (t.reg 1, t.pc)) = some (0, 0x1002) := by decide
theorem test_seImm :
    after (exec (.seImm 1 7) (regs [(1, 0x123456F8)])) (fun t => (t.reg 1, t.pc)) = some (0xFFFFFFF8, 0x1002) := by decide
theorem test_seImm_positive :
    after (exec (.seImm 1 7) (regs [(1, 0x12345678)])) (fun t => (t.reg 1, t.pc)) = some (0x78, 0x1002) := by decide
theorem test_swiReg :
    after (exec (.swiReg 1 3) ({ regs [(1, 0x10)] with ids := 0x2000, ie := true })) (fun t => (t.sty, t.ity, t.ira, t.pc, t.ie)) = some (0x13, true, 0x1002, 0x2000, false) := by decide
theorem test_swiImm :
    after (exec (.swiImm 0) (withPre 1 { regs [] with ids := 0x2000 })) (fun t => (t.sty, t.ity, t.ira, t.pc)) = some (0x20, true, 0x1002, 0x2000) := by decide
theorem test_swiImm_masked :
    after (exec (.swiImm 7) (setting (fun p => { p with swiMaskedByIe := true }) { regs [] with ids := 0x2000 })) (fun t => (t.pc, t.ira, t.ity)) = some (0x1002, 0, false) := by decide
theorem test_add :
    after (exec (.add true 1 2) (regs [(1, 0x7FFFFFFF), (2, 1)])) (fun t => (t.reg 1, zcvn t)) = some (0x80000000, (false, false, true, true)) := by decide
theorem test_add_keeps_flags :
    after (exec (.add false 1 2) (flagged true true true true (regs [(1, 1), (2, 2)]))) (fun t => (t.reg 1, zcvn t)) = some (3, (true, true, true, true)) := by decide
theorem test_sub :
    after (exec (.sub true 1 2) (regs [(1, 6), (2, 5)])) (fun t => (t.reg 1, zcvn t)) = some (1, (false, true, false, false)) := by decide
theorem test_sub_borrow :
    after (exec (.sub true 1 2) (regs [(1, 5), (2, 6)])) (fun t => (t.reg 1, zcvn t)) = some (0xFFFFFFFF, (false, false, false, true)) := by decide
theorem test_addSp :
    after (exec (.addSp true 1 2) (regs [(0xF, 0x8000), (2, 0x10)])) (fun t => (t.reg 1, zcvn t)) = some (0x8010, (false, false, false, false)) := by decide
theorem test_addFp :
    after (exec (.addFp true 1 2) (regs [(0xE, 0x7000), (2, 0xFFFF9000)])) (fun t => (t.reg 1, zcvn t)) = some (0, (true, true, false, false)) := by decide
theorem test_cmp :
    after (exec (.cmp 1 2) (regs [(1, 0x7FFFFFFF), (2, 0x80000000)])) (fun t => zcvn t) = some (false, false, true, true) := by decide
theorem test_cmp_equal :
    after (exec (.cmp 1 2) (regs [(1, 5), (2, 5)])) (fun t => zcvn t) = some (true, true, false, false) := by decide
theorem test_cpy :
    after (exec (.cpy true 1 2) (flagged true true true false (regs [(2, 0x80000000)]))) (fun t => (t.reg 1, zcvn t)) = some (0x80000000, (false, true, true, true)) := by decide
theorem test_lsl :
    after (exec (.lsl true 1 2) (flagged false true true true (regs [(1, 0x80000000), (2, 1)]))) (fun t => (t.reg 1, zcvn t)) = some (0, (true, true, true, false)) := by decide
theorem test_lsr :
    after (exec (.lsr true 1 2) (regs [(1, 0x87654321), (2, 4)])) (fun t => (t.reg 1, zcvn t)) = some (0x08765432, (false, false, false, false)) := by decide
theorem test_asr :
    after (exec (.asr true 1 2) (regs [(1, 0x87654321), (2, 4)])) (fun t => (t.reg 1, zcvn t)) = some (0xF8765432, (false, false, false, true)) := by decide
theorem test_and :
    after (exec (.and true 1 2) (flagged false true true false (regs [(1, 0xF0F0F0F0), (2, 0x0F0F0F0F)]))) (fun t => (t.reg 1, zcvn t)) = some (0, (true, true, true, false)) := by decide
theorem test_orr :
    after (exec (.orr true 1 2) (regs [(1, 0xF0F0F0F0), (2, 0x0F0F0F0F)])) (fun t => (t.reg 1, zcvn t)) = some (0xFFFFFFFF, (false, false, false, true)) := by decide
theorem test_xor :
    after (exec (.xor true 1 1) (regs [(1, 0xF0F0F0F0)])) (fun t => (t.reg 1, zcvn t)) = some (0, (true, false, false, false)) := by decide
theorem test_adc :
    after (exec (.adc true 1 2) (flagged false true false false (regs [(1, 0xFFFFFFFF), (2, 0xFFFFFFFF)]))) (fun t => (t.reg 1, zcvn t)) = some (0xFFFFFFFF, (false, true, false, true)) := by decide
theorem test_adc_overflow :
    after (exec (.adc true 1 2) (flagged false true false false (regs [(1, 0x7FFFFFFF), (2, 0)]))) (fun t => (t.reg 1, zcvn t)) = some (0x80000000, (false, false, true, true)) := by decide
theorem test_sbc :
    after (exec (.sbc true 1 2) (flagged false true false false (regs [(1, 5), (2, 3)]))) (fun t => (t.reg 1, zcvn t)) = some (2, (false, true, false, false)) := by decide
theorem test_sbc_borrow :
    after (exec (.sbc true 1 2) (regs [(1, 5), (2, 3)])) (fun t => (t.reg 1, zcvn t)) = some (1, (false, true, false, false)) := by decide
theorem test_cmpbc :
    after (exec (.cmpbc 1 2) (flagged true true false false (regs [(1, 5), (2, 5)]))) (fun t => zcvn t) = some (true, true, false, false) := by decide
theorem test_cmpbc_keeps_nonzero :
    after (exec (.cmpbc 1 2) (flagged false true false false (regs [(1, 5), (2, 5)]))) (fun t => zcvn t) = some (false, true, false, false) := by decide
theorem test_bl :
    after (exec (.bl 0x20) (regs [])) (fun t => (t.reg 0xD, t.pc)) = some (0x1002, 0x1022) := by decide
theorem test_bl_with_pre :
    after (exec (.bl 0x100) (withPre 0 (regs []))) (fun t => (t.reg 0xD, t.pc)) = some (0x1002, 0x1102) := by decide
theorem test_bra :
    after (exec (.bra 0x1FE) (regs [])) (fun t => t.pc) = some 0x1000 := by decide
theorem test_bra_with_lpre :
    after (exec (.bra 0x56) (withLpre 0x091A { regs [] with pc := 0x1004 })) (fun t => t.pc) = some 0x12445C := by decide
theorem test_beq :
    after (exec (.beq 2) (flagged true false false false (regs []))) (fun t => t.pc) = some 0x1004 := by decide
theorem test_beq_not_taken :
    after (exec (.beq 3) (flagged false true true true (regs []))) (fun t => t.pc) = some 0x1002 := by decide
theorem test_bne :
    after (exec (.bne 2) (flagged false true true true (regs []))) (fun t => t.pc) = some 0x1004 := by decide
theorem test_bne_not_taken :
    after (exec (.bne 3) (flagged true false false false (regs []))) (fun t => t.pc) = some 0x1002 := by decide
theorem test_bmi :
    after (exec (.bmi 2) (flagged false false false true (regs []))) (fun t => t.pc) = some 0x1004 := by decide
theorem test_bmi_not_taken :
    after (exec (.bmi 3) (flagged true true true false (regs []))) (fun t => t.pc) = some 0x1002 := by decide
theorem test_bpl :
    after (exec (.bpl 2) (flagged true true true false (regs []))) (fun t => t.pc) = some 0x1004 := by decide
theorem test_bpl_not_taken :
    after (exec (.bpl 3) (flagged false false false true (regs []))) (fun t => t.pc) = some 0x1002 := by decide
theorem test_bvs :
    after (exec (.bvs 2) (flagged false false true false (regs []))) (fun t => t.pc) = some 0x1004 := by decide
theorem test_bvs_not_taken :
    after (exec (.bvs 3) (flagged true true false true (regs []))) (fun t => t.pc) = some 0x1002 := by decide
theorem test_bvc :
    after (exec (.bvc 2) (flagged true true false true (regs []))) (fun t => t.pc) = some 0x1004 := by decide
theorem test_bvc_not_taken :
    after (exec (.bvc 3) (flagged false false true false (regs []))) (fun t => t.pc) = some 0x1002 := by decide
theorem test_bgeu :
    after (exec (.bgeu 2) (flagged false true false false (regs []))) (fun t => t.pc) = some 0x1004 := by decide
theorem test_bgeu_not_taken :
    after (exec (.bgeu 3) (flagged true false true true (regs []))) (fun t => t.pc) = some 0x1002 := by decide
theorem test_bltu :
    after (exec (.bltu 2) (flagged true false true true (regs []))) (fun t => t.pc) = some 0x1004 := by decide
theorem test_bltu_not_taken :
    after (exec (.bltu 3) (flagged false true false false (regs []))) (fun t => t.pc) = some 0x1002 := by decide
theorem test_bgtu :
    after (exec (.bgtu 2) (flagged false true false false (regs []))) (fun t => t.pc) = some 0x1004 := by decide
theorem test_bgtu_not_taken :
    after (exec (.bgtu 3) (flagged true true false false (regs []))) (fun t => t.pc) = some 0x1002 := by decide
theorem test_bleu :
    after (exec (.bleu 2) (flagged true true false false (regs []))) (fun t => t.pc) = some 0x1004 := by decide
theorem test_bleu_not_taken :
    after (exec (.bleu 3) (flagged false true false false (regs []))) (fun t => t.pc) = some 0x1002 := by decide
theorem test_bges :
    after (exec (.bges 2) (flagged false false true true (regs []))) (fun t => t.pc) = some 0x1004 := by decide
theorem test_bges_not_taken :
    after (exec (.bges 3) (flagged false false false true (regs []))) (fun t => t.pc) = some 0x1002 := by decide
theorem test_blts :
    after (exec (.blts 2) (flagged false false false true (regs []))) (fun t => t.pc) = some 0x1004 := by decide
theorem test_blts_not_taken :
    after (exec (.blts 3) (flagged false false true true (regs []))) (fun t => t.pc) = some 0x1002 := by decide
theorem test_bgts :
    after (exec (.bgts 2) (flagged false false false false (regs []))) (fun t => t.pc) = some 0x1004 := by decide
theorem test_bgts_not_taken :
    after (exec (.bgts 3) (flagged true false false false (regs []))) (fun t => t.pc) = some 0x1002 := by decide
theorem test_bles :
    after (exec (.bles 2) (flagged true false false false (regs []))) (fun t => t.pc) = some 0x1004 := by decide
theorem test_bles_not_taken :
    after (exec (.bles 3) (flagged false false false false (regs []))) (fun t => t.pc) = some 0x1002 := by decide
theorem test_jl :
    after (exec (.jl 3) (regs [(3, 0x2000)])) (fun t => (t.reg 0xD, t.pc)) = some (0x1002, 0x2000) := by decide
theorem test_jl_lr :
    after (exec (.jl 0xD) (regs [(0xD, 0x2000)])) (fun t => (t.reg 0xD, t.pc)) = some (0x1002, 0x2000) := by decide
theorem test_jmp :
    after (exec (.jmp 0xD) (regs [(0xD, 0x1234)])) (fun t => t.pc) = some 0x1234 := by decide
theorem test_jmp_odd : faults (exec (.jmp 1) (regs [(1, 0x1001)])) .misalignedPc = true := by decide
theorem test_jmpIra :
    after (exec (.jmpIra) ({ regs [] with ira := 0x3000 })) (fun t => (t.pc, t.ie)) = some (0x3000, false) := by decide
theorem test_reti :
    after (exec (.reti) ({ regs [] with ira := 0x3000 })) (fun t => (t.pc, t.ie)) = some (0x3000, true) := by decide
theorem test_ei :
    after (exec (.ei) (regs [])) (fun t => (t.ie, t.pc)) = some (true, 0x1002) := by decide
theorem test_di :
    after (exec (.di) ({ regs [] with ie := true })) (fun t => (t.ie, t.pc)) = some (false, 0x1002) := by decide
theorem test_push :
    after (exec (.push 1 0xF) (regs [(0xF, 0x8000), (1, 0x11223344)])) (fun t => (bytesAt t 0x8000 4, t.reg 0xF)) = some ([0x11, 0x22, 0x33, 0x44], 0x7FFC) := by decide
theorem test_push_itself :
    after (exec (.push 0xF 0xF) (regs [(0xF, 0x8001)])) (fun t => (t.mem, t.reg 0xF, t.pc)) = some ([], 0x8001, 0x1002) := by decide
theorem test_pushSpecial :
    after (exec (.pushSpecial 0 0xF) (flagged false true false true (regs [(0xF, 0x8000)]))) (fun t => (bytesAt t 0x8000 4, t.reg 0xF)) = some ([0, 0, 0, 0x0A], 0x7FFC) := by decide
theorem test_pop :
    after (exec (.pop 1 0xF) (bytes 0x8000 [0xCA, 0xFE, 0xBA, 0xBE] (regs [(0xF, 0x7FFC)]))) (fun t => (t.reg 1, t.reg 0xF)) = some (0xCAFEBABE, 0x8000) := by decide
theorem test_popSpecial :
    after (exec (.popSpecial 0 0xF) (bytes 0x8000 [0xFF, 0xFF, 0xFF, 0xF5] (regs [(0xF, 0x7FFC)]))) (fun t => (zcvn t, t.reg 0xF)) = some ((true, false, true, false), 0x8000) := by decide
theorem test_popPc :
    after (exec (.popPc 0xF) (bytes 0x8002 [0x12, 0x36] (regs [(0xF, 0x7FFC)]))) (fun t => (t.pc, t.reg 0xF)) = some (0x1236, 0x8000) := by decide
theorem test_mul :
    after (exec (.mul 1 2) (regs [(1, 0xFFFFFFFF), (2, 0xFFFFFFFF)])) (fun t => (t.reg 1, t.pc)) = some (1, 0x1002) := by decide
theorem test_udiv :
    after (exec (.udiv 1 2) (regs [(1, 0xFFFFFFFE), (2, 2)])) (fun t => (t.reg 1, t.pc)) = some (0x7FFFFFFF, 0x1002) := by decide
theorem test_sdiv :
    after (exec (.sdiv 1 2) (regs [(1, 0xFFFFFF9C), (2, 7)])) (fun t => (t.reg 1, t.pc)) = some (0xFFFFFFF2, 0x1002) := by decide
theorem test_umod :
    after (exec (.umod 1 2) (regs [(1, 0xFFFFFFFF), (2, 0x10)])) (fun t => (t.reg 1, t.pc)) = some (0xF, 0x1002) := by decide
theorem test_smod :
    after (exec (.smod 1 2) (regs [(1, 0xFFFFFF9C), (2, 7)])) (fun t => (t.reg 1, t.pc)) = some (0xFFFFFFFE, 0x1002) := by decide
theorem test_smod_negative_divisor :
    after (exec (.smod 1 2) (regs [(1, 100), (2, 0xFFFFFFF9)])) (fun t => (t.reg 1, t.pc)) = some (2, 0x1002) := by decide
theorem test_lumul :
    after (exec (.lumul 2 3) (regs [(2, 0x12345678), (3, 0x9ABCDEF0)])) (fun t => (t.reg 0, t.reg 1)) = some (0x0B00EA4E, 0x242D2080) := by decide
theorem test_lumul_sources_are_r0_r1 :
    after (exec (.lumul 0 1) (regs [(0, 0x80000000), (1, 4)])) (fun t => (t.reg 0, t.reg 1)) = some (2, 0) := by decide
theorem test_lsmul :
    after (exec (.lsmul 2 3) (regs [(2, 0xFFFFFFFE), (3, 3)])) (fun t => (t.reg 0, t.reg 1)) = some (0xFFFFFFFF, 0xFFFFFFFA) := by decide
theorem test_udiv64 :
    after (exec (.udiv64 3 5) (regs [(2, 1), (5, 3)])) (fun t => (t.reg 2, t.reg 3)) = some (0, 0x55555555) := by decide
theorem test_sdiv64 :
    after (exec (.sdiv64 2 4) (regs [(3, 100), (4, 0xFFFFFFFF), (5, 0xFFFFFFF9)])) (fun t => (t.reg 2, t.reg 3)) = some (0xFFFFFFFF, 0xFFFFFFF2) := by decide
theorem test_umod64 :
    after (exec (.umod64 0xC 0) (regs [(0xC, 0x12345678), (0xD, 0x9ABCDEF0), (1, 0x00010000)])) (fun t => (t.reg 0xC, t.reg 0xD)) = some (0, 0xDEF0) := by decide
theorem test_smod64 :
    after (exec (.smod64 2 4) (regs [(2, 0xFFFFFFFF), (3, 0xFFFFFF9C), (5, 7)])) (fun t => (t.reg 2, t.reg 3)) = some (0xFFFFFFFF, 0xFFFFFFFE) := by decide
theorem test_ldub :
    after (exec (.ldub 1 2) (example2000 (regs [(2, 0x2001)]))) (fun t => (t.reg 1, t.pc)) = some (0xFF, 0x1002) := by decide
theorem test_ldub_with_index :
    after (exec (.ldub 1 2) (withIndex 5 (example2000 (regs [(2, 0x2000)])))) (fun t => (t.reg 1, t.pc)) = some (0xB2, 0x1002) := by decide
theorem test_ldsb :
    after (exec (.ldsb 1 2) (example2000 (regs [(2, 0x2000)]))) (fun t => (t.reg 1, t.pc)) = some (0xFFFFFF80, 0x1002) := by decide
theorem test_lduh :
    after (exec (.lduh 1 2) (example2000 (regs [(2, 0x2000)]))) (fun t => (t.reg 1, t.pc)) = some (0x80FF, 0x1002) := by decide
theorem test_lduh_split :
    after (exec (.lduh 1 2) (setting (fun p => { p with misalignedData := .split }) (example2000 (regs [(2, 0x2001)])))) (fun t => (t.reg 1, t.pc)) = some (0xFF7F, 0x1002) := by decide
theorem test_ldsh :
    after (exec (.ldsh 1 2) (withIndex 0xFFFFFFFC (example2000 (regs [(2, 0x2008)])))) (fun t => (t.reg 1, t.pc)) = some (0xFFFFA1B2, 0x1002) := by decide
theorem test_ldsh_odd : faults (exec (.ldsh 1 2) (regs [(2, 0x2001)])) .misalignedData = true := by decide
theorem test_stb :
    after (exec (.stb 1 2) (example2000 (regs [(1, 0x12345678), (2, 0x2001)]))) (fun t => bytesAt t 0x2000 4) = some [0x80, 0x78, 0x7F, 0x01] := by decide
theorem test_sth :
    after (exec (.sth 1 2) (example2000 (regs [(1, 0x12345678), (2, 0x2002)]))) (fun t => bytesAt t 0x2000 4) = some [0x80, 0xFF, 0x56, 0x78] := by decide
theorem test_cpyFromSpecial :
    after (exec (.cpyFromSpecial 1 0) (flagged true false false true (regs []))) (fun t => (t.reg 1, t.pc)) = some (9, 0x1002) := by decide
theorem test_cpyFromSpecial_reserved : faults (exec (.cpyFromSpecial 1 6) (regs [])) .reservedSreg = true := by decide
theorem test_cpyToSpecial :
    after (exec (.cpyToSpecial 4 2) (regs [(2, 0xFFFFFFFF)])) (fun t => (t.ity, t.pc)) = some (true, 0x1002) := by decide
theorem test_cpySpecial :
    after (exec (.cpySpecial 5 0) (flagged true false false true (regs []))) (fun t => t.sty) = some 9 := by decide
theorem test_ldr :
    after (exec (.ldr 1 2 0x1C) (example2000 (regs [(2, 0x2008)]))) (fun t => (t.reg 1, t.pc)) = some (0xA1B2C3D4, 0x1002) := by decide
theorem test_ldr_with_index_and_pre :
    after (exec (.ldr 1 2 0) (withIndex 0x104 (withPre 0xFF8 (example2000 (regs [(2, 0x2000)]))))) (fun t => (t.reg 1, t.pc)) = some (0xA1B2C3D4, 0x1002) := by decide
theorem test_str :
    after (exec (.str 1 2 0x10) (regs [(1, 0xDEADBEEF), (2, 0x2018)])) (fun t => (bytesAt t 0x2008 4, t.staleLines)) = some ([0xDE, 0xAD, 0xBE, 0xEF], [0x2000]) := by decide
theorem test_str_misaligned : faults (exec (.str 1 2 2) (regs [(2, 0x2000)])) .misalignedData = true := by decide
theorem test_cmpb :
    after (exec (.cmpb 1 2) (regs [(1, 0x80), (2, 0x7F)])) (fun t => zcvn t) = some (false, true, true, false) := by decide
theorem test_cmpb_upper_bits :
    after (exec (.cmpb 1 2) (regs [(1, 0x12345680), (2, 0xFFFFFF80)])) (fun t => zcvn t) = some (true, true, false, false) := by decide
theorem test_cmph :
    after (exec (.cmph 1 2) (regs [(1, 0x7FFF), (2, 0x8000)])) (fun t => zcvn t) = some (false, false, true, true) := by decide
theorem test_lsrb :
    after (exec (.lsrb 1 2) (regs [(1, 0x123456F0), (2, 4)])) (fun t => (t.reg 1, t.pc)) = some (0xF, 0x1002) := by decide
theorem test_lsrb_merge :
    after (exec (.lsrb 1 2) (setting (fun p => { p with narrowShiftWriteback := .merge }) (regs [(1, 0x123456F0), (2, 4)]))) (fun t => (t.reg 1, t.pc)) = some (0x1234560F, 0x1002) := by decide
theorem test_asrb :
    after (exec (.asrb 1 2) (regs [(1, 0x123456F0), (2, 4)])) (fun t => (t.reg 1, t.pc)) = some (0xFFFFFFFF, 0x1002) := by decide
theorem test_asrb_merge :
    after (exec (.asrb 1 2) (setting (fun p => { p with narrowShiftWriteback := .merge }) (regs [(1, 0x123456F0), (2, 4)]))) (fun t => (t.reg 1, t.pc)) = some (0x123456FF, 0x1002) := by decide
theorem test_lsrh :
    after (exec (.lsrh 1 2) (regs [(1, 0xFFFF8000), (2, 15)])) (fun t => (t.reg 1, t.pc)) = some (1, 0x1002) := by decide
theorem test_asrh :
    after (exec (.asrh 1 2) (regs [(1, 0x1234F000), (2, 4)])) (fun t => (t.reg 1, t.pc)) = some (0xFFFFFF00, 0x1002) := by decide
theorem test_ldrSpecial :
    after (exec (.ldrSpecial 1 2) (bytes 0x2002 [0x40, 0x00] (regs [(2, 0x2000)]))) (fun t => t.ids) = some 0x4000 := by decide
theorem test_ldrSpecialAt :
    after (exec (.ldrSpecialAt 0 1) (bytes 0x4003 [0x0A] { regs [] with ids := 0x4000 })) (fun t => zcvn t) = some (false, true, false, true) := by decide
theorem test_strSpecial :
    after (exec (.strSpecial 0 2) (flagged true true true true (regs [(2, 0x3000)]))) (fun t => bytesAt t 0x3000 4) = some [0, 0, 0, 0x0F] := by decide
theorem test_strSpecialAt :
    after (exec (.strSpecialAt 5 2) ({ regs [] with sty := 0x11223344, ira := 0x3000 })) (fun t => bytesAt t 0x3000 4) = some [0x11, 0x22, 0x33, 0x44] := by decide
theorem test_strSpecialAt_misaligned : faults (exec (.strSpecialAt 3 3) ({ regs [] with ie := true })) .misalignedData = true := by decide
theorem test_icreload :
    after (exec (.icreload 1 4) ({ regs [(1, 0x203C)] with staleLines := [0x2000, 0x2040] })) (fun t => (t.staleLines, t.icache.map (fun c => c.base))) = some ([0x2000], [0x2040]) := by decide

/-! Steps: fetch, the interrupt check, unassigned encodings, and the placing of an instruction. -/
theorem test_step_runs_the_placed_word :
    after (step ((regs [(1, 5)]).withFetchWord 16 0x3D01)) (fun t => (t.reg 1, t.pc)) = some (2, 0x1002) := by decide

theorem test_step_runs_a_placed_lpre :
    after (step ((regs []).withFetchWord 32 0xA2B31091)) (fun t => (t.lpreHave, t.lpreData, t.pc)) =
      some (true, 0x091A2B3, 0x1004) := by decide

theorem test_step_reserved_encoding : faults (step ((regs []).withFetchWord 16 0x1800)) .reservedEncoding = true := by
  decide

theorem test_step_reserved_encoding_nop :
    after (step ((setting (fun p => { p with reservedEncoding := .nop }) (withPre 1 (regs []))).withFetchWord 16 0xFFFF))
      (fun t => (t.pc, t.preHave)) = some (0x1002, false) := by decide

theorem test_step_takes_the_irq :
    after (step { regs [] with irqLine := [true], ie := true, ids := 0x2000, sty := 0x55 })
      (fun t => (t.pc, t.ira, t.ity, t.ie, t.sty)) = some (0x2000, 0x1000, false, false, 0x55) := by decide

theorem test_step_holds_the_irq_off_under_index :
    after (step (bytes 0x1000 [0xA4, 0x21]
        (example2000 (withIndex 0x1000 { regs [(2, 0x1000)] with irqLine := [true, true], ie := true, ids := 0x2000 }))))
      (fun t => (t.reg 1, t.pc, t.indexHave, t.irqLine)) = some (0xA1B2C3D4, 0x1002, false, [true]) := by decide

theorem test_step_stale_fetch :
    faults (step { bytes 0x1000 [0x84, 0x00] (regs []) with staleLines := [0x1000] }) .staleFetch = true := by decide

theorem test_finished_run : (bytes 0x1000 [0x7F, 0xE1] (regs [])).runFinished = true := by decide

theorem test_push_pseudo : expand (.ldrIndexed 1 2 3) = [.index 3, .ldr 1 2 0] := by decide

/-! For every statement with hypotheses, concrete values that meet them, one witness for each clause, at the ends of its
range where it has one. -/

/-- With no region in the map every address is RAM. -/
theorem kindAt_all_ram {s : State} (h : s.params.memMap = []) (a : Word) : s.kindAt a = .ram := by
  simp [State.kindAt, h, kindIn]

/-- With no region in the map an aligned access is permitted. -/
theorem permits_all_ram {s : State} {a : Word} {n : Nat} (h : s.params.memMap = []) (ha : a.toNat % n = 0) :
    s.permits a n := ⟨.inr ha, fun _ _ => kindAt_all_ram h _⟩

/-- With no region in the map and split accesses any access is permitted. -/
theorem permits_split {s : State} {a : Word} {n : Nat} (h : s.params.memMap = [])
    (hs : s.params.misalignedData = .split) : s.permits a n := ⟨.inl hs, fun _ _ => kindAt_all_ram h _⟩

/-- A cache that holds nothing agrees with memory. -/
theorem coherent_of_empty {s : State} (h : s.icache = []) : s.cacheCoherent := by
  intro line bs _ hc
  rw [h] at hc
  cases hc

/-- With nothing written and every address RAM, an even `pc` can be fetched from. -/
theorem fetchable_of_clean {s : State} (n : Nat) (h : s.params.memMap = []) (hs : s.staleLines = [])
    (hp : s.pc.getLsbD 0 = false) : fetchable s n :=
  ⟨hp, fun _ _ => ⟨kindAt_all_ram h _, by simp [hs]⟩⟩

/-- The reset state with a split setting. -/
def split (s : State) : State := setting (fun p => { p with misalignedData := .split }) s

/-- The reset state with RAM below 0x2000, a device below 0x3000, and nothing above. -/
def smallMap (s : State) : State :=
  setting (fun p => { p with memMap := [⟨0, 0x2000, .ram⟩, ⟨0x2000, 0x1000, .device⟩, ⟨0, 0x100000000, .absent⟩] }) s

theorem witness_DecodedUnitMatchesItsRow :
    (decodeUnits 0x3D01 0 = .ok (.addImm 1 0x1D)) ∧ (decodeUnits 0x17FF 0xFFFF = .ok (.lpre 0x7FFFFFF)) ∧
      0x17FF#16 &&& (Instr.lpre 0).matchMask.2 = (Instr.lpre 0).matchMask.1 := ⟨rfl, rfl, by decide⟩

theorem witness_ImmediateWithoutPrefix :
    (regs []).preHave = false ∧ (regs []).lpreHave = false ∧ (0x0FE#9).getLsbD 0 = false ∧
      (regs []).imm9 0x0FE = 254 ∧ (regs []).imm9 0x100 = 0xFFFFFF00 ∧ (regs []).imm5 true 0x10 = 0xFFFFFFF0 ∧
      (regs []).imm5 false 0x1F = 31 := by decide

theorem witness_ImmediateWithPre :
    (withPre 0x800 (regs [])).preHave = true ∧ (withPre 0x800 (regs [])).lpreHave = false ∧
      (0x1FE#9).getLsbD 0 = false ∧ (withPre 0x800 (regs [])).imm5 false 0 = 0xFFFF0000 ∧
      (withPre 0x7FF (regs [])).imm9 0x1FE = 0x000FFFFE := by decide

theorem witness_ImmediateWithLpre :
    (withLpre 0x7FFFFFF (regs [])).lpreHave = true ∧ (withLpre 0x07FFFFF (regs [])).lpreHave = true ∧
      (withLpre 0x07FFFFF (regs [])).lpreData.toNat % 2 ^ 23 =
        (withLpre 0x7FFFFFF (regs [])).lpreData.toNat % 2 ^ 23 := by decide

theorem witness_OtherInstructionsEndPrefixes :
    ∃ t, exec .ei (withIndex 9 (withPre 1 (regs []))) = .next t ∧ (∀ imm, Instr.ei ≠ .pre imm) ∧
      (∀ imm, Instr.ei ≠ .lpre imm) ∧ (∀ a, Instr.ei ≠ .index a) ∧
      (withIndex 9 (withPre 1 (regs []))).indexHave = true ∧ t.indexHave = false :=
  ⟨_, rfl, by simp, by simp, by simp, rfl, rfl⟩

theorem witness_InterruptHoldOffIsBounded :
    ∃ t u, step (withPre 1 (bytes 0x1000 [0x9F, 0x03] (regs []))) = .next t ∧ step t = .next u ∧
      t.preHave = true ∧ t.indexHave = true ∧ u.preHave = false :=
  ⟨_, _, rfl, rfl, rfl, rfl, rfl⟩

theorem witness_SoftwareInterrupt :
    (regs []).ids.getLsbD 0 = false ∧ (regs []).params.swiMaskedByIe = false ∧
      (setting (fun p => { p with swiMaskedByIe := true }) { regs [] with ie := true, ids := 0xFFFFFFFE }).ids.getLsbD 0
        = false ∧
      (setting (fun p => { p with swiMaskedByIe := true }) { regs [] with ie := true }).ie = true := by decide

theorem witness_SoftwareInterruptMaskedOrOddVector :
    (setting (fun p => { p with swiMaskedByIe := true }) (regs [])).params.swiMaskedByIe = true ∧
      (setting (fun p => { p with swiMaskedByIe := true }) (regs [])).ie = false ∧
      (regs []).params.swiMaskedByIe = false ∧ ({ regs [] with ids := 1 } : State).ids.getLsbD 0 = true := by decide

theorem witness_AddAndSubtract :
    (Instr.sbc true 1 2 = .sbc true 1 2) ∧
      (-1 : Int) = ((regs []).reg 1).toNat - ((regs []).reg 2).toNat - (1 - (regs []).flags.c.toNat : Nat) ∧
      (3 : Int) = ((regs [(1, 1), (2, 2)]).reg 1).toNat + ((regs [(1, 1), (2, 2)]).reg 2).toNat := by decide

theorem witness_CopyAndLogic :
    Instr.xor true 1 1 = .xor true 1 1 ∧ (0 : Word) = (regs []).reg 1 ^^^ (regs []).reg 1 := by decide

theorem witness_DoubleWordAddAndSubtract :
    (1 : Reg) ≠ 0 ∧ (1 : Reg) ≠ 2 ∧
      (∃ t u, exec (.add true 1 3) (regs [(1, 0xFFFFFFFF), (3, 1)]) = .next t ∧ exec (.adc false 0 2) t = .next u) ∧
      (∃ t u, exec (.sub true 1 3) (regs [(3, 1)]) = .next t ∧ exec (.sbc false 0 2) t = .next u) :=
  ⟨by decide, by decide, ⟨_, _, rfl, rfl⟩, ⟨_, _, rfl, rfl⟩⟩

theorem witness_DoubleWordCompare :
    ∃ t u, exec (.cmp 1 3) (regs [(0, 1), (3, 0xFFFFFFFF)]) = .next t ∧ exec (.cmpbc 0 2) t = .next u :=
  ⟨_, _, rfl, rfl⟩

theorem witness_CallAndBranchAlways :
    (target (regs []) 0x1FE).getLsbD 0 = false ∧ (target (regs []) 1).getLsbD 0 = true := by decide

theorem witness_SingleFlagBranches :
    (flagged true true true true (regs [])).flags.z = true ∧ (target (regs []) 0x100).getLsbD 0 = false ∧
      (flagged false false false false (regs [])).flags.z = false := by decide

theorem witness_CombinedFlagBranches :
    (let s := flagged false true false false (regs []); (s.flags.c && !s.flags.z) = true) ∧
      (target (regs []) 0x0FE).getLsbD 0 = false ∧ (let s := regs []; (s.flags.c && !s.flags.z) = false) := by decide

theorem witness_CompareThenBranch :
    ∃ t, exec (.cmp 1 2) (regs [(1, 0x7FFFFFFF), (2, 0x80000000)]) = .next t ∧ (target t 2).getLsbD 0 = false ∧
      (((regs [(1, 0x7FFFFFFF), (2, 0x80000000)]).reg 1).toInt > ((regs [(1, 0x7FFFFFFF), (2, 0x80000000)]).reg 2).toInt) :=
  ⟨_, rfl, by decide, by decide⟩

theorem witness_OddTargetsFault :
    (target (flagged true true true true (regs [])) 1).getLsbD 0 = true ∧
      (target (flagged false false false false (regs [])) 0x1FF).getLsbD 0 = true ∧
      ((regs [(1, 0x1001)]).reg 1).getLsbD 0 = true ∧ ({ regs [] with ira := 1 } : State).ira.getLsbD 0 = true ∧
      (let s := bytes 0x2007 [1] (regs [(2, 0x2000)]); s.permits (s.reg 2 + 4) 4 ∧ wordAt s (s.reg 2 + 4) % 2 = 1) :=
  ⟨by decide, by decide, by decide, by decide, permits_all_ram rfl (by decide), by decide⟩

theorem witness_AbsoluteJumps :
    ((regs [(1, 0xFFFFFFFE)]).reg 1).getLsbD 0 = false ∧ ((regs [(1, 1)]).reg 1).getLsbD 0 = true := by decide

theorem witness_ReturnsFromInterrupt : ({ regs [] with ira := 0xFFFFFFFE } : State).ira.getLsbD 0 = false := by decide

theorem witness_InterruptEnable : Instr.ei = .ei ∧ Instr.di = .di := by decide

theorem witness_Pushes :
    (1 : Reg) ≠ 0xF ∧ (regs [(0xF, 0xFFFFFFFC)]).permits ((regs [(0xF, 0xFFFFFFFC)]).reg 0xF) 4 ∧
      (split (regs [(0xF, 0xFFFFFFFF)])).permits 0xFFFFFFFF 4 ∧ specialOf 5 = some .sty :=
  ⟨by decide, permits_all_ram rfl (by decide), permits_split rfl rfl, rfl⟩

theorem witness_Pops :
    (1 : Reg) ≠ 0xF ∧ (regs [(0xF, 0xFFFFFFFC)]).permits ((regs [(0xF, 0xFFFFFFFC)]).reg 0xF + 4) 4 ∧
      specialOf 0 = some .flags ∧ wordAt (regs [(0xF, 0xFFFFFFFC)]) ((regs [(0xF, 0xFFFFFFFC)]).reg 0xF + 4) % 2 = 0 :=
  ⟨by decide, permits_all_ram rfl (by decide), rfl, by decide⟩

theorem witness_PopAfterPush :
    (1 : Reg) ≠ 0xF ∧ (2 : Reg) ≠ 0xF ∧ (∃ t, exec (.push 1 0xF) (regs [(0xF, 0x8000), (1, 0x2000)]) = .next t) ∧
      ((regs [(0xF, 0x8000), (1, 0x2000)]).reg 1).getLsbD 0 = false :=
  ⟨by decide, by decide, ⟨_, rfl⟩, by decide⟩

theorem witness_UnsignedDivision :
    (2 : Reg) = 3 &&& 0xE#4 ∧ (3 : Reg) = 2 ||| 1#4 ∧ (4 : Reg) = 5 &&& 0xE#4 ∧ (5 : Reg) = 4 ||| 1#4 ∧
      ((regs [(5, 3)]).reg 5).toNat ≠ 0 ∧ pairValue ((regs [(5, 3)]).reg 4) ((regs [(5, 3)]).reg 5) ≠ 0 ∧
      ((regs []).reg 5).toNat = 0 ∧ pairValue ((regs []).reg 4) ((regs []).reg 5) = 0 := by decide

theorem witness_SignedDivision :
    (¬ (((regs [(2, 7)]).reg 2).toInt = 0 ∨ (((regs [(2, 7)]).reg 1).toInt = -2147483648 ∧
        ((regs [(2, 7)]).reg 2).toInt = -1))) ∧
      ((regs []).reg 2).toInt = 0 ∧ ((regs [(1, 0x80000000)]).reg 1).toInt = -2147483648 ∧
      ((regs [(2, 0xFFFFFFFF)]).reg 2).toInt = -1 := by decide

theorem witness_SignedDivisionOfPairs :
    (¬ ((((regs [(5, 7)]).reg 4 ++ (regs [(5, 7)]).reg 5 : BitVec 64)).toInt = 0)) ∧
      (¬ ((((regs [(5, 7)]).reg 4 ++ (regs [(5, 7)]).reg 5 : BitVec 64)).toInt = -1)) ∧
      (((regs []).reg 4 ++ (regs []).reg 5 : BitVec 64)).toInt = 0 ∧
      (((regs [(2, 0x80000000)]).reg 2 ++ (regs [(2, 0x80000000)]).reg 3 : BitVec 64)).toInt = -9223372036854775808 ∧
      (((regs [(4, 0xFFFFFFFF), (5, 0xFFFFFFFF)]).reg 4 ++ (regs [(4, 0xFFFFFFFF), (5, 0xFFFFFFFF)]).reg 5 :
        BitVec 64)).toInt = -1 := by decide

theorem witness_SignedDivisionIdentity :
    ((regs [(1, 0x80000000), (2, 7)]).reg 2).toInt ≠ 0 ∧ ((regs [(1, 0x80000000), (2, 7)]).reg 2).toInt ≠ -1 ∧
      (∃ t, exec (.sdiv 1 2) (regs [(1, 0x80000000), (2, 7)]) = .next t) ∧
      (∃ u, exec (.smod 1 2) (regs [(1, 0x80000000), (2, 7)]) = .next u) :=
  ⟨by decide, by decide, ⟨_, rfl⟩, ⟨_, rfl⟩⟩

theorem witness_Loads :
    (regs [(2, 0xFFFFFFFF)]).permits 0xFFFFFFFF 1 ∧ (regs [(2, 0xFFFFFFFE)]).permits 0xFFFFFFFE 2 ∧
      (regs [(2, 0xFFFFFFFC)]).permits 0xFFFFFFFC 4 ∧ (split (regs [(2, 0xFFFFFFFF)])).permits 0xFFFFFFFF 4 ∧
      (0xFFFFFFFF : Word) = (regs [(2, 0xFFFFFFFF)]).reg 2 +
        (if (regs [(2, 0xFFFFFFFF)]).indexHave = true then (regs [(2, 0xFFFFFFFF)]).indexReg else 0) :=
  ⟨permits_all_ram rfl (by decide), permits_all_ram rfl (by decide), permits_all_ram rfl (by decide),
    permits_split rfl rfl, by decide⟩

theorem witness_Stores :
    (regs [(2, 0xFFFFFFFF)]).permits ((regs [(2, 0xFFFFFFFF)]).narrowAddress 2) 1 ∧
      (regs [(2, 0xFFFFFFFE)]).permits ((regs [(2, 0xFFFFFFFE)]).narrowAddress 2) 2 ∧
      (regs [(2, 0xFFFFFFF0)]).permits ((regs [(2, 0xFFFFFFF0)]).wordAddress 2 0xC) 4 :=
  ⟨permits_all_ram rfl (by decide), permits_all_ram rfl (by decide), permits_all_ram rfl (by decide)⟩

theorem witness_LoadAfterStore :
    noPrefix (regs [(2, 0xFFFFFFFC), (1, 0x12345678)]) ∧
      ∃ t, exec (.str 1 2 0) (regs [(2, 0xFFFFFFFC), (1, 0x12345678)]) = .next t := ⟨⟨rfl, rfl, rfl⟩, ⟨_, rfl⟩⟩

theorem witness_SpecialCopies :
    fieldNames 0 .flags ∧ fieldNames 5 .sty ∧ ¬ fieldNames 6 .sty ∧
      specialValue (flagged true false false true (regs [])) .flags = 9 ∧
      ∃ t, writesSpecial (.cpyToSpecial 0 1) .flags 0xFFFFFFF5 [] (regs [(1, 0xFFFFFFF5)]) t ∧
        t.flags = { z := true, c := false, v := true, n := false } := by
  refine ⟨.inl ⟨rfl, rfl⟩, .inr (.inr (.inr (.inr (.inr ⟨rfl, rfl⟩)))), by unfold fieldNames; decide, rfl, _, ⟨rfl, rfl, ?_,
    fun _ _ => rfl, fun _ => rfl, ⟨rfl, rfl⟩, ⟨rfl, rfl⟩, ⟨rfl, rfl, rfl⟩, rfl⟩, rfl⟩
  intro p hp
  cases p <;> first
  | exact absurd rfl hp
  | rfl

theorem witness_NarrowShifts :
    ((regs [(2, 7)]).reg 2).toNat < 8 ∧ ¬ ((regs [(2, 8)]).reg 2).toNat < 8 ∧
      (regs []).params.narrowShiftWriteback = .extend ∧
      (setting (fun p => { p with narrowShiftWriteback := .merge }) (regs [])).params.narrowShiftWriteback = .merge := by
  decide

theorem witness_SpecialLoads :
    specialOf 0 = some .flags ∧ specialOf 5 = some .sty ∧ (regs [(2, 0xFFFFFFFC)]).permits 0xFFFFFFFC 4 ∧
      ({ regs [] with sty := 0x3000 } : State).permits (({ regs [] with sty := 0x3000 } : State).special .sty) 4 :=
  ⟨rfl, rfl, permits_all_ram rfl (by decide), permits_all_ram rfl (by decide)⟩

theorem witness_SpecialStores :
    specialOf 1 = some .ids ∧ specialOf 3 = some .ie ∧ (regs [(2, 0xFFFFFFFC)]).permits 0xFFFFFFFC 4 ∧
      (regs []).permits ((regs []).special .ie) 4 :=
  ⟨rfl, rfl, permits_all_ram rfl (by decide), permits_all_ram rfl (by decide)⟩

theorem witness_IcacheReload :
    (0xFFFFFFFF : Word) = (if (regs [(1, 0xFFFFFFFF)]).indexHave = true then (regs [(1, 0xFFFFFFFF)]).indexReg else 0) +
        (regs [(1, 0xFFFFFFFF)]).reg 1 + word (simm5 (regs [(1, 0xFFFFFFFF)]) 0) ∧
      (∀ k, k < 64 → (regs [(1, 0xFFFFFFFF)]).kindAt (BitVec.ofNat 32 ((0xFFFFFFFF : Word).toNat / 64 * 64 + k)) = .ram) ∧
      (0xFFFFFFC0 : Word).toNat / 64 = (0xFFFFFFFF : Word).toNat / 64 ∧
      (0xFFFFFFBF : Word).toNat / 64 ≠ (0xFFFFFFFF : Word).toNat / 64 :=
  ⟨by decide, fun _ _ => kindAt_all_ram rfl _, by decide, by decide⟩

theorem witness_MisalignedDataFaults :
    (regs []).params.misalignedData = .fault ∧ ((regs [(2, 0xFFFFFFFF)]).narrowAddress 2).toNat % 2 = 1 ∧
      ((regs [(2, 0xFFFFFFFE)]).wordAddress 2 0).toNat % 4 ≠ 0 ∧ ((regs [(2, 1)]).reg 2).toNat % 4 ≠ 0 ∧
      SpecialField.assigned 5 = true ∧ specialOf 3 = some .ie ∧
      (({ regs [] with ie := true } : State).special .ie).toNat % 4 ≠ 0 := by decide

theorem witness_ReservedSpecialFieldFaults : 6 ≤ (6 : SpecialField).toNat ∧ 6 ≤ (15 : SpecialField).toNat := by decide

/-- Data accesses: the first absent byte, the last byte of a split word alone absent, and a device's bytes alone. -/
theorem witness_AbsentAddressFaults :
    storesTo (smallMap (regs [(2, 0x3000)])) (.stb 1 2) 0x3000 1 ∧
      someByteIs (smallMap (regs [(2, 0x3000)])) .absent 0x3000 1 ∧
      (split (smallMap (regs [(2, 0x2FF9)]))).params.misalignedData = .split ∧
      loadsFrom (split (smallMap (regs [(2, 0x2FF9)]))) (.pop 1 2) 0x2FFD 4 ∧
      someByteIs (split (smallMap (regs [(2, 0x2FF9)]))) .absent 0x2FFD 4 ∧
      storesTo (smallMap (regs [(2, 0x2FFC)])) (.strSpecial 5 2) 0x2FFC 4 ∧ (0x2FFC : Word).toNat % 4 = 0 ∧
      ¬ someByteIs (smallMap (regs [(2, 0x2FFC)])) .absent 0x2FFC 4 ∧
      someByteIs (smallMap (regs [(2, 0x2FFC)])) .device 0x2FFC 4 := by
  refine ⟨.inl ⟨1, 2, rfl, rfl, rfl⟩, ?_, rfl, .inr (.inr (.inr (.inl ⟨1, 2, by decide, rfl, rfl, rfl⟩))), ?_,
    .inr (.inr (.inr (.inr (.inl ⟨5, 2, rfl, .inr rfl, rfl, rfl⟩)))), by decide, ?_, ?_⟩ <;>
    unfold someByteIs <;> decide

/-- The line of an `icreload`: with an absent byte, and with a device's bytes alone. -/
theorem witness_AbsentAddressFaults_line :
    someByteIs (smallMap (regs [])) .absent (BitVec.ofNat 32 ((0x303F : Word).toNat / 64 * 64)) 64 ∧
      ¬ someByteIs (smallMap (regs [])) .absent (BitVec.ofNat 32 ((0x2FFF : Word).toNat / 64 * 64)) 64 ∧
      someByteIs (smallMap (regs [])) .device (BitVec.ofNat 32 ((0x2FFF : Word).toNat / 64 * 64)) 64 := by
  refine ⟨⟨0, by decide, by decide⟩, fun h => ?_, ⟨0, by decide, by decide⟩⟩
  exact absurd ((touches_eq_true _ _ _ _).2 h) (by rw [Bool.not_eq_true]; rfl)

/-- A fetch: the unit at `pc` absent, or a device's; and an `lpre` in the last RAM unit, before a device's. -/
theorem witness_AbsentAddressFaults_fetch :
    noInterruptNow (smallMap ((regs []).setPc 0x3000)) ∧ (smallMap ((regs []).setPc 0x3000)).pcEven ∧
      someByteIs (smallMap ((regs []).setPc 0x3000)) .absent 0x3000 2 ∧
      ¬ someByteIs (smallMap ((regs []).setPc 0x2FFE)) .absent 0x2FFE 2 ∧
      someByteIs (smallMap ((regs []).setPc 0x2FFE)) .device 0x2FFE 2 ∧
      firstUnitIsLpre (smallMap (bytes 0x1FFE [0x10] ((regs []).setPc 0x1FFE))) ∧
      ¬ someByteIs (smallMap (bytes 0x1FFE [0x10] ((regs []).setPc 0x1FFE))) .absent 0x2000 2 ∧
      someByteIs (smallMap (bytes 0x1FFE [0x10] ((regs []).setPc 0x1FFE))) .device 0x2000 2 := by
  refine ⟨.inr (.inl rfl), rfl, ?_, ?_, ?_, ⟨⟨rfl, ?_⟩, by decide⟩, ?_, ?_⟩ <;> try unfold someByteIs
  all_goals decide

/-- A stale first unit, a stale second unit of an `lpre` that ends its line, and an odd `pc`. -/
theorem witness_StaleFetchFaults :
    noInterruptNow { regs [] with staleLines := [0x1000] } ∧ ({ regs [] with staleLines := [0x1000] } : State).pcEven ∧
      ({ regs [] with staleLines := [0x1000] } : State).ramAt 0x1000 2 ∧ lineOf 0x1000 ∈ [0x1000] ∧
      firstUnitIsLpre { bytes 0x103E [0x10] ((regs []).setPc 0x103E) with staleLines := [0x1040] } ∧
      ({ bytes 0x103E [0x10] ((regs []).setPc 0x103E) with staleLines := [0x1040] } : State).ramAt 0x1040 2 ∧
      lineOf 0x1040 ∈ [0x1040] ∧ ¬ ((regs []).setPc 0x1001).pcEven := by
  refine ⟨.inr (.inl rfl), rfl, fun _ _ => kindAt_all_ram rfl _, by decide, ⟨⟨rfl, ?_⟩, by decide⟩,
    fun _ _ => kindAt_all_ram rfl _, by decide, by simp [State.pcEven, State.setPc]⟩
  decide

/-- A push whose last byte alone stands in the line of the next instruction. -/
theorem witness_StaleFetchFaults_store :
    ∃ t, storesTo (split (regs [(2, 0xFFD)])) (.push 1 2) 0xFFD 4 ∧ exec (.push 1 2) (split (regs [(2, 0xFFD)])) = .next t ∧
      (split (regs [(2, 0xFFD)])).pcEven ∧ noInterruptNow t ∧ t.ramAt t.pc 2 ∧
      lineOf t.pc = lineOf (0xFFD + BitVec.ofNat 32 3) :=
  ⟨_, .inr (.inr (.inr (.inl ⟨1, 2, by decide, rfl, rfl, rfl⟩))), rfl, rfl, .inr (.inl rfl),
    fun _ _ => kindAt_all_ram rfl _, rfl⟩

theorem witness_StepRunsTheDecodedInstruction :
    noInterruptNow (bytes 0x1000 [0x8B, 0x21] (regs [])) ∧ (bytes 0x1000 [0x8B, 0x21] (regs [])).cacheCoherent ∧
      (∃ rest, decode (bytesAtPc (bytes 0x1000 [0x8B, 0x21] (regs []))) = .ok (.mul 1 2, rest)) ∧
      fetchable (bytes 0x1000 [0x8B, 0x21] (regs [])) (encode (.mul 1 2)).length :=
  ⟨.inr (.inl rfl), coherent_of_empty rfl, ⟨_, rfl⟩, fetchable_of_clean _ rfl rfl rfl⟩

theorem witness_StepRunsTheDecodedInstruction_long :
    noInterruptNow (bytes 0x1000 [0x10, 0x91, 0xA2, 0xB3] (regs [])) ∧
      (bytes 0x1000 [0x10, 0x91, 0xA2, 0xB3] (regs [])).cacheCoherent ∧
      (∃ rest, decode (bytesAtPc (bytes 0x1000 [0x10, 0x91, 0xA2, 0xB3] (regs []))) = .ok (.lpre 0x091A2B3, rest)) ∧
      fetchable (bytes 0x1000 [0x10, 0x91, 0xA2, 0xB3] (regs [])) (encode (.lpre 0x091A2B3)).length :=
  ⟨.inr (.inl rfl), coherent_of_empty rfl, ⟨_, rfl⟩, fetchable_of_clean _ rfl rfl rfl⟩

theorem witness_ReservedEncodingPolicy :
    noInterruptNow (bytes 0x1000 [0x18] (regs [])) ∧ (bytes 0x1000 [0x18] (regs [])).cacheCoherent ∧
      fetchable (bytes 0x1000 [0x18] (regs [])) 2 ∧
      decode (bytesAtPc (bytes 0x1000 [0x18] (regs []))) = .error .reservedGroup0 ∧
      (bytes 0x1000 [0x18] (regs [])).params.reservedEncoding = .fault ∧
      (setting (fun p => { p with reservedEncoding := .nop }) (bytes 0x1000 [0x18] (regs []))).params.reservedEncoding
        = .nop :=
  ⟨.inr (.inl rfl), coherent_of_empty rfl, fetchable_of_clean _ rfl rfl rfl, rfl, rfl, rfl⟩

theorem witness_InterruptEntry :
    ({ regs [] with irqLine := [true], ie := true } : State).irqLine = true :: [] ∧
      ({ regs [] with irqLine := [true], ie := true } : State).ie = true ∧
      noPrefix { regs [] with irqLine := [true], ie := true } ∧ (regs []).ids.getLsbD 0 = false ∧
      ({ regs [] with irqLine := [true], ie := true, ids := 1 } : State).ids.getLsbD 0 = true :=
  ⟨rfl, rfl, ⟨rfl, rfl, rfl⟩, rfl, rfl⟩

theorem witness_ReturnAfterEntryResumes :
    ∃ t u, ({ regs [] with irqLine := [true], ie := true } : State).irqLine.head? = some true ∧
      ({ regs [] with irqLine := [true], ie := true } : State).ie = true ∧
      noPrefix { regs [] with irqLine := [true], ie := true } ∧
      ({ regs [] with irqLine := [true], ie := true } : State).pcEven ∧
      step { regs [] with irqLine := [true], ie := true } = .next t ∧ exec .reti t = .next u :=
  ⟨_, _, rfl, rfl, ⟨rfl, rfl, rfl⟩, rfl, rfl, rfl⟩

theorem witness_WhoWritesTheSpecialRegisters :
    after (exec (.cmp 1 1) (regs [])) (fun t => decide (t.flags ≠ (regs []).flags)) = some true ∧
      after (exec (.cpyToSpecial 1 1) (regs [(1, 2)])) (fun t => decide (t.ids ≠ (regs []).ids)) = some true ∧
      after (exec .ei (regs [])) (fun t => decide (t.ie ≠ (regs []).ie)) = some true ∧
      after (exec (.swiImm 1) (regs [])) (fun t => decide (t.ira ≠ (regs []).ira ∧ t.ity ≠ (regs []).ity ∧
        t.sty ≠ (regs []).sty)) = some true := by decide

theorem witness_AssembledImmediateIsTheValue :
    noPrefix (regs []) ∧ prefixFor5 true 15 = ([], 15) ∧ prefixFor5 true 16 = ([.pre 0], 16) ∧
      prefixFor5 false 0x10000 = ([.lpre 0x800], 0) := ⟨⟨rfl, rfl, rfl⟩, by decide, by decide, by decide⟩

theorem witness_AssembledBranchReachesItsTarget :
    noPrefix (regs []) ∧ (regs []).pcEven ∧ (0x1104#32).getLsbD 0 = false ∧ takesBranch (regs []) .bleu ∧
      assembleBranch .bleu 0x1000 0x1100 = [.bleu 0x0FE] ∧
      assembleBranch .bleu 0x1000 0x1104 = [.pre 0, .bleu 0x100] ∧
      assembleBranch .bl 0x1000 0x80001006 = [.lpre 0x400000, .bl 0] :=
  ⟨⟨rfl, rfl, rfl⟩, rfl, by decide, by simp [takesBranch, regs, State.reset, State.resetFrom, ResetDraw.named],
    by decide, by decide, by decide⟩

theorem witness_StepKeepsTheInvariant :
    (bytes 0x1000 [0x84] (regs [])).Inv ∧ ∃ t, step (bytes 0x1000 [0x84] (regs [])) = .next t :=
  ⟨⟨rfl, fun h => absurd h.1 (by decide), rfl, rfl, rfl, coherent_of_empty rfl⟩, ⟨_, rfl⟩⟩

theorem witness_ResetHasTheInvariant :
    ({ ResetDraw.named with pc := 0xFFFFFFFE } : ResetDraw).pc.getLsbD 0 = false ∧ ResetDraw.named.mem.wf = true := by
  decide

end Sys2Proof.Tests
end

section
/-! PROOFS. Immediates (30_encoding.md R104, R105, R107): `IMM` as the sign-extension of the pattern that stands in the
instruction, with the data of `pre` above it, and the range of each. -/

namespace Sys2Proof.Proofs

open Sys2Proof.Machine Sys2Proof.Claims

/-! `sext` is the two's complement value of a bit vector. -/

theorem sext_toNat {n : Nat} (hn : 0 < n) (x : BitVec n) : sext n x.toNat = x.toInt := by
  obtain ⟨m, rfl⟩ : ∃ m, n = m + 1 := ⟨n - 1, by omega⟩
  have half : x.toNat < 2 ^ m ↔ 2 * x.toNat < 2 ^ (m + 1) := by omega
  simp [sext, BitVec.toInt_eq_toNat_cond, half]

theorem word_sext_toNat {n : Nat} (hn : 0 < n) (x : BitVec n) : word (sext n x.toNat) = x.signExtend 32 := by
  rw [sext_toNat hn]
  rfl

theorem le_sext_toNat {n : Nat} (hn : 0 < n) (x : BitVec n) : -2 ^ (n - 1) ≤ sext n x.toNat :=
  sext_toNat hn x ▸ x.le_toInt

theorem sext_toNat_le {n : Nat} (hn : 0 < n) (x : BitVec n) : sext n x.toNat ≤ 2 ^ (n - 1) - 1 :=
  sext_toNat hn x ▸ x.toInt_le

theorem toNat_even {n : Nat} {x : BitVec n} (h : x.getLsbD 0 = false) : x.toNat % 2 = 0 := by
  simpa [BitVec.getLsbD, Nat.testBit_zero] using h

/-- An even pattern stays one further below the bound (R210). -/
theorem sext_toNat_le_of_even {n : Nat} (hn : 2 ≤ n) {x : BitVec n} (h : x.getLsbD 0 = false) :
    sext n x.toNat ≤ 2 ^ (n - 1) - 2 := by
  obtain ⟨m, rfl⟩ : ∃ m, n = m + 2 := ⟨n - 2, by omega⟩
  have even := toNat_even h
  have lt := x.isLt
  simp only [sext, show m + 2 - 1 = m + 1 by omega, Int.pow_succ, Nat.pow_succ] at lt ⊢
  have cast : ((2 ^ m : Nat) : Int) = 2 ^ m := by simp
  split <;> omega

/-- Data above a field (R105, R107). -/
theorem toNat_append_field {m n : Nat} (x : BitVec m) (y : BitVec n) : (x ++ y).toNat = x.toNat * 2 ^ n + y.toNat := by
  rw [BitVec.toNat_append, ← Nat.shiftLeft_add_eq_or_of_lt y.isLt, Nat.shiftLeft_eq]

theorem append_even {m n : Nat} (x : BitVec m) {y : BitVec n} (hn : 0 < n) (h : y.getLsbD 0 = false) :
    (x ++ y).getLsbD 0 = false := by
  rw [BitVec.getLsbD_append, if_pos hn, h]

/-! `IMM` without `pre` and `lpre`, and with `pre`. -/

theorem imm5_signed_of_noPrefix {s : State} (hp : s.preHave = false) (hl : s.lpreHave = false) (i : BitVec 5) :
    s.imm5 true i = i.signExtend 32 := by
  simp [State.imm5, hp, hl]

theorem imm5_unsigned_of_noPrefix {s : State} (hp : s.preHave = false) (hl : s.lpreHave = false) (i : BitVec 5) :
    s.imm5 false i = i.setWidth 32 := by
  simp [State.imm5, hp, hl]

theorem imm9_of_noPrefix {s : State} (hp : s.preHave = false) (hl : s.lpreHave = false) (o : BitVec 9) :
    s.imm9 o = o.signExtend 32 := by
  simp [State.imm9, hp, hl]

theorem imm5_of_pre {s : State} (hp : s.preHave = true) (hl : s.lpreHave = false) (signed : Bool) (i : BitVec 5) :
    s.imm5 signed i = (s.preData ++ i).signExtend 32 := by
  simp [State.imm5, hp, hl]

theorem imm9_of_pre {s : State} (hp : s.preHave = true) (hl : s.lpreHave = false) (o : BitVec 9) :
    s.imm9 o = (s.preData ++ o).signExtend 32 := by
  simp [State.imm9, hp, hl]

theorem setWidth_eq_word {n : Nat} (x : BitVec n) : x.setWidth 32 = word x.toNat := by
  rw [word, BitVec.ofInt_natCast, BitVec.ofNat_toNat]

/-- Settles O5: each field is sign- or zero-extended by `imm5` and `imm9`, and a signed one lies in the range of its
width, an even branch offset at most two below the bound. -/
theorem immediateWithoutPrefix : Obligations.ImmediateWithoutPrefix := by
  intro s i o hp hl
  refine ⟨?_, le_sext_toNat (by decide) i, sext_toNat_le (by decide) i, ?_, Nat.le_of_lt_succ i.isLt, ?_,
    le_sext_toNat (by decide) o, sext_toNat_le_of_even (by decide)⟩
  · rw [imm5_signed_of_noPrefix hp hl, word_sext_toNat (by decide)]
  · rw [imm5_unsigned_of_noPrefix hp hl, setWidth_eq_word]
  · rw [imm9_of_noPrefix hp hl, word_sext_toNat (by decide)]

/-- Settles O6: with `preData` above the field the 17-bit and the 21-bit pattern is a bit vector, which `imm5` and `imm9`
sign-extend, so that its value lies in the range of its width. -/
theorem immediateWithPre : Obligations.ImmediateWithPre := by
  intro s i o hp hl
  have data5 : s.preData.toNat * 32 + i.toNat = (s.preData ++ i).toNat := (toNat_append_field s.preData i).symm
  have data9 : s.preData.toNat * 512 + o.toNat = (s.preData ++ o).toNat := (toNat_append_field s.preData o).symm
  rw [data5, data9, imm5_of_pre hp hl, imm5_of_pre hp hl, imm9_of_pre hp hl]
  have word5 := word_sext_toNat (by decide) (s.preData ++ i)
  have word9 := word_sext_toNat (by decide) (s.preData ++ o)
  exact ⟨word5.symm, word5.symm, le_sext_toNat (by decide) (s.preData ++ i), sext_toNat_le (by decide) (s.preData ++ i),
    word9.symm, le_sext_toNat (by decide) (s.preData ++ o),
    fun h => sext_toNat_le_of_even (by decide) (append_even s.preData (by decide) h)⟩

end Sys2Proof.Proofs
end

section
/-! PROOFS. The decoder and the opcode table (30_encoding.md R92, R93): a unit decodes to a form of a row exactly when
it agrees with the row's match under the row's mask. -/

namespace Sys2Proof.Proofs

theorem extract_bit (u : Half) (k : Nat) : u.extractLsb' k 1 = BitVec.ofBool (u.getLsbD k) := by
  apply BitVec.eq_of_getLsbD_eq
  intro j hj
  obtain rfl : j = 0 := by omega
  simp

/-! Masks as fields: agreeing under a mask is agreeing on the fields it covers. -/

/-- The ones of the field of `n` bits from bit `lo` up. -/
def fieldMask (lo n : Nat) : Half := (BitVec.allOnes n).setWidth 16 <<< lo

theorem fieldMask_bit (lo n k : Nat) :
    (fieldMask lo n).getLsbD k = (decide (k < 16) && decide (lo ≤ k) && decide (k < lo + n)) := by
  rw [fieldMask, BitVec.getLsbD_shiftLeft, BitVec.getLsbD_setWidth, BitVec.getLsbD_allOnes]
  grind

theorem agree_iff_bits (u v m : Half) :
    u &&& m = v &&& m ↔ ∀ k, m.getLsbD k = true → u.getLsbD k = v.getLsbD k := by
  constructor
  · intro h k hk
    simpa [hk] using congrArg (·.getLsbD k) h
  · intro h
    apply BitVec.eq_of_getLsbD_eq
    intro k _
    rw [BitVec.getLsbD_and, BitVec.getLsbD_and]
    cases hk : m.getLsbD k
    · simp
    · rw [h k hk]

theorem agree_fieldMask_iff (u v : Half) (lo n : Nat) :
    u &&& fieldMask lo n = v &&& fieldMask lo n ↔ u.extractLsb' lo n = v.extractLsb' lo n := by
  rw [agree_iff_bits]
  constructor
  · intro h
    apply BitVec.eq_of_getLsbD_eq
    intro k hk
    by_cases hb : lo + k < 16
    · simp [hk, h (lo + k) (by rw [fieldMask_bit]; simp [hb, hk])]
    · simp [BitVec.getLsbD_of_ge _ (lo + k) (Nat.le_of_not_lt hb)]
  · intro h k hk
    rw [fieldMask_bit] at hk
    simp only [Bool.and_eq_true, decide_eq_true_eq] at hk
    have bit := congrArg (·.getLsbD (k - lo)) h
    simpa [show k - lo < n by omega, show lo + (k - lo) = k by omega] using bit

theorem agree_bit_iff (u v : Half) (k : Nat) :
    u &&& fieldMask k 1 = v &&& fieldMask k 1 ↔ u.getLsbD k = v.getLsbD k := by
  rw [agree_fieldMask_iff, extract_bit, extract_bit, BitVec.ofBool_eq_iff_eq]

theorem agree_or_iff (u v m m' : Half) :
    u &&& (m ||| m') = v &&& (m ||| m') ↔ u &&& m = v &&& m ∧ u &&& m' = v &&& m' := by
  simp only [agree_iff_bits, BitVec.getLsbD_or, Bool.or_eq_true]
  grind

/-! The rows of the table, by format. -/

/-- A row of the opcode table (R92, R93): its format and the opcode that selects it there. -/
inductive Row where
  | pre | lpre
  | g1 (op : BitVec 4) | g2 (op : BitVec 4) | g3 (op : BitVec 4) | g4 (op : BitVec 5) | g5 | g6
  | narrow (w : Bool) (op : BitVec 2) | specialAccess (op : BitVec 2) | icreload

/-- The row's opcode is assigned (R97, R102; every other format assigns all its opcodes). -/
def Row.assigned : Row → Prop
  | .g2 op => op ≠ 0xF#4
  | .narrow _ op => op ≠ 3#2
  | _ => True

/-- The unit has the fixed bits of the row's format and the row's opcode. -/
def Row.holds (u : Half) : Row → Prop
  | .pre => u.extractLsb' 13 3 = 0#3 ∧ u.getLsbD 12 = false
  | .lpre => u.extractLsb' 13 3 = 0#3 ∧ u.getLsbD 12 = true ∧ u.getLsbD 11 = false
  | .g1 op => u.extractLsb' 13 3 = 1#3 ∧ u.extractLsb' 4 4 = op
  | .g2 op => u.extractLsb' 13 3 = 2#3 ∧ u.extractLsb' 8 4 = op
  | .g3 op => u.extractLsb' 13 3 = 3#3 ∧ u.extractLsb' 0 4 = op
  | .g4 op => u.extractLsb' 13 3 = 4#3 ∧ u.extractLsb' 8 5 = op
  | .g5 => u.extractLsb' 13 3 = 5#3
  | .g6 => u.extractLsb' 13 3 = 6#3
  | .narrow w op => u.extractLsb' 13 3 = 7#3 ∧ u.extractLsb' 11 2 = 0#2 ∧ u.getLsbD 10 = w ∧ u.extractLsb' 8 2 = op
  | .specialAccess op => u.extractLsb' 13 3 = 7#3 ∧ u.extractLsb' 10 3 = 2#3 ∧ u.extractLsb' 8 2 = op
  | .icreload => u.extractLsb' 13 3 = 7#3 ∧ u.extractLsb' 9 4 = 6#4

/-- The bits that `Row.holds` speaks of. -/
def Row.mask : Row → Half
  | .pre => fieldMask 13 3 ||| fieldMask 12 1
  | .lpre => fieldMask 13 3 ||| (fieldMask 12 1 ||| fieldMask 11 1)
  | .g1 _ => fieldMask 13 3 ||| fieldMask 4 4
  | .g2 _ => fieldMask 13 3 ||| fieldMask 8 4
  | .g3 _ => fieldMask 13 3 ||| fieldMask 0 4
  | .g4 _ => fieldMask 13 3 ||| fieldMask 8 5
  | .g5 | .g6 => fieldMask 13 3
  | .narrow _ _ => fieldMask 13 3 ||| (fieldMask 11 2 ||| (fieldMask 10 1 ||| fieldMask 8 2))
  | .specialAccess _ => fieldMask 13 3 ||| (fieldMask 10 3 ||| fieldMask 8 2)
  | .icreload => fieldMask 13 3 ||| fieldMask 9 4

/-- The row's unit with every operand 0. -/
def Row.matchWord : Row → Half
  | .pre => 0b0000#4 ++ 0#12
  | .lpre => 0b00010#5 ++ 0#11
  | .g1 op => encodeG1 op 0#5 0#4
  | .g2 op => encodeG2 false op 0#4 0#4
  | .g3 op => encodeG3 0#9 op
  | .g4 op => encodeG4 op 0#4 0#4
  | .g5 => encodeG56 5#3 0#5 0#4 0#4
  | .g6 => encodeG56 6#3 0#5 0#4 0#4
  | .narrow w op => encodeNarrow w op 0#4 0#4
  | .specialAccess op => encodeSpecialAccess op 0#4 0#4
  | .icreload => encodeIcreload 0#5 0#4

/-- The row's match and mask. -/
def Row.matchMask (r : Row) : Half × Half := (r.matchWord, r.mask)

theorem Row.matchWord_and_mask (r : Row) : r.matchWord &&& r.mask = r.matchWord := by
  cases r with
  | pre | lpre | g5 | g6 | icreload => decide
  | g1 op | g2 op | g3 op | g4 op | specialAccess op => revert op; decide
  | narrow w op => revert w op; decide

/-- R93's `w & mask == match`, said of the fields. -/
theorem Row.and_mask_iff_holds (r : Row) (u : Half) : u &&& r.mask = r.matchWord ↔ r.holds u := by
  have onFields : u &&& r.mask = r.matchWord ↔ u &&& r.mask = r.matchWord &&& r.mask := by
    rw [r.matchWord_and_mask]
  rw [onFields]
  cases r with
  | pre => simp only [mask, matchWord, holds, agree_or_iff, ↓agree_bit_iff, agree_fieldMask_iff, encodePre_group,
      encodePre_12]
  | lpre => simp only [mask, matchWord, holds, agree_or_iff, ↓agree_bit_iff, agree_fieldMask_iff, encodeLpreHead_group,
      encodeLpreHead_12, encodeLpreHead_11]
  | g1 op => simp only [mask, matchWord, holds, agree_or_iff, agree_fieldMask_iff, encodeG1_group, encodeG1_op]
  | g2 op => simp only [mask, matchWord, holds, agree_or_iff, agree_fieldMask_iff, encodeG2_group, encodeG2_op]
  | g3 op => simp only [mask, matchWord, holds, agree_or_iff, agree_fieldMask_iff, encodeG3_group, encodeG3_op]
  | g4 op => simp only [mask, matchWord, holds, agree_or_iff, agree_fieldMask_iff, encodeG4_group, encodeG4_op]
  | g5 | g6 => simp only [mask, matchWord, holds, agree_fieldMask_iff, encodeG56_group]
  | narrow w op => simp only [mask, matchWord, holds, agree_or_iff, ↓agree_bit_iff, agree_fieldMask_iff,
      encodeNarrow_group, encodeNarrow_sub, encodeNarrow_w, encodeNarrow_op]
  | specialAccess op => simp only [mask, matchWord, holds, agree_or_iff, agree_fieldMask_iff,
      encodeSpecialAccess_group, encodeSpecialAccess_sub, encodeSpecialAccess_op]
  | icreload => simp only [mask, matchWord, holds, agree_or_iff, agree_fieldMask_iff, encodeIcreload_group,
      encodeIcreload_sub]

/-! The form that each opcode of a format names has the row's match and mask. -/

theorem exists_ofNat {n : Nat} (x : BitVec n) : ∃ k, k < 2 ^ n ∧ x = BitVec.ofNat n k :=
  ⟨x.toNat, x.isLt, by simp⟩

theorem decodeGroup1_matchMask (op : BitVec 4) (i : BitVec 5) (a : Reg) :
    (decodeGroup1 op i a).matchMask = (Row.g1 op).matchMask := by
  obtain ⟨k, hk, rfl⟩ := exists_ofNat op
  interval_cases k <;> rfl

theorem decodeGroup2_matchMask {op : BitVec 4} (assigned : op ≠ 0xF#4) (f : Bool) (a b : Reg) :
    ∃ j, decodeGroup2 op f a b = .ok j ∧ j.matchMask = (Row.g2 op).matchMask := by
  obtain ⟨k, hk, rfl⟩ := exists_ofNat op
  have notLast : k ≠ 15 := fun e => assigned (e ▸ rfl)
  replace hk : k < 15 := by omega
  interval_cases k <;> exact ⟨_, rfl, rfl⟩

theorem decodeGroup3_matchMask (op : BitVec 4) (i : BitVec 9) :
    (decodeGroup3 op i).matchMask = (Row.g3 op).matchMask := by
  obtain ⟨k, hk, rfl⟩ := exists_ofNat op
  interval_cases k <;> rfl

theorem decodeGroup4_matchMask (op : BitVec 5) (a b : BitVec 4) :
    (decodeGroup4 op a b).matchMask = (Row.g4 op).matchMask := by
  obtain ⟨k, hk, rfl⟩ := exists_ofNat op
  interval_cases k <;> rfl

theorem decodeNarrow_matchMask (w : Bool) {op : BitVec 2} (assigned : op ≠ 3#2) (a b : Reg) :
    ∃ j, decodeNarrow w op a b = .ok j ∧ j.matchMask = (Row.narrow w op).matchMask := by
  obtain ⟨k, hk, rfl⟩ := exists_ofNat op
  have notLast : k ≠ 3 := fun e => assigned (e ▸ rfl)
  replace hk : k < 3 := by omega
  interval_cases k <;> cases w <;> exact ⟨_, rfl, rfl⟩

theorem decodeSpecialAccess_matchMask (op : BitVec 2) (a b : BitVec 4) :
    (decodeSpecialAccess op a b).matchMask = (Row.specialAccess op).matchMask := by
  obtain ⟨k, hk, rfl⟩ := exists_ofNat op
  interval_cases k <;> rfl

/-! The decoder, format by format. -/

theorem decodeUnits_group0 {u : Half} (h : u.extractLsb' 13 3 = 0#3) (u2 : Half) :
    decodeUnits u u2 =
      if u.getLsbD 12 = false then .ok (.pre (u.extractLsb' 0 12))
      else if u.getLsbD 11 = false then .ok (.lpre (u.extractLsb' 0 11 ++ u2))
      else .error .reservedGroup0 := by
  simp only [decodeUnits, h]

theorem decodeUnits_group1 {u : Half} (h : u.extractLsb' 13 3 = 1#3) (u2 : Half) :
    decodeUnits u u2 = .ok (decodeGroup1 (u.extractLsb' 4 4) (fieldI5 u) (fieldA u)) := by
  simp only [decodeUnits, h]

theorem decodeUnits_group2 {u : Half} (h : u.extractLsb' 13 3 = 2#3) (u2 : Half) :
    decodeUnits u u2 = decodeGroup2 (u.extractLsb' 8 4) (u.getLsbD 12) (fieldA u) (fieldB u) := by
  simp only [decodeUnits, h]

theorem decodeUnits_group3 {u : Half} (h : u.extractLsb' 13 3 = 3#3) (u2 : Half) :
    decodeUnits u u2 = .ok (decodeGroup3 (u.extractLsb' 0 4) (u.extractLsb' 4 9)) := by
  simp only [decodeUnits, h]

theorem decodeUnits_group4 {u : Half} (h : u.extractLsb' 13 3 = 4#3) (u2 : Half) :
    decodeUnits u u2 = .ok (decodeGroup4 (u.extractLsb' 8 5) (fieldA u) (fieldB u)) := by
  simp only [decodeUnits, h]

theorem decodeUnits_group5 {u : Half} (h : u.extractLsb' 13 3 = 5#3) (u2 : Half) :
    decodeUnits u u2 = .ok (.ldr (fieldA u) (fieldB u) (fieldI5 u)) := by
  simp only [decodeUnits, h]

theorem decodeUnits_group6 {u : Half} (h : u.extractLsb' 13 3 = 6#3) (u2 : Half) :
    decodeUnits u u2 = .ok (.str (fieldA u) (fieldB u) (fieldI5 u)) := by
  simp only [decodeUnits, h]

theorem decodeUnits_group7 {u : Half} (h : u.extractLsb' 13 3 = 7#3) (u2 : Half) :
    decodeUnits u u2 = decodeGroup7 u := by
  simp only [decodeUnits, h]
  rfl

/-- A field inside a field. -/
theorem extract_extract {u : Half} {lo n : Nat} {x : BitVec n} (h : u.extractLsb' lo n = x) {k m : Nat}
    (inside : k + m ≤ n) : u.extractLsb' (lo + k) m = x.extractLsb' k m := by
  subst h
  apply BitVec.eq_of_getLsbD_eq
  intro j hj
  simp [hj, show k + j < n by omega, Nat.add_assoc]

/-! In group 7 the subgroup is told by the first of three fields that fits (R92): no later one can fit with it. -/

theorem decodeGroup7_narrow {u : Half} (h : u.extractLsb' 11 2 = 0#2) :
    decodeGroup7 u = decodeNarrow (u.getLsbD 10) (u.extractLsb' 8 2) (fieldA u) (fieldB u) := by
  rw [decodeGroup7, if_pos h]

theorem decodeGroup7_specialAccess {u : Half} (h : u.extractLsb' 10 3 = 2#3) :
    decodeGroup7 u = .ok (decodeSpecialAccess (u.extractLsb' 8 2) (fieldA u) (fieldB u)) := by
  have high : u.extractLsb' 11 2 = 1#2 := extract_extract h (k := 1) (by decide)
  rw [decodeGroup7, high, if_neg (by decide), if_pos h]

theorem decodeGroup7_icreload {u : Half} (h : u.extractLsb' 9 4 = 6#4) :
    decodeGroup7 u = .ok (.icreload (fieldA u) (u.extractLsb' 4 5)) := by
  have high : u.extractLsb' 11 2 = 1#2 := extract_extract h (k := 2) (by decide)
  have mid : u.extractLsb' 10 3 = 3#3 := extract_extract h (k := 1) (by decide)
  rw [decodeGroup7, high, mid, if_neg (by decide), if_neg (by decide), if_pos h]

/-- A unit of a row decodes to a form of that row. -/
theorem Row.decodeUnits_of_holds {r : Row} {u : Half} (assigned : r.assigned) (h : r.holds u) (u2 : Half) :
    ∃ j, decodeUnits u u2 = .ok j ∧ j.matchMask = r.matchMask := by
  cases r with
  | pre =>
    obtain ⟨group, bit12⟩ := h
    exact ⟨_, by rw [decodeUnits_group0 group, if_pos bit12], rfl⟩
  | lpre =>
    obtain ⟨group, bit12, bit11⟩ := h
    exact ⟨_, by rw [decodeUnits_group0 group, if_neg (by simp [bit12]), if_pos bit11], rfl⟩
  | g1 op =>
    obtain ⟨group, rfl⟩ := h
    exact ⟨_, decodeUnits_group1 group u2, decodeGroup1_matchMask _ _ _⟩
  | g2 op =>
    obtain ⟨group, rfl⟩ := h
    rw [decodeUnits_group2 group]
    exact decodeGroup2_matchMask assigned _ _ _
  | g3 op =>
    obtain ⟨group, rfl⟩ := h
    exact ⟨_, decodeUnits_group3 group u2, decodeGroup3_matchMask _ _⟩
  | g4 op =>
    obtain ⟨group, rfl⟩ := h
    exact ⟨_, decodeUnits_group4 group u2, decodeGroup4_matchMask _ _ _⟩
  | g5 => exact ⟨_, decodeUnits_group5 h u2, rfl⟩
  | g6 => exact ⟨_, decodeUnits_group6 h u2, rfl⟩
  | narrow w op =>
    obtain ⟨group, sub, rfl, rfl⟩ := h
    rw [decodeUnits_group7 group, decodeGroup7_narrow sub]
    exact decodeNarrow_matchMask _ assigned _ _
  | specialAccess op =>
    obtain ⟨group, sub, rfl⟩ := h
    rw [decodeUnits_group7 group, decodeGroup7_specialAccess sub]
    exact ⟨_, rfl, decodeSpecialAccess_matchMask _ _ _⟩
  | icreload =>
    obtain ⟨group, sub⟩ := h
    rw [decodeUnits_group7 group, decodeGroup7_icreload sub]
    exact ⟨_, rfl, rfl⟩

theorem decodeGroup2_unassigned (f : Bool) (a b : Reg) : decodeGroup2 0xF#4 f a b = .error .reservedGroup2 := rfl

theorem decodeNarrow_unassigned (w : Bool) (a b : Reg) : decodeNarrow w 3#2 a b = .error .reservedGroup7Narrow := by
  cases w <;> rfl

theorem group_cases (g : BitVec 3) :
    g = 0#3 ∨ g = 1#3 ∨ g = 2#3 ∨ g = 3#3 ∨ g = 4#3 ∨ g = 5#3 ∨ g = 6#3 ∨ g = 7#3 := by
  revert g
  decide

theorem holds_of_decodeGroup7 {u : Half} (group : u.extractLsb' 13 3 = 7#3) {i : Instr} (h : decodeGroup7 u = .ok i) :
    ∃ r : Row, r.assigned ∧ r.holds u := by
  by_cases narrow : u.extractLsb' 11 2 = 0#2
  · rw [decodeGroup7_narrow narrow] at h
    refine ⟨.narrow _ _, fun unassigned => ?_, group, narrow, rfl, rfl⟩
    rw [unassigned, decodeNarrow_unassigned] at h
    cases h
  by_cases access : u.extractLsb' 10 3 = 2#3
  · exact ⟨.specialAccess _, trivial, group, access, rfl⟩
  by_cases reload : u.extractLsb' 9 4 = 6#4
  · exact ⟨.icreload, trivial, group, reload⟩
  rw [decodeGroup7, if_neg narrow, if_neg access, if_neg reload] at h
  split at h <;> cases h

/-- A unit that decodes belongs to an assigned row. -/
theorem holds_of_decodeUnits {u u2 : Half} {i : Instr} (h : decodeUnits u u2 = .ok i) :
    ∃ r : Row, r.assigned ∧ r.holds u := by
  rcases group_cases (u.extractLsb' 13 3) with group | group | group | group | group | group | group | group
  · rw [decodeUnits_group0 group] at h
    cases bit12 : u.getLsbD 12 with
    | false => exact ⟨.pre, trivial, group, bit12⟩
    | true =>
      cases bit11 : u.getLsbD 11 with
      | false => exact ⟨.lpre, trivial, group, bit12, bit11⟩
      | true =>
        rw [bit12, bit11] at h
        cases h
  · exact ⟨.g1 _, trivial, group, rfl⟩
  · rw [decodeUnits_group2 group] at h
    refine ⟨.g2 _, fun unassigned => ?_, group, rfl⟩
    rw [unassigned, decodeGroup2_unassigned] at h
    cases h
  · exact ⟨.g3 _, trivial, group, rfl⟩
  · exact ⟨.g4 _, trivial, group, rfl⟩
  · exact ⟨.g5, trivial, group⟩
  · exact ⟨.g6, trivial, group⟩
  · exact holds_of_decodeGroup7 group (decodeUnits_group7 group u2 ▸ h)

/-- A unit that decodes belongs to the assigned row of the form it decodes to. -/
theorem row_of_decodeUnits {u u2 : Half} {i : Instr} (decoded : decodeUnits u u2 = .ok i) :
    ∃ r : Row, r.assigned ∧ r.holds u ∧ i.matchMask = r.matchMask := by
  obtain ⟨r, assigned, holds⟩ := holds_of_decodeUnits decoded
  obtain ⟨j, decoded', row⟩ := r.decodeUnits_of_holds assigned holds u2
  obtain rfl : i = j := Except.ok.inj (decoded.symm.trans decoded')
  exact ⟨r, assigned, holds, row⟩

/-- The match of a row of R93's table, read as a unit, is itself a form of that row. -/
theorem decodeUnits_matchWord (i : Instr) :
    ∃ j, decodeUnits i.matchMask.1 0#16 = .ok j ∧ j.matchMask = i.matchMask := by
  cases i <;> (dsimp only [Instr.matchMask]; exact ⟨_, rfl, rfl⟩)

/-- Every form stands in an assigned row. -/
theorem row_of_instr (i : Instr) : ∃ r : Row, r.assigned ∧ i.matchMask = r.matchMask := by
  obtain ⟨j, decoded, sameRow⟩ := decodeUnits_matchWord i
  obtain ⟨r, assigned, _, row⟩ := row_of_decodeUnits decoded
  exact ⟨r, assigned, sameRow.symm.trans row⟩

/-- Settles O2: both sides say that the unit has the fixed bits and the opcode of the form's row. -/
theorem decodedUnitMatchesItsRow : Obligations.DecodedUnitMatchesItsRow := by
  constructor
  · intro u u2 i decoded
    obtain ⟨r, _, holds, row⟩ := row_of_decodeUnits decoded
    rw [row]
    exact (r.and_mask_iff_holds u).mpr holds
  · intro u u2 i agrees
    obtain ⟨r, assigned, row⟩ := row_of_instr i
    rw [row] at agrees ⊢
    exact r.decodeUnits_of_holds assigned ((r.and_mask_iff_holds u).mp agrees) u2

end Sys2Proof.Proofs
end

section
/-! PROOFS. The prefixes (40_group0_prefixes.md R130 to R134): what `pre`, `lpre` and `index` do, and that every other
instruction ends all three. -/

namespace Sys2Proof.Proofs

open Sys2Proof.Machine Sys2Proof.Claims

/-! Frames: a state update that touches only `pc` and the state of the prefixes. -/

/-- Everything but `pc` and the state of the prefixes is unchanged. -/
def keepsAllButPrefixes (s t : State) : Prop :=
  t.flags = s.flags ∧ keepsRegs [] s t ∧ keepsInterruptRegs s t ∧ keepsMemory s t ∧ keepsFetch s t ∧ keepsInputs s t

theorem keepsAllButPrefixes_update (s : State) (pc : Word) (p : Bool) (pd : BitVec 12) (l : Bool) (ld : BitVec 27)
    (x : Bool) (r : Word) :
    keepsAllButPrefixes s { s with
      pc := pc, preHave := p, preData := pd, lpreHave := l, lpreData := ld, indexHave := x, indexReg := r } :=
  ⟨rfl, fun _ _ => rfl, ⟨rfl, rfl, rfl, rfl, rfl⟩, fun _ => rfl, ⟨rfl, rfl⟩, rfl, rfl⟩

theorem noPrefix_retire (s : State) : noPrefix s.retire := ⟨rfl, rfl, rfl⟩

theorem noPrefix_clearPrefixes_setPc (s : State) (v : Word) : noPrefix (s.clearPrefixes.setPc v) := ⟨rfl, rfl, rfl⟩

/-! The state machine of R133: each of the three takes effect, or is a NOP that ends all prefixes. -/

/-- The state after a `pre` that takes effect (R130). -/
def withPreInEffect (imm : BitVec 12) (s : State) : State :=
  { s with preHave := true, preData := imm }.setPc (s.pc + 2)

/-- The state after an `lpre` that takes effect (R131). -/
def withLpreInEffect (imm : BitVec 27) (s : State) : State :=
  { s with lpreHave := true, lpreData := imm }.setPc (s.pc + 4)

/-- The state after an `index` that takes effect (R255). -/
def withIndexInEffect (a : Reg) (s : State) : State :=
  { s with indexHave := true, indexReg := s.reg a }.setPc (s.pc + 2)

theorem exec_pre_nop (imm : BitVec 12) {s : State} (h : s.preHave = true ∨ s.lpreHave = true) :
    exec (.pre imm) s = .next s.retire :=
  if_pos (Bool.or_eq_true_iff.mpr h)

theorem exec_pre_effect (imm : BitVec 12) {s : State} (h : ¬ (s.preHave = true ∨ s.lpreHave = true)) :
    exec (.pre imm) s = .next (withPreInEffect imm s) :=
  if_neg (mt Bool.or_eq_true_iff.mp h)

theorem exec_lpre_nop (imm : BitVec 27) {s : State} (h : s.preHave = true ∨ s.lpreHave = true) :
    exec (.lpre imm) s = .next (s.clearPrefixes.setPc (s.pc + 4)) :=
  if_pos (Bool.or_eq_true_iff.mpr h)

theorem exec_lpre_effect (imm : BitVec 27) {s : State} (h : ¬ (s.preHave = true ∨ s.lpreHave = true)) :
    exec (.lpre imm) s = .next (withLpreInEffect imm s) :=
  if_neg (mt Bool.or_eq_true_iff.mp h)

theorem exec_index_nop (a : Reg) {s : State} (h : s.indexHave = true) : exec (.index a) s = .next s.retire :=
  if_pos h

theorem exec_index_effect (a : Reg) {s : State} (h : ¬ s.indexHave = true) :
    exec (.index a) s = .next (withIndexInEffect a s) :=
  if_neg h

/-- `pre` ends all prefixes, or leaves `index` as it was. -/
theorem pre_ends_or_keeps_index {imm : BitVec 12} {s t : State} (h : exec (.pre imm) s = .next t) :
    noPrefix t ∨ t.indexHave = s.indexHave := by
  by_cases invalid : s.preHave = true ∨ s.lpreHave = true
  · rw [exec_pre_nop imm invalid] at h
    cases h
    exact .inl (noPrefix_retire s)
  · rw [exec_pre_effect imm invalid] at h
    cases h
    exact .inr rfl

/-- `lpre` ends all prefixes, or leaves `index` as it was. -/
theorem lpre_ends_or_keeps_index {imm : BitVec 27} {s t : State} (h : exec (.lpre imm) s = .next t) :
    noPrefix t ∨ t.indexHave = s.indexHave := by
  by_cases invalid : s.preHave = true ∨ s.lpreHave = true
  · rw [exec_lpre_nop imm invalid] at h
    cases h
    exact .inl (noPrefix_clearPrefixes_setPc s _)
  · rw [exec_lpre_effect imm invalid] at h
    cases h
    exact .inr rfl

/-- While `index` is in effect, a second `index` ends all prefixes. -/
theorem index_ends_of_indexHave {a : Reg} {s t : State} (h : exec (.index a) s = .next t)
    (inEffect : s.indexHave = true) : noPrefix t := by
  rw [exec_index_nop a inEffect] at h
  cases h
  exact noPrefix_retire s

theorem withIndexInEffect_takesIrq (a : Reg) (s : State) : (withIndexInEffect a s).takesIrq = false := by
  simp [State.takesIrq, State.prefixed, withIndexInEffect]

/-- Settles O8: each of `pre` and `index` is split into its NOP, which retires, and the case in which it takes effect;
both change only `pc` and the state of the prefixes. -/
theorem preAndIndex : Obligations.PreAndIndex := by
  constructor
  · intro s imm
    by_cases invalid : s.preHave = true ∨ s.lpreHave = true
    · refine ⟨_, exec_pre_nop imm invalid, rfl, ?_, keepsAllButPrefixes_update ..⟩
      rw [if_pos invalid]
      exact noPrefix_retire s
    · refine ⟨_, exec_pre_effect imm invalid, rfl, ?_, keepsAllButPrefixes_update ..⟩
      rw [if_neg invalid]
      have noLpre : s.lpreHave = false := Bool.eq_false_of_not_eq_true fun h => invalid (.inr h)
      exact ⟨rfl, rfl, noLpre, rfl, rfl⟩
  · intro s a
    by_cases invalid : s.indexHave = true
    · refine ⟨_, exec_index_nop a invalid, rfl, ?_, keepsAllButPrefixes_update ..⟩
      rw [if_pos invalid]
      exact noPrefix_retire s
    · refine ⟨_, exec_index_effect a invalid, rfl, ?_, keepsAllButPrefixes_update ..⟩
      rw [if_neg invalid]
      exact ⟨rfl, rfl, rfl, rfl, rfl, rfl, withIndexInEffect_takesIrq a s⟩

/-! R134: an outcome ends the prefixes when the next state, if there is one, has none in effect. Every way in which the
meanings are put together keeps this. -/

/-- A next state, if the outcome is one, has no prefixes in effect. -/
def EndsPrefixes (x : Result State) : Prop := ∀ t, x = .next t → noPrefix t

theorem endsPrefixes_retire (s : State) : EndsPrefixes (.next s.retire) := by
  intro t h
  cases h
  exact noPrefix_retire s

theorem endsPrefixes_jumpTo (s : State) (v : Word) : EndsPrefixes (jumpTo s v) := by
  intro t h
  obtain ⟨-, rfl⟩ := (jumpTo_eq_next s t v).mp h
  exact noPrefix_clearPrefixes_setPc s v

theorem endsPrefixes_ite {c : Prop} [Decidable c] {x y : Result State} (hx : EndsPrefixes x) (hy : EndsPrefixes y) :
    EndsPrefixes (if c then x else y) := by
  split
  · exact hx
  · exact hy

theorem endsPrefixes_andThen {α : Type} {x : Result α} {f : α → Result State} (hf : ∀ a, EndsPrefixes (f a)) :
    EndsPrefixes (andThen x f) := by
  intro t h
  obtain ⟨a, -, ha⟩ := (andThen_eq_next x f t).mp h
  exact hf a t ha

theorem endsPrefixes_withSpecial {k : SpecialField} {f : Special → Result State} (hf : ∀ q, EndsPrefixes (f q)) :
    EndsPrefixes (withSpecial k f) := by
  intro t h
  obtain ⟨q, -, hq⟩ := (withSpecial_eq_next k f t).mp h
  exact hf q t hq

theorem endsPrefixes_branchIf (taken : Bool) (i : BitVec 9) (s : State) : EndsPrefixes (branchIf taken i s) :=
  endsPrefixes_ite (endsPrefixes_jumpTo s _) (endsPrefixes_retire s)

theorem endsPrefixes_raiseSwi (arg : Word) (s : State) : EndsPrefixes (raiseSwi arg s) :=
  endsPrefixes_ite (endsPrefixes_retire s) (endsPrefixes_jumpTo _ _)

theorem endsPrefixes_loadNarrow (a b : Reg) (n : Nat) (extend : Word → Word) (s : State) :
    EndsPrefixes (loadNarrow a b n extend s) :=
  endsPrefixes_andThen fun _ => endsPrefixes_retire _

theorem endsPrefixes_storeNarrow (a b : Reg) (n : Nat) (s : State) : EndsPrefixes (storeNarrow a b n s) :=
  endsPrefixes_andThen fun _ => endsPrefixes_retire _

theorem endsPrefixes_loadSpecial (q : Special) (addr : Word) (s : State) : EndsPrefixes (loadSpecial q addr s) :=
  endsPrefixes_andThen fun _ => endsPrefixes_retire _

theorem endsPrefixes_storeSpecial (q : Special) (addr : Word) (s : State) : EndsPrefixes (storeSpecial q addr s) :=
  endsPrefixes_andThen fun _ => endsPrefixes_retire _

theorem endsPrefixes_pushWord (b : Reg) (v : Word) (s : State) : EndsPrefixes (pushWord b v s) :=
  endsPrefixes_andThen fun _ => endsPrefixes_retire _

theorem endsPrefixes_popWord (b : Reg) (s : State) {f : Word → State → Result State}
    (hf : ∀ v t, EndsPrefixes (f v t)) : EndsPrefixes (popWord b s f) :=
  endsPrefixes_andThen fun v => hf v _

/-- The three instructions that are prefixes. -/
inductive PrefixInstr : Instr → Prop where
  | pre (imm : BitVec 12) : PrefixInstr (.pre imm)
  | lpre (imm : BitVec 27) : PrefixInstr (.lpre imm)
  | index (a : Reg) : PrefixInstr (.index a)

/-- Every other instruction ends in `retire` or in a control transfer, which clear the state of the prefixes. -/
theorem prefixInstr_or_endsPrefixes (i : Instr) (s : State) : PrefixInstr i ∨ EndsPrefixes (exec i s) := by
  cases i with
  | pre imm => exact .inl (.pre imm)
  | lpre imm => exact .inl (.lpre imm)
  | index a => exact .inl (.index a)
  | addImm | addPcImm | addSpImm | addFpImm | cmpImm | cpyImm | lslImm | lsrImm | asrImm | andImm | orrImm | xorImm
  | zeImm | seImm | add | sub | addSp | addFp | cmp | cpy | lsl | lsr | asr | and | orr | xor | adc | sbc | cmpbc
  | ei | di | mul | udiv | sdiv | umod | smod | lumul | lsmul | udiv64 | sdiv64 | umod64 | smod64
  | cmpb | lsrb | asrb | cmph | lsrh | asrh =>
    exact .inr (endsPrefixes_retire _)
  | bl | bra | jl | jmp | jmpIra | reti => exact .inr (endsPrefixes_jumpTo _ _)
  | beq | bne | bmi | bpl | bvs | bvc | bgeu | bltu | bgtu | bleu | bges | blts | bgts | bles =>
    exact .inr (endsPrefixes_branchIf _ _ _)
  | swiReg | swiImm => exact .inr (endsPrefixes_raiseSwi _ _)
  | ldub | ldsb | lduh | ldsh => exact .inr (endsPrefixes_loadNarrow _ _ _ _ _)
  | stb | sth => exact .inr (endsPrefixes_storeNarrow _ _ _ _)
  | ldr | str | icreload => exact .inr (endsPrefixes_andThen fun _ => endsPrefixes_retire _)
  | push => exact .inr (endsPrefixes_ite (endsPrefixes_retire _) (endsPrefixes_pushWord _ _ _))
  | pop =>
    exact .inr (endsPrefixes_ite (endsPrefixes_retire _) (endsPrefixes_popWord _ _ fun _ _ => endsPrefixes_retire _))
  | popPc => exact .inr (endsPrefixes_popWord _ _ fun _ _ => endsPrefixes_jumpTo _ _)
  | pushSpecial => exact .inr (endsPrefixes_withSpecial fun _ => endsPrefixes_pushWord _ _ _)
  | popSpecial =>
    exact .inr (endsPrefixes_withSpecial fun _ => endsPrefixes_popWord _ _ fun _ _ => endsPrefixes_retire _)
  | cpyFromSpecial | cpyToSpecial => exact .inr (endsPrefixes_withSpecial fun _ => endsPrefixes_retire _)
  | cpySpecial =>
    exact .inr (endsPrefixes_withSpecial fun _ => endsPrefixes_withSpecial fun _ => endsPrefixes_retire _)
  | ldrSpecial => exact .inr (endsPrefixes_withSpecial fun _ => endsPrefixes_loadSpecial _ _ _)
  | strSpecial => exact .inr (endsPrefixes_withSpecial fun _ => endsPrefixes_storeSpecial _ _ _)
  | ldrSpecialAt =>
    exact .inr (endsPrefixes_withSpecial fun _ => endsPrefixes_withSpecial fun _ => endsPrefixes_loadSpecial _ _ _)
  | strSpecialAt =>
    exact .inr (endsPrefixes_withSpecial fun _ => endsPrefixes_withSpecial fun _ => endsPrefixes_storeSpecial _ _ _)

/-- `index` stops being in effect only where all prefixes do (R134). -/
theorem noPrefix_of_index_ends {i : Instr} {s t : State} (h : exec i s = .next t) (inEffect : s.indexHave = true)
    (ended : t.indexHave = false) : noPrefix t := by
  have notKept : t.indexHave ≠ s.indexHave := by rw [inEffect, ended]; decide
  rcases prefixInstr_or_endsPrefixes i s with (_ | _ | _) | ends
  · exact (pre_ends_or_keeps_index h).resolve_right notKept
  · exact (lpre_ends_or_keeps_index h).resolve_right notKept
  · exact index_ends_of_indexHave h inEffect
  · exact ends t h

/-- Settles O10: the first part is the case split over the instructions, the second looks at the three prefixes too. -/
theorem otherInstructionsEndPrefixes : Obligations.OtherInstructionsEndPrefixes := by
  intro i s t h
  constructor
  · intro notPre notLpre notIndex
    rcases prefixInstr_or_endsPrefixes i s with (imm | imm | a) | ends
    · exact absurd rfl (notPre imm)
    · exact absurd rfl (notLpre imm)
    · exact absurd rfl (notIndex a)
    · exact ends t h
  · intro inEffect ended
    obtain ⟨preEnded, -, -⟩ := noPrefix_of_index_ends h inEffect ended
    exact preEnded

end Sys2Proof.Proofs
end

section
/-! PROOFS. Group 1 (41_group1_immediate.md R151 to R162): the operand `#simm` as an integer under every state of the
prefixes, and the frame of an instruction that writes one register. -/

namespace Sys2Proof.Proofs

open Sys2Proof.Machine Sys2Proof.Claims

/-! `word` on sums. -/

theorem word_toNat (x : Word) : word x.toNat = x := by
  rw [← setWidth_eq_word, BitVec.setWidth_eq]

theorem word_add (x y : Int) : word (x + y) = word x + word y := BitVec.ofInt_add x y

/-! `#simm` with `lpre`, with `pre` and with neither (R104, R105, R106). -/

theorem imm5_of_lpre {s : State} (hl : s.lpreHave = true) (signed : Bool) (i : BitVec 5) :
    s.imm5 signed i = s.lpreData ++ i :=
  if_pos hl

theorem simm5_of_lpre {s : State} (hl : s.lpreHave = true) (i : BitVec 5) :
    simm5 s i = (s.lpreData ++ i).toNat := by
  rw [toNat_append_field, simm5, if_pos hl]
  rfl

theorem simm5_of_pre {s : State} (hp : s.preHave = true) (hl : s.lpreHave = false) (i : BitVec 5) :
    simm5 s i = sext 17 (s.preData ++ i).toNat := by
  rw [toNat_append_field]
  simp [simm5, hp, hl]

theorem simm5_of_noPrefix {s : State} (hp : s.preHave = false) (hl : s.lpreHave = false) (i : BitVec 5) :
    simm5 s i = sext 5 i.toNat := by
  simp [simm5, hp, hl]

theorem word_simm5 (s : State) (i : BitVec 5) : word (simm5 s i) = s.imm5 true i := by
  cases hl : s.lpreHave with
  | true => rw [simm5_of_lpre hl, imm5_of_lpre hl, word_toNat]
  | false =>
    cases hp : s.preHave with
    | true => rw [simm5_of_pre hp hl, imm5_of_pre hp hl, word_sext_toNat (by decide)]
    | false => rw [simm5_of_noPrefix hp hl, imm5_signed_of_noPrefix hp hl, word_sext_toNat (by decide)]

theorem word_add_simm5 (s : State) (x : Word) (i : BitVec 5) : word (x.toNat + simm5 s i) = x + s.imm5 true i := by
  rw [word_add, word_toNat, word_simm5]

/-! The frame. -/

theorem quiet_setReg_retire (s : State) (a : Reg) (v : Word) : quiet [a] s (s.setReg a v).retire := by
  have others : keepsRegs [a] s (s.setReg a v).retire := fun r hr => by
    rw [State.retire_reg, State.setReg_reg_ne s (List.ne_of_not_mem_cons hr)]
  exact ⟨others, ⟨rfl, rfl, rfl, rfl, rfl⟩, fun _ => rfl, ⟨rfl, rfl⟩, ⟨rfl, rfl⟩, noPrefix_retire _⟩

/-- An instruction whose meaning is a register write and the end of an instruction does nothing else. -/
theorem writesReg_of_exec {i : Instr} {s : State} {a : Reg} {v : Word} (h : exec i s = .next (s.setReg a v).retire) :
    writesReg i a v s :=
  ⟨_, h, by rw [State.retire_reg, State.setReg_reg_same], rfl, rfl, quiet_setReg_retire s a v⟩

/-- Settles O12: each of the eight meanings is a register write and the end of an instruction, and the value written is the
one claimed because `imm5` is the word of the integer `simm5`, whatever prefix is in effect. -/
theorem immediateArithmetic : Obligations.ImmediateArithmetic := by
  intro s a i
  have pcSum : word (s.pc.toNat + simm5 s i + 2) = s.pc + s.imm5 true i + 2 := by
    rw [word_add, word_add_simm5]
    rfl
  rw [pcSum, word_add_simm5, word_add_simm5, word_add_simm5, word_simm5]
  exact ⟨writesReg_of_exec rfl, writesReg_of_exec rfl, writesReg_of_exec rfl, writesReg_of_exec rfl,
    writesReg_of_exec rfl, writesReg_of_exec rfl, writesReg_of_exec rfl, writesReg_of_exec rfl⟩

end Sys2Proof.Proofs
end

section
/-! PROOFS. Group 2, results without a carry (42_group2_register.md R180, R187, R191 to R193): the flags Z and N of a
result, and what an instruction does that writes such a result and, when `f` = 1, these two flags. -/

namespace Sys2Proof.Proofs

open Sys2Proof.Machine Sys2Proof.Claims

/-! The flags of a result. -/

theorem resultFlags_zeroNegative (old : Flags) (res : Word) : resultFlags old res (zeroNegative old res) := by
  have zero : (zeroNegative old res).z = true ↔ res.toNat = 0 := by
    rw [zeroNegative, decide_eq_true_iff, BitVec.toNat_eq, BitVec.toNat_zero]
  have negative : (zeroNegative old res).n = true ↔ 2 ^ 31 ≤ res.toNat := by
    rw [zeroNegative, BitVec.msb_eq_decide, decide_eq_true_iff]
  exact ⟨zero, negative, rfl, rfl⟩

/-- `flags` is outside the frame. -/
theorem quiet_setFlags {written : List Reg} {s t : State} (h : quiet written s t) (f : Flags) :
    quiet written s (t.setFlags f) := h

/-! `writeLogic`: its register, its flags for each `f`, and its frame. -/

@[simp] theorem writeLogic_reg_same (f : Bool) (a : Reg) (res : Word) (s : State) :
    (writeLogic f a res s).reg a = res := by
  rw [writeLogic, State.setFlags_reg, State.setReg_reg_same]

@[simp] theorem writeLogic_true_flags (a : Reg) (res : Word) (s : State) :
    (writeLogic true a res s).flags = zeroNegative s.flags res := rfl

@[simp] theorem writeLogic_false_flags (a : Reg) (res : Word) (s : State) :
    (writeLogic false a res s).flags = s.flags := rfl

theorem quiet_writeLogic_retire (f : Bool) (a : Reg) (res : Word) (s : State) :
    quiet [a] s (writeLogic f a res s).retire :=
  quiet_setFlags (quiet_setReg_retire s a res) _

/-- The instruction writes `res` to register `a` and, when `f` = 1, Z and N of `res`; it keeps C and V, and nothing else
but `pc` and the state of the prefixes changes. -/
def writesResult (i : Instr) (f : Bool) (a : Reg) (res : Word) (s : State) : Prop :=
  ∃ t, exec i s = .next t ∧ t.reg a = res ∧ (f = true → resultFlags s.flags res t.flags) ∧
    (f = false → t.flags = s.flags) ∧ t.pc = s.pc + 2 ∧ quiet [a] s t

theorem writesResult_of_exec {i : Instr} {f : Bool} {a : Reg} {res : Word} {s : State}
    (h : exec i s = .next (writeLogic f a res s).retire) : writesResult i f a res s := by
  refine ⟨_, h, ?_, ?_, ?_, rfl, quiet_writeLogic_retire f a res s⟩
  · rw [State.retire_reg, writeLogic_reg_same]
  · rintro rfl
    rw [State.retire_flags, writeLogic_true_flags]
    exact resultFlags_zeroNegative s.flags res
  · rintro rfl
    rw [State.retire_flags, writeLogic_false_flags]

/-! The four meanings. -/

theorem exec_cpy (f : Bool) (a b : Reg) (s : State) :
    exec (.cpy f a b) s = .next (writeLogic f a (s.reg b) s).retire := rfl

theorem exec_and (f : Bool) (a b : Reg) (s : State) :
    exec (.and f a b) s = .next (writeLogic f a (s.reg a &&& s.reg b) s).retire := rfl

theorem exec_orr (f : Bool) (a b : Reg) (s : State) :
    exec (.orr f a b) s = .next (writeLogic f a (s.reg a ||| s.reg b) s).retire := rfl

theorem exec_xor (f : Bool) (a b : Reg) (s : State) :
    exec (.xor f a b) s = .next (writeLogic f a (s.reg a ^^^ s.reg b) s).retire := rfl

/-- Settles O19: each of the four instructions is a `writeLogic` of its result and the end of an instruction. -/
theorem copyAndLogic : Obligations.CopyAndLogic := by
  rintro s f a b i res (⟨rfl, rfl⟩ | ⟨rfl, rfl⟩ | ⟨rfl, rfl⟩ | ⟨rfl, rfl⟩)
  · exact writesResult_of_exec (exec_cpy f a b s)
  · exact writesResult_of_exec (exec_and f a b s)
  · exact writesResult_of_exec (exec_orr f a b s)
  · exact writesResult_of_exec (exec_xor f a b s)

end Sys2Proof.Proofs
end

section
/-! PROOFS. Group 3 (43_group3_branches.md R210 to R220): the target of a branch as an integer sum under every state of the
prefixes, and what a branch does when it is taken to an even target, taken to an odd one, or not taken. -/

namespace Sys2Proof.Proofs

open Sys2Proof.Machine Sys2Proof.Claims

/-! `IMM` of a branch with `lpre`, with `pre` and with neither (R104, R107, R108). -/

theorem imm9_of_lpre {s : State} (hl : s.lpreHave = true) (o : BitVec 9) :
    s.imm9 o = s.lpreData.setWidth 23 ++ o :=
  if_pos hl

theorem simm9_of_lpre {s : State} (hl : s.lpreHave = true) (o : BitVec 9) :
    simm9 s o = (s.lpreData ++ o).toNat := by
  rw [toNat_append_field, simm9, if_pos hl]
  rfl

theorem simm9_of_pre {s : State} (hp : s.preHave = true) (hl : s.lpreHave = false) (o : BitVec 9) :
    simm9 s o = sext 21 (s.preData ++ o).toNat := by
  rw [toNat_append_field]
  simp [simm9, hp, hl]

theorem simm9_of_noPrefix {s : State} (hp : s.preHave = false) (hl : s.lpreHave = false) (o : BitVec 9) :
    simm9 s o = sext 9 o.toNat := by
  simp [simm9, hp, hl]

/-- The top four bits of `lpre.data` stand above bit 31, so a word does not hold them (R108). -/
theorem setWidth_append_branchField (d : BitVec 27) (o : BitVec 9) : (d ++ o).setWidth 32 = d.setWidth 23 ++ o := by
  rw [BitVec.setWidth_append, dif_neg (by decide)]
  rfl

theorem word_simm9 (s : State) (o : BitVec 9) : word (simm9 s o) = s.imm9 o := by
  cases hl : s.lpreHave with
  | true => rw [simm9_of_lpre hl, imm9_of_lpre hl, ← setWidth_eq_word, setWidth_append_branchField]
  | false =>
    cases hp : s.preHave with
    | true => rw [simm9_of_pre hp hl, imm9_of_pre hp hl, word_sext_toNat (by decide)]
    | false => rw [simm9_of_noPrefix hp hl, imm9_of_noPrefix hp hl, word_sext_toNat (by decide)]

/-- The address the model branches to is the integer sum of R210, modulo 2^32. -/
theorem branchTarget_eq_target (s : State) (o : BitVec 9) : s.branchTarget o = target s o := by
  rw [State.branchTarget, target, word_add, word_add, word_toNat, word_simm9]
  rfl

/-! The two frames of a control transfer: with no register written, and with one. -/

theorem quiet_clearPrefixes_setPc (s : State) (v : Word) : quiet [] s (s.clearPrefixes.setPc v) :=
  ⟨fun _ _ => rfl, ⟨rfl, rfl, rfl, rfl, rfl⟩, fun _ => rfl, ⟨rfl, rfl⟩, ⟨rfl, rfl⟩, noPrefix_clearPrefixes_setPc s v⟩

/-- The frame does not speak of `pc`. -/
theorem quiet_setReg_clearPrefixes_setPc (s : State) (a : Reg) (r v : Word) :
    quiet [a] s ((s.setReg a r).clearPrefixes.setPc v) :=
  quiet_setReg_retire s a r

theorem goesTo_of_exec {i : Instr} {s : State} {v : Word} (h : exec i s = .next (s.clearPrefixes.setPc v)) :
    goesTo i [] v s :=
  ⟨_, h, rfl, rfl, quiet_clearPrefixes_setPc s v⟩

/-! A branch: taken it is a jump to its target, and not taken it retires whatever its offset (R210). -/

theorem branchIf_taken (o : BitVec 9) (s : State) : branchIf true o s = jumpTo s (target s o) := by
  rw [← branchTarget_eq_target]
  rfl

theorem branchIf_notTaken (o : BitVec 9) (s : State) : branchIf false o s = .next s.retire := rfl

theorem goesTo_target_of_taken {i : Instr} {o : BitVec 9} {s : State} (h : exec i s = branchIf true o s)
    (even : (target s o).getLsbD 0 = false) : goesTo i [] (target s o) s :=
  goesTo_of_exec (by rw [h, branchIf_taken, jumpTo_even s even])

theorem misalignedPc_of_taken {i : Instr} {o : BitVec 9} {s : State} (h : exec i s = branchIf true o s)
    (odd : (target s o).getLsbD 0 = true) : exec i s = .fault .misalignedPc := by
  rw [h, branchIf_taken, jumpTo_odd s odd]

theorem goesTo_next_of_notTaken {i : Instr} {o : BitVec 9} {s : State} (h : exec i s = branchIf false o s) :
    goesTo i [] (s.pc + 2) s :=
  goesTo_of_exec (h.trans (branchIf_notTaken o s))

/-- An instruction whose meaning is a branch on a condition is one in the words of the statements. -/
theorem branches_of_exec {i : BitVec 9 → Instr} {taken : State → Bool}
    (h : ∀ o s, exec (i o) s = branchIf (taken s) o s) : branches i taken := by
  intro s o
  constructor
  · intro isTaken even
    exact goesTo_target_of_taken (isTaken ▸ h o s) even
  · intro notTaken
    exact goesTo_next_of_notTaken (notTaken ▸ h o s)

/-! The meanings of `bl`, `bra` and the eight branches on one flag. -/

theorem exec_bl (o : BitVec 9) (s : State) :
    exec (.bl o) s = jumpTo (s.setReg Reg.lr (s.pc + 2)) (target s o) := by
  rw [← branchTarget_eq_target]
  rfl

theorem exec_bra (o : BitVec 9) (s : State) : exec (.bra o) s = branchIf true o s := rfl

theorem exec_beq (o : BitVec 9) (s : State) : exec (.beq o) s = branchIf s.flags.z o s := rfl

theorem exec_bne (o : BitVec 9) (s : State) : exec (.bne o) s = branchIf (!s.flags.z) o s := rfl

theorem exec_bmi (o : BitVec 9) (s : State) : exec (.bmi o) s = branchIf s.flags.n o s := rfl

theorem exec_bpl (o : BitVec 9) (s : State) : exec (.bpl o) s = branchIf (!s.flags.n) o s := rfl

theorem exec_bvs (o : BitVec 9) (s : State) : exec (.bvs o) s = branchIf s.flags.v o s := rfl

theorem exec_bvc (o : BitVec 9) (s : State) : exec (.bvc o) s = branchIf (!s.flags.v) o s := rfl

theorem exec_bgeu (o : BitVec 9) (s : State) : exec (.bgeu o) s = branchIf s.flags.c o s := rfl

theorem exec_bltu (o : BitVec 9) (s : State) : exec (.bltu o) s = branchIf (!s.flags.c) o s := rfl

/-- Settles O24: each of the eight is `branchIf` on its flag or on the flag's negation. -/
theorem singleFlagBranches : Obligations.SingleFlagBranches :=
  ⟨branches_of_exec exec_beq, branches_of_exec exec_bne, branches_of_exec exec_bmi, branches_of_exec exec_bpl,
    branches_of_exec exec_bvs, branches_of_exec exec_bvc, branches_of_exec exec_bgeu, branches_of_exec exec_bltu⟩

/-- `bl` and its even target: the target is read before `lr` is written, so the link does not move it (R211). -/
theorem bl_links {s : State} {o : BitVec 9} (even : (target s o).getLsbD 0 = false) :
    ∃ t, exec (.bl o) s = .next t ∧ t.reg 13#4 = s.pc + 2 ∧ t.pc = target s o ∧ t.flags = s.flags ∧
      quiet [13#4] s t := by
  have jumps : exec (.bl o) s = .next ((s.setReg Reg.lr (s.pc + 2)).clearPrefixes.setPc (target s o)) := by
    rw [exec_bl, jumpTo_even _ even]
  refine ⟨_, jumps, ?_, rfl, rfl, quiet_setReg_clearPrefixes_setPc s Reg.lr _ _⟩
  rw [State.setPc_reg, State.clearPrefixes_reg]
  exact State.setReg_reg_same s Reg.lr _

/-- Settles O23: `bl` writes `lr` and jumps, `bra` is the branch that is always taken, and a jump to an odd target is the
fault. -/
theorem callAndBranchAlways : Obligations.CallAndBranchAlways := by
  intro s o
  constructor
  · intro even
    exact ⟨bl_links even, goesTo_target_of_taken (exec_bra o s) even⟩
  · intro odd
    have blFaults : exec (.bl o) s = .fault .misalignedPc := by rw [exec_bl, jumpTo_odd _ odd]
    exact ⟨blFaults, misalignedPc_of_taken (exec_bra o s) odd⟩

end Sys2Proof.Proofs
end

section
/-! PROOFS. The jumps to a register of group 4 (44_group4_control_stack_special.md R241 and R242): `jl` and `jmp`. -/

namespace Sys2Proof.Proofs

open Sys2Proof.Machine Sys2Proof.Claims

/-! The meanings of `jl` and `jmp`: the target of `jl` is `rA` of the state before `lr` is written (R241). -/

theorem exec_jl (a : Reg) (s : State) : exec (.jl a) s = jumpTo (s.setReg Reg.lr (s.pc + 2)) (s.reg a) := rfl

theorem exec_jmp (a : Reg) (s : State) : exec (.jmp a) s = jumpTo s (s.reg a) := rfl

/-- An instruction whose meaning is a write of `lr` and a jump links and goes to its even target. -/
theorem links_of_exec {i : Instr} {s : State} {v : Word} (h : exec i s = jumpTo (s.setReg Reg.lr (s.pc + 2)) v)
    (even : v.getLsbD 0 = false) :
    ∃ t, exec i s = .next t ∧ t.reg 13#4 = s.pc + 2 ∧ t.pc = v ∧ t.flags = s.flags ∧ quiet [13#4] s t := by
  have jumps : exec i s = .next ((s.setReg Reg.lr (s.pc + 2)).clearPrefixes.setPc v) := by
    rw [h, jumpTo_even _ even]
  have linked : ((s.setReg Reg.lr (s.pc + 2)).clearPrefixes.setPc v).reg 13#4 = s.pc + 2 := by
    rw [State.setPc_reg, State.clearPrefixes_reg]
    exact State.setReg_reg_same s Reg.lr _
  exact ⟨_, jumps, linked, rfl, rfl, quiet_setReg_clearPrefixes_setPc s Reg.lr _ v⟩

/-- Settles O28: `jl` and `jmp` both jump to what `rA` holds before the instruction, for `jl lr` too, so the parity of that
value decides between the jump and the fault. -/
theorem absoluteJumps : Obligations.AbsoluteJumps := by
  intro s a
  constructor
  · intro even
    have jmpGoes : goesTo (.jmp a) [] (s.reg a) s := goesTo_of_exec (by rw [exec_jmp, jumpTo_even s even])
    exact ⟨links_of_exec (exec_jl a s) even, jmpGoes⟩
  · intro odd
    have jlFaults : exec (.jl a) s = .fault .misalignedPc := by rw [exec_jl, jumpTo_odd _ odd]
    have jmpFaults : exec (.jmp a) s = .fault .misalignedPc := by rw [exec_jmp, jumpTo_odd s odd]
    exact ⟨jlFaults, jmpFaults⟩

end Sys2Proof.Proofs
end

section
/-! PROOFS. The products of group 4 (45_group4_muldiv.md R271, R276, R277): a register pair as a 64-bit value, the frame of
an instruction that writes one, and the three products. -/

namespace Sys2Proof.Proofs

open Sys2Proof.Machine Sys2Proof.Claims

/-! What an instruction does that writes a register pair. -/

theorem pairValue_eq_toNat_pair (s : State) (a : Reg) :
    pairValue (s.reg a.pairHigh) (s.reg a.pairLow) = (s.pair a).toNat :=
  (toNat_append_field (s.reg a.pairHigh) (s.reg a.pairLow)).symm

theorem quiet_setPair_retire (s : State) (a : Reg) (v : BitVec 64) :
    quiet [a.pairHigh, a.pairLow] s (s.setPair a v).retire := by
  have others : keepsRegs [a.pairHigh, a.pairLow] s (s.setPair a v).retire := fun r hr => by
    obtain ⟨notHigh, notLow⟩ : r ≠ a.pairHigh ∧ r ≠ a.pairLow := by simpa using hr
    rw [State.retire_reg, State.setPair_reg_ne s v notHigh notLow]
  exact ⟨others, ⟨rfl, rfl, rfl, rfl, rfl⟩, fun _ => rfl, ⟨rfl, rfl⟩, ⟨rfl, rfl⟩, noPrefix_retire _⟩

/-- An instruction whose meaning is a pair write and the end of an instruction does nothing else. -/
theorem writesPair_of_exec {i : Instr} {s : State} {a : Reg} {v : BitVec 64}
    (h : exec i s = .next (s.setPair a v).retire) : writesPair i a.pairHigh a.pairLow v.toNat s := by
  have written : pairValue ((s.setPair a v).retire.reg a.pairHigh) ((s.setPair a v).retire.reg a.pairLow) = v.toNat := by
    rw [State.retire_reg, State.retire_reg, pairValue_eq_toNat_pair, State.setPair_pair]
  exact ⟨_, h, written, rfl, rfl, quiet_setPair_retire s a v⟩

/-! The three meanings: both operands are read in `s`, before any register is written (R270). -/

theorem exec_mul (a b : Reg) (s : State) : exec (.mul a b) s = .next (s.setReg a (s.reg a * s.reg b)).retire := rfl

theorem exec_lumul (a b : Reg) (s : State) :
    exec (.lumul a b) s = .next (s.setPair 0#4 (BitVec.ofNat 64 ((s.reg a).toNat * (s.reg b).toNat))).retire := rfl

theorem exec_lsmul (a b : Reg) (s : State) :
    exec (.lsmul a b) s = .next (s.setPair 0#4 (BitVec.ofInt 64 ((s.reg a).toInt * (s.reg b).toInt))).retire := rfl

/-! The products as integers. -/

theorem word_mul_eq_ofNat (x y : Word) : x * y = BitVec.ofNat 32 (x.toNat * y.toNat) := by
  rw [BitVec.ofNat_mul, BitVec.ofNat_toNat, BitVec.ofNat_toNat, BitVec.setWidth_eq, BitVec.setWidth_eq]

/-- The unsigned product of two words needs no more than 64 bits, so R276 drops none. -/
theorem toNat_unsignedProduct (x y : Word) : (BitVec.ofNat 64 (x.toNat * y.toNat)).toNat = x.toNat * y.toNat := by
  have fits : x.toNat * y.toNat < 2 ^ 32 * 2 ^ 32 := Nat.mul_lt_mul'' x.isLt y.isLt
  rw [BitVec.toNat_ofNat, Nat.mod_eq_of_lt (by omega)]

/-- Settles O34: `mul` is a write of one register, and `lumul` and `lsmul` are writes of the pair of `r0`, whose 64-bit
value is the unsigned product itself and the signed product modulo 2^64. -/
theorem products : Obligations.Products := by
  intro s a b
  have unsignedPair := writesPair_of_exec (exec_lumul a b s)
  have signedPair := writesPair_of_exec (exec_lsmul a b s)
  rw [toNat_unsignedProduct] at unsignedPair
  rw [BitVec.toNat_ofInt] at signedPair
  rw [← word_mul_eq_ofNat]
  exact ⟨writesReg_of_exec (exec_mul a b s), unsignedPair, signedPair⟩

end Sys2Proof.Proofs
end

section
/-! PROOFS. The return from an interrupt (60_exceptions.md R342 and R343): `reti` and `jmp ira`. -/

namespace Sys2Proof.Proofs

open Sys2Proof.Machine Sys2Proof.Claims

theorem exec_jmpIra (s : State) : exec .jmpIra s = jumpTo s s.ira := rfl

theorem exec_reti (s : State) : exec .reti s = returnFromInterrupt s := rfl

/-- The state after a `reti` to an even `ira` (R342). -/
def returned (s : State) : State := ({ s with ie := true } : State).clearPrefixes.setPc s.ira

theorem exec_reti_even {s : State} (even : s.ira.getLsbD 0 = false) : exec .reti s = .next (returned s) :=
  (exec_reti s).trans ((returnFromInterrupt_eq_next s (returned s)).mpr ⟨even, rfl⟩)

/-- A return is a control transfer of the state with `ie` set, so that state's frame is the return's. -/
theorem quiet_returned (s : State) : quiet [] { s with ie := true } (returned s) :=
  quiet_clearPrefixes_setPc { s with ie := true } s.ira

/-- Settles O29: `reti` is the jump to `ira` with `ie` set first and `jmp ira` the jump alone; the frame of a jump gives
the rest. -/
theorem returnsFromInterrupt : Obligations.ReturnsFromInterrupt := by
  intro s even
  constructor
  · obtain ⟨regs, ⟨ids, ira, ie, ity, sty⟩, memory, fetch, inputs, ended⟩ := quiet_returned s
    exact ⟨returned s, exec_reti_even even, rfl, ie, ira, ity, sty, ids, rfl, regs, memory, fetch, inputs, ended⟩
  · exact goesTo_of_exec (by rw [exec_jmpIra, jumpTo_even s even])

end Sys2Proof.Proofs
end

section
/-! PROOFS. The round trip of encoding and decoding (30_encoding.md R90, R92, R93). -/

namespace Sys2Proof.Proofs

theorem decode_encode_of_short {i : Instr} {u : Half} (units : encodeUnits i = [u]) (short : isLong u = false)
    (decoded : decodeUnits u 0#16 = .ok i) (rest : List Byte) : decode (encode i ++ rest) = .ok (i, rest) := by
  have bytes : encode i = bytesOfUnit u := by rw [encode, units, List.flatMap_singleton]
  rw [bytes, decode_short u rest short, decoded]
  rfl

theorem decode_encode_lpre (imm : BitVec 27) (rest : List Byte) :
    decode (encode (.lpre imm) ++ rest) = .ok (.lpre imm, rest) := by
  have bytes : encode (.lpre imm) =
      bytesOfUnit (0b00010#5 ++ imm.extractLsb' 16 11) ++ bytesOfUnit (imm.extractLsb' 0 16) := rfl
  rw [bytes, List.append_assoc, decode_long _ _ rest (encodeLpreHead_long _), decodeUnits_lpre]
  rfl

/-- Settles O1: every form but `lpre` is one unit of its format, whose fields the decoder reads back; the opcode then names
the form. -/
theorem decodeOfEncode : Obligations.DecodeOfEncode := by
  intro i rest
  cases i with
  | pre imm =>
    refine decode_encode_of_short rfl (encodePre_short imm) ?_ rest
    exact decodeUnits_pre imm _
  | lpre imm => exact decode_encode_lpre imm rest
  | addImm | addPcImm | addSpImm | addFpImm | cmpImm | cpyImm | lslImm | lsrImm | asrImm | andImm | orrImm | xorImm
  | zeImm | seImm | swiReg | swiImm =>
    refine decode_encode_of_short rfl (encodeG1_short _ _ _) ?_ rest
    exact decodeUnits_encodeG1 _ _ _ _
  | add | sub | addSp | addFp | cmp | cpy | lsl | lsr | asr | and | orr | xor | adc | sbc | cmpbc =>
    refine decode_encode_of_short rfl (encodeG2_short _ _ _ _) ?_ rest
    exact decodeUnits_encodeG2 _ _ _ _ _
  | bl | bra | beq | bne | bmi | bpl | bvs | bvc | bgeu | bltu | bgtu | bleu | bges | blts | bgts | bles =>
    refine decode_encode_of_short rfl (encodeG3_short _ _) ?_ rest
    exact decodeUnits_encodeG3 _ _ _
  | jl | jmp | jmpIra | reti | ei | di | push | pushSpecial | pop | popSpecial | popPc | mul | udiv | sdiv | umod | smod
  | lumul | lsmul | udiv64 | sdiv64 | umod64 | smod64 | ldub | ldsb | lduh | ldsh | stb | sth
  | cpyFromSpecial | cpyToSpecial | cpySpecial | index =>
    refine decode_encode_of_short rfl (encodeG4_short _ _ _) ?_ rest
    exact decodeUnits_encodeG4 _ _ _ _
  | ldr a b i =>
    refine decode_encode_of_short rfl (encodeG5_short i b a) ?_ rest
    exact decodeUnits_encodeG5 i b a _
  | str a b i =>
    refine decode_encode_of_short rfl (encodeG6_short i b a) ?_ rest
    exact decodeUnits_encodeG6 i b a _
  | cmpb | lsrb | asrb | cmph | lsrh | asrh =>
    refine decode_encode_of_short rfl (encodeNarrow_short _ _ _ _) ?_ rest
    exact decodeUnits_encodeNarrow _ _ _ _ _
  | ldrSpecial | ldrSpecialAt | strSpecial | strSpecialAt =>
    refine decode_encode_of_short rfl (encodeSpecialAccess_short _ _ _) ?_ rest
    exact decodeUnits_encodeSpecialAccess _ _ _ _
  | icreload a i =>
    refine decode_encode_of_short rfl (encodeIcreload_short i a) ?_ rest
    exact decodeUnits_encodeIcreload i a _

end Sys2Proof.Proofs
end

section
/-! PROOFS. What every step keeps (10_state.md R28, R42; 20_memory.md R81; 40_group0_prefixes.md R137): the invariant of the
states, and the bound on consecutive prefixes. -/

namespace Sys2Proof.Proofs

open Sys2Proof.Machine Sys2Proof.Claims

/-! A step enters the interrupt, is an instruction's meaning, or passes over an unassigned encoding. -/

theorem step_cases {s t : State} (h : step s = .next t) :
    raiseIrq s.sampled = .next t ∨ (∃ i, exec i s.sampled = .next t) ∨ t = s.sampled.retire := by
  rcases (step_eq_next s t).mp h with ⟨-, entered⟩ | ⟨-, d, -, executed⟩
  · exact .inl entered
  · cases d with
    | ok i => exact .inr (.inl ⟨i, executed⟩)
    | error e => exact .inr (.inr ((reservedInstruction_eq_next _ t).mp executed).2)

theorem endsPrefixes_raiseIrq (s : State) : EndsPrefixes (raiseIrq s) := endsPrefixes_jumpTo _ _

/-! The number of prefixes in effect, `pre` and `lpre` counted as one (R133), rises by one or all prefixes end. -/

/-- How many prefixes are in effect. -/
def prefixCount (s : State) : Nat := (s.preHave || s.lpreHave).toNat + s.indexHave.toNat

theorem noPrefix_of_prefixCount_eq_zero {s : State} (h : prefixCount s = 0) : noPrefix s := by
  simpa [prefixCount, noPrefix, and_assoc] using h

theorem prefixCount_le_two (s : State) : prefixCount s ≤ 2 :=
  Nat.add_le_add (Bool.toNat_le _) (Bool.toNat_le _)

theorem exec_prefixCount {i : Instr} {s t : State} (h : exec i s = .next t) :
    noPrefix t ∨ prefixCount t = prefixCount s + 1 := by
  rcases prefixInstr_or_endsPrefixes i s with (imm | imm | a) | ends
  · by_cases invalid : s.preHave = true ∨ s.lpreHave = true
    · cases (exec_pre_nop imm invalid).symm.trans h
      exact .inl (noPrefix_retire s)
    · cases (exec_pre_effect imm invalid).symm.trans h
      simp_all [prefixCount, withPreInEffect, Nat.add_comm]
  · by_cases invalid : s.preHave = true ∨ s.lpreHave = true
    · cases (exec_lpre_nop imm invalid).symm.trans h
      exact .inl (noPrefix_clearPrefixes_setPc s _)
    · cases (exec_lpre_effect imm invalid).symm.trans h
      simp_all [prefixCount, withLpreInEffect, Nat.add_comm]
  · by_cases invalid : s.indexHave = true
    · cases (exec_index_nop a invalid).symm.trans h
      exact .inl (noPrefix_retire s)
    · cases (exec_index_effect a invalid).symm.trans h
      simp_all [prefixCount, withIndexInEffect]
  · exact .inl (ends t h)

theorem step_prefixCount {s t : State} (h : step s = .next t) : noPrefix t ∨ prefixCount t = prefixCount s + 1 := by
  rcases step_cases h with entered | ⟨i, executed⟩ | rfl
  · exact .inl (endsPrefixes_raiseIrq _ t entered)
  · exact exec_prefixCount (s := s.sampled) executed
  · exact .inl (noPrefix_retire _)

/-- Settles O11: with a prefix in effect at all three boundaries the count would rise twice from at least one, past two. -/
theorem interruptHoldOffIsBounded : Obligations.InterruptHoldOffIsBounded := by
  intro s t u first second
  by_cases atS : noPrefix s
  · exact .inl atS
  rcases step_prefixCount first with atT | countT
  · exact .inr (.inl atT)
  rcases step_prefixCount second with atU | countU
  · exact .inr (.inr atU)
  have : prefixCount s ≠ 0 := mt noPrefix_of_prefixCount_eq_zero atS
  have := prefixCount_le_two u
  omega

/-! The invariant of the storage: memory, the written lines and the cached lines. -/

/-- The part of the invariant that speaks of memory, the written lines and the cached lines. -/
structure StorageInv (s : State) : Prop where
  memCanonical : s.memCanonical
  linesCanonical : s.linesCanonical
  cacheCanonical : s.cacheCanonical
  cacheCoherent : s.cacheCoherent

theorem StorageInv.congr {s t : State} (h : StorageInv s) (mem : t.mem = s.mem) (icache : t.icache = s.icache)
    (stale : t.staleLines = s.staleLines) : StorageInv t where
  memCanonical := by rw [State.memCanonical, mem]; exact h.memCanonical
  linesCanonical := by rw [State.linesCanonical, stale]; exact h.linesCanonical
  cacheCanonical := by rw [State.cacheCanonical, icache]; exact h.cacheCanonical
  cacheCoherent := by rw [State.cacheCoherent, stale, icache, mem]; exact h.cacheCoherent

/-- A store marks every line it changes as written, so the lines still to agree with memory are untouched (R81). -/
theorem storageInv_written {s : State} (h : StorageInv s) (a : Word) (n : Nat) (v : Word) :
    StorageInv (s.written a n v) where
  memCanonical := Memory.wf_writeN s.mem a v n h.memCanonical
  linesCanonical := linesAbove_insertLinesOf s.staleLines a n h.linesCanonical
  cacheCanonical := h.cacheCanonical
  cacheCoherent := by
    intro line bytes fresh cached
    rw [State.written_staleLines, mem_insertLinesOf, not_or] at fresh
    obtain ⟨unwritten, fresh⟩ := fresh
    obtain ⟨aligned, inSpace, -⟩ := cachedAbove_cachedLine h.cacheCanonical cached
    have untouched : (s.mem.writeN a v n).lineBytes line = s.mem.lineBytes line :=
      Memory.lineBytes_writeN s.mem a v n line aligned (fun k hk e => unwritten ⟨k, hk, e⟩) inSpace
    exact (h.cacheCoherent line bytes fresh cached).trans untouched.symm

/-- A reload puts the line's bytes into the cache as memory has them (R321). -/
theorem storageInv_reloaded {s : State} (h : StorageInv s) (x : Word) : StorageInv (s.reloaded (lineOf x)) where
  memCanonical := h.memCanonical
  linesCanonical := linesAbove_eraseLine s.staleLines _ 0 h.linesCanonical
  cacheCanonical := cachedAbove_replaceCached s.icache _ h.cacheCanonical (lineOf_lt x) (lineOf_mod x)
    (Memory.lineBytes_length s.mem _)
  cacheCoherent := by
    intro line bytes fresh cached
    rw [State.reloaded_icache, cachedLine_replaceCached] at cached
    rw [State.reloaded_staleLines, mem_eraseLine] at fresh
    split at cached
    · rename_i e
      rw [e, ← Option.some.inj cached]
      rfl
    · rename_i other
      exact h.cacheCoherent line bytes (fun stale => fresh ⟨stale, other⟩) cached

/-! What an outcome carries over from the state before it: everything of the invariant but `State.onePrefix`. -/

/-- The parity of `pc`, the invariant of the storage and the parameters go over from `s` to `t`. -/
structure Carries (s t : State) : Prop where
  pcEven : s.pcEven → t.pcEven
  storage : StorageInv s → StorageInv t
  params : t.params = s.params

/-- A next state, if the outcome is one, has them from `s`. -/
def CarriesTo (s : State) (x : Result State) : Prop := ∀ t, x = .next t → Carries s t

theorem even_add {v : Word} (h : v.getLsbD 0 = false) (k : Nat) : (v + BitVec.ofNat 32 (2 * k)).getLsbD 0 = false := by
  have even := toNat_even h
  rw [BitVec.getLsbD, Nat.testBit_zero, BitVec.toNat_add, BitVec.toNat_ofNat, decide_eq_false_iff_not]
  omega

/-- `u` has the storage invariant, the parameters and `pc` from `s`, as after any update of other fields. -/
structure SameBut (s u : State) : Prop where
  pc : u.pc = s.pc
  storage : StorageInv s → StorageInv u
  params : u.params = s.params

theorem sameBut_of_eq {s u : State} (pc : u.pc = s.pc) (mem : u.mem = s.mem) (icache : u.icache = s.icache)
    (stale : u.staleLines = s.staleLines) (params : u.params = s.params) : SameBut s u :=
  ⟨pc, fun inv => inv.congr mem icache stale, params⟩

theorem carriesTo_retire {s u : State} (h : SameBut s u) : CarriesTo s (.next u.retire) := by
  rintro t ⟨⟩
  refine ⟨fun even => ?_, fun inv => (h.storage inv).congr rfl rfl rfl, h.params⟩
  rw [State.pcEven, State.retire_pc, h.pc]
  exact even_add even 1

theorem carriesTo_jumpTo {s u : State} (h : SameBut s u) (v : Word) : CarriesTo s (jumpTo u v) := by
  intro t jumped
  obtain ⟨even, rfl⟩ := (jumpTo_eq_next u t v).mp jumped
  exact ⟨fun _ => even, fun inv => (h.storage inv).congr rfl rfl rfl, h.params⟩

theorem carriesTo_ite {s : State} {c : Prop} [Decidable c] {x y : Result State} (hx : CarriesTo s x)
    (hy : CarriesTo s y) : CarriesTo s (if c then x else y) := by
  split
  · exact hx
  · exact hy

theorem carriesTo_andThen {α : Type} {s : State} {x : Result α} {f : α → Result State}
    (hf : ∀ a, x = .next a → CarriesTo s (f a)) : CarriesTo s (andThen x f) := by
  intro t h
  obtain ⟨a, ha, hfa⟩ := (andThen_eq_next x f t).mp h
  exact hf a ha t hfa

theorem carriesTo_withSpecial {s : State} {k : SpecialField} {f : Special → Result State}
    (hf : ∀ q, CarriesTo s (f q)) : CarriesTo s (withSpecial k f) := by
  intro t h
  obtain ⟨q, -, hq⟩ := (withSpecial_eq_next k f t).mp h
  exact hf q t hq

/-- A store changes the storage by `State.written` alone. -/
theorem sameBut_of_store {s u : State} {a : Word} {n : Nat} {v : Word} (h : store s a n v = .next u) : SameBut s u := by
  obtain ⟨-, rfl⟩ := (store_eq_next s u a n v).mp h
  exact ⟨rfl, fun inv => storageInv_written inv a n v, rfl⟩

theorem sameBut_refl (s : State) : SameBut s s := ⟨rfl, id, rfl⟩

theorem sameBut_setReg {s u : State} (h : SameBut s u) (a : Reg) (v : Word) : SameBut s (u.setReg a v) :=
  ⟨h.pc, fun inv => (h.storage inv).congr rfl rfl rfl, h.params⟩

theorem sameBut_setSpecial {s u : State} (h : SameBut s u) (q : Special) (v : Word) : SameBut s (u.setSpecial q v) := by
  cases q <;> exact ⟨h.pc, fun inv => (h.storage inv).congr rfl rfl rfl, h.params⟩

theorem carriesTo_branchIf (taken : Bool) (i : BitVec 9) (s : State) : CarriesTo s (branchIf taken i s) :=
  carriesTo_ite (carriesTo_jumpTo (sameBut_refl s) _) (carriesTo_retire (sameBut_refl s))

theorem carriesTo_enterInterrupt (kind : Interrupt) (ret : Word) (s : State) :
    CarriesTo s (enterInterrupt kind ret s) := by
  refine carriesTo_jumpTo ?_ _
  exact sameBut_of_eq rfl rfl rfl rfl rfl

theorem carriesTo_raiseSwi (arg : Word) (s : State) : CarriesTo s (raiseSwi arg s) :=
  carriesTo_ite (carriesTo_retire (sameBut_refl s)) (carriesTo_enterInterrupt _ _ s)

theorem carriesTo_loadNarrow (a b : Reg) (n : Nat) (extend : Word → Word) (s : State) :
    CarriesTo s (loadNarrow a b n extend s) :=
  carriesTo_andThen fun _ _ => carriesTo_retire (sameBut_setReg (sameBut_refl s) a _)

theorem carriesTo_storeNarrow (a b : Reg) (n : Nat) (s : State) : CarriesTo s (storeNarrow a b n s) :=
  carriesTo_andThen fun _ stored => carriesTo_retire (sameBut_of_store stored)

theorem carriesTo_loadSpecial (q : Special) (addr : Word) (s : State) : CarriesTo s (loadSpecial q addr s) :=
  carriesTo_andThen fun _ _ => carriesTo_retire (sameBut_setSpecial (sameBut_refl s) q _)

theorem carriesTo_storeSpecial (q : Special) (addr : Word) (s : State) : CarriesTo s (storeSpecial q addr s) :=
  carriesTo_andThen fun _ stored => carriesTo_retire (sameBut_of_store stored)

theorem carriesTo_pushWord (b : Reg) (v : Word) (s : State) : CarriesTo s (pushWord b v s) :=
  carriesTo_andThen fun _ stored => carriesTo_retire (sameBut_setReg (sameBut_of_store stored) b _)

theorem carriesTo_popWord (b : Reg) (s : State) {f : Word → State → Result State}
    (hf : ∀ v u, SameBut s u → CarriesTo s (f v u)) : CarriesTo s (popWord b s f) :=
  carriesTo_andThen fun v _ => hf v _ (sameBut_setReg (sameBut_refl s) b _)

theorem carriesTo_icreload (a : Reg) (i : BitVec 5) (s : State) : CarriesTo s (exec (.icreload a i) s) :=
  carriesTo_andThen fun _ _ => carriesTo_retire ⟨rfl, fun inv => storageInv_reloaded inv _, rfl⟩

theorem carriesTo_pre (imm : BitVec 12) (s : State) : CarriesTo s (exec (.pre imm) s) := by
  refine carriesTo_ite (carriesTo_retire (sameBut_refl s)) ?_
  rintro t ⟨⟩
  exact ⟨fun even => even_add even 1, fun inv => inv.congr rfl rfl rfl, rfl⟩

theorem carriesTo_lpre (imm : BitVec 27) (s : State) : CarriesTo s (exec (.lpre imm) s) := by
  refine carriesTo_ite ?_ ?_ <;> rintro t ⟨⟩ <;>
    exact ⟨fun even => even_add even 2, fun inv => inv.congr rfl rfl rfl, rfl⟩

theorem carriesTo_index (a : Reg) (s : State) : CarriesTo s (exec (.index a) s) := by
  refine carriesTo_ite (carriesTo_retire (sameBut_refl s)) ?_
  rintro t ⟨⟩
  exact ⟨fun even => even_add even 1, fun inv => inv.congr rfl rfl rfl, rfl⟩

/-- Every instruction ends in `retire` or a control transfer, and changes the storage by a store or a reload if at all. -/
theorem carriesTo_exec (i : Instr) (s : State) : CarriesTo s (exec i s) := by
  cases i with
  | pre imm => exact carriesTo_pre imm s
  | lpre imm => exact carriesTo_lpre imm s
  | index a => exact carriesTo_index a s
  | icreload a i => exact carriesTo_icreload a i s
  | addImm | addPcImm | addSpImm | addFpImm | cmpImm | cpyImm | lslImm | lsrImm | asrImm | andImm | orrImm | xorImm
  | zeImm | seImm | add | sub | addSp | addFp | cmp | cpy | lsl | lsr | asr | and | orr | xor | adc | sbc | cmpbc
  | ei | di | mul | udiv | sdiv | umod | smod | lumul | lsmul | udiv64 | sdiv64 | umod64 | smod64
  | cmpb | lsrb | asrb | cmph | lsrh | asrh =>
    exact carriesTo_retire (sameBut_of_eq rfl rfl rfl rfl rfl)
  | bl | bra | jl | jmp | jmpIra | reti =>
    refine carriesTo_jumpTo ?_ _
    exact sameBut_of_eq rfl rfl rfl rfl rfl
  | beq | bne | bmi | bpl | bvs | bvc | bgeu | bltu | bgtu | bleu | bges | blts | bgts | bles =>
    exact carriesTo_branchIf _ _ s
  | swiReg | swiImm => exact carriesTo_raiseSwi _ s
  | ldub | ldsb | lduh | ldsh => exact carriesTo_loadNarrow _ _ _ _ s
  | stb | sth => exact carriesTo_storeNarrow _ _ _ s
  | ldr => exact carriesTo_andThen fun _ _ => carriesTo_retire (sameBut_setReg (sameBut_refl s) _ _)
  | str => exact carriesTo_andThen fun _ stored => carriesTo_retire (sameBut_of_store stored)
  | push => exact carriesTo_ite (carriesTo_retire (sameBut_refl s)) (carriesTo_pushWord _ _ s)
  | pop =>
    exact carriesTo_ite (carriesTo_retire (sameBut_refl s))
      (carriesTo_popWord _ s fun _ _ same => carriesTo_retire (sameBut_setReg same _ _))
  | popPc => exact carriesTo_popWord _ s fun _ _ same => carriesTo_jumpTo same _
  | pushSpecial => exact carriesTo_withSpecial fun _ => carriesTo_pushWord _ _ s
  | popSpecial =>
    exact carriesTo_withSpecial fun _ =>
      carriesTo_popWord _ s fun _ _ same => carriesTo_retire (sameBut_setSpecial same _ _)
  | cpyFromSpecial =>
    exact carriesTo_withSpecial fun _ => carriesTo_retire (sameBut_setReg (sameBut_refl s) _ _)
  | cpyToSpecial =>
    exact carriesTo_withSpecial fun _ => carriesTo_retire (sameBut_setSpecial (sameBut_refl s) _ _)
  | cpySpecial =>
    exact carriesTo_withSpecial fun _ => carriesTo_withSpecial fun _ =>
      carriesTo_retire (sameBut_setSpecial (sameBut_refl s) _ _)
  | ldrSpecial => exact carriesTo_withSpecial fun _ => carriesTo_loadSpecial _ _ s
  | strSpecial => exact carriesTo_withSpecial fun _ => carriesTo_storeSpecial _ _ s
  | ldrSpecialAt => exact carriesTo_withSpecial fun _ => carriesTo_withSpecial fun _ => carriesTo_loadSpecial _ _ s
  | strSpecialAt => exact carriesTo_withSpecial fun _ => carriesTo_withSpecial fun _ => carriesTo_storeSpecial _ _ s

theorem carries_sampled (s : State) : Carries s s.sampled := ⟨id, fun inv => inv.congr rfl rfl rfl, rfl⟩

theorem Carries.trans {s t u : State} (first : Carries s t) (second : Carries t u) : Carries s u :=
  ⟨second.pcEven ∘ first.pcEven, second.storage ∘ first.storage, second.params.trans first.params⟩

theorem carries_of_step {s t : State} (h : step s = .next t) : Carries s t := by
  refine (carries_sampled s).trans ?_
  rcases step_cases h with entered | ⟨i, executed⟩ | rfl
  · exact carriesTo_enterInterrupt _ _ _ t entered
  · exact carriesTo_exec i _ t executed
  · exact carriesTo_retire (sameBut_refl _) _ rfl

/-! `pre` and `lpre` are never both in effect (R42, R133). -/

theorem onePrefix_of_noPrefix {t : State} (h : noPrefix t) : t.onePrefix := by
  obtain ⟨pre, -, -⟩ := h
  simp [State.onePrefix, pre]

theorem onePrefix_of_exec {i : Instr} {s t : State} (one : s.onePrefix) (h : exec i s = .next t) : t.onePrefix := by
  rcases prefixInstr_or_endsPrefixes i s with (imm | imm | a) | ends
  · by_cases invalid : s.preHave = true ∨ s.lpreHave = true
    · cases (exec_pre_nop imm invalid).symm.trans h
      exact onePrefix_of_noPrefix (noPrefix_retire s)
    · cases (exec_pre_effect imm invalid).symm.trans h
      exact fun both => invalid (.inr both.2)
  · by_cases invalid : s.preHave = true ∨ s.lpreHave = true
    · cases (exec_lpre_nop imm invalid).symm.trans h
      exact onePrefix_of_noPrefix (noPrefix_clearPrefixes_setPc s _)
    · cases (exec_lpre_effect imm invalid).symm.trans h
      exact fun both => invalid (.inl both.1)
  · by_cases invalid : s.indexHave = true
    · exact onePrefix_of_noPrefix (index_ends_of_indexHave h invalid)
    · cases (exec_index_effect a invalid).symm.trans h
      exact one
  · exact onePrefix_of_noPrefix (ends t h)

theorem onePrefix_of_step {s t : State} (one : s.onePrefix) (h : step s = .next t) : t.onePrefix := by
  rcases step_cases h with entered | ⟨i, executed⟩ | rfl
  · exact onePrefix_of_noPrefix (endsPrefixes_raiseIrq _ t entered)
  · exact onePrefix_of_exec (s := s.sampled) one executed
  · exact onePrefix_of_noPrefix (noPrefix_retire _)

/-- Settles O59: the storage, the parity of `pc` and the parameters are carried over by every meaning, and `pre` takes effect
only where `lpre` is not, and the reverse. -/
theorem stepKeepsTheInvariant : Obligations.StepKeepsTheInvariant := by
  rintro s t ⟨pcEven, one, memory, lines, cache, coherent⟩ h
  have carried := carries_of_step h
  obtain ⟨memory', lines', cache', coherent'⟩ := carried.storage ⟨memory, lines, cache, coherent⟩
  exact ⟨⟨carried.pcEven pcEven, onePrefix_of_step one h, memory', lines', cache', coherent'⟩, carried.params⟩

theorem resetFrom_inv {d : ResetDraw} (even : d.pc.getLsbD 0 = false) (canonical : d.mem.wf = true) :
    (State.resetFrom d).Inv where
  pcEven := even
  onePrefix := onePrefix_of_noPrefix ⟨rfl, rfl, rfl⟩
  memCanonical := canonical
  linesCanonical := rfl
  cacheCanonical := rfl
  cacheCoherent := fun _ _ _ cached => nomatch cached

/-- Settles O60: after reset no line is held and none counts as written, so only `pc` and memory have to be asked for. -/
theorem resetHasTheInvariant : Obligations.ResetHasTheInvariant :=
  ⟨fun _ => resetFrom_inv, resetFrom_inv (d := ResetDraw.named) rfl State.reset_mem_wf⟩

/-- Settles O58: `State.resetFrom` sets the prefixes, `ie`, the cached and the written lines, and takes every other field from
the draw. -/
theorem resetState : Obligations.ResetState := by
  intro d
  exact ⟨rfl, ⟨rfl, rfl, rfl⟩, rfl, rfl, rfl, rfl, rfl, rfl, rfl, rfl, rfl, rfl, rfl, rfl, rfl, rfl, rfl⟩

end Sys2Proof.Proofs
end

section
/-! PROOFS. The unassigned patterns (30_encoding.md R113), sample words, and the immediates with `lpre` and as assembled
(30_encoding.md R106, R108, R120). -/

namespace Sys2Proof.Proofs

open Sys2Proof.Machine Sys2Proof.Claims

/-! The five unassigned patterns as fields, in the way of `Row`. -/

/-- An unassigned pattern of R113's table. -/
inductive Gap where
  | group0 | group2 | narrow | low | high

/-- The unit has the pattern's fixed bits. -/
def Gap.holds (u : Half) : Gap → Prop
  | .group0 => u.extractLsb' 13 3 = 0#3 ∧ u.getLsbD 12 = true ∧ u.getLsbD 11 = true
  | .group2 => u.extractLsb' 13 3 = 2#3 ∧ u.extractLsb' 8 4 = 15#4
  | .narrow => u.extractLsb' 13 3 = 7#3 ∧ u.extractLsb' 11 2 = 0#2 ∧ u.extractLsb' 8 2 = 3#2
  | .low => u.extractLsb' 13 3 = 7#3 ∧ u.extractLsb' 9 4 = 7#4
  | .high => u.extractLsb' 13 3 = 7#3 ∧ u.getLsbD 12 = true

/-- The pattern's mask. -/
def Gap.mask : Gap → Half
  | .group0 => 0xF800#16
  | .group2 => 0xEF00#16
  | .narrow => 0xFB00#16
  | .low => 0xFE00#16
  | .high => 0xF000#16

/-- The pattern's fixed bits as a word. -/
def Gap.matchWord : Gap → Half
  | .group0 => 0x1800#16
  | .group2 => 0x4F00#16
  | .narrow => 0xE300#16
  | .low => 0xEE00#16
  | .high => 0xF000#16

/-- A mask is the union of the fields it covers. -/
theorem Gap.mask_eq_fields (g : Gap) : g.mask = match g with
    | .group0 => fieldMask 13 3 ||| (fieldMask 12 1 ||| fieldMask 11 1)
    | .group2 => fieldMask 13 3 ||| fieldMask 8 4
    | .narrow => fieldMask 13 3 ||| (fieldMask 11 2 ||| fieldMask 8 2)
    | .low => fieldMask 13 3 ||| fieldMask 9 4
    | .high => fieldMask 13 3 ||| fieldMask 12 1 := by
  cases g <;> decide

theorem Gap.matchWord_and_mask (g : Gap) : g.matchWord &&& g.mask = g.matchWord := by
  cases g <;> decide

/-- R113's table, said of the fields. -/
theorem Gap.and_mask_iff_holds (g : Gap) (u : Half) : u &&& g.mask = g.matchWord ↔ g.holds u := by
  rw [← g.matchWord_and_mask, g.mask_eq_fields]
  cases g with
  | group0 => simp only [agree_or_iff, ↓agree_bit_iff, agree_fieldMask_iff]; exact Iff.rfl
  | high => simp only [agree_or_iff, ↓agree_bit_iff, agree_fieldMask_iff]; exact Iff.rfl
  | group2 | narrow | low => simp only [agree_or_iff, agree_fieldMask_iff]; exact Iff.rfl

/-! A unit with an unassigned pattern is rejected. -/

theorem Gap.decodeUnits_of_holds {g : Gap} {u : Half} (h : g.holds u) (u2 : Half) : ∃ e, decodeUnits u u2 = .error e := by
  cases g with
  | group0 =>
    obtain ⟨group, bit12, bit11⟩ := h
    exact ⟨_, by rw [decodeUnits_group0 group, bit12, bit11, if_neg (by decide), if_neg (by decide)]⟩
  | group2 =>
    obtain ⟨group, op⟩ := h
    exact ⟨_, by rw [decodeUnits_group2 group, op, decodeGroup2_unassigned]⟩
  | narrow =>
    obtain ⟨group, sub, op⟩ := h
    exact ⟨_, by rw [decodeUnits_group7 group, decodeGroup7_narrow sub, op, decodeNarrow_unassigned]⟩
  | low =>
    obtain ⟨group, sub⟩ := h
    have high : u.extractLsb' 11 2 = 1#2 := extract_extract sub (k := 2) (by decide)
    have mid : u.extractLsb' 10 3 = 3#3 := extract_extract sub (k := 1) (by decide)
    have bit12 : u.extractLsb' 12 1 = 0#1 := extract_extract sub (k := 3) (by decide)
    rw [decodeUnits_group7 group, decodeGroup7, high, mid, sub, if_neg (by decide), if_neg (by decide),
      if_neg (by decide)]
    split <;> exact ⟨_, rfl⟩
  | high =>
    obtain ⟨group, bit12⟩ := h
    have bit : u.extractLsb' 12 1 = 1#1 := by rw [extract_bit, bit12]; rfl
    have narrow : u.extractLsb' 11 2 ≠ 0#2 := fun e =>
      absurd (bit.symm.trans (extract_extract e (k := 1) (by decide))) (by decide)
    have access : u.extractLsb' 10 3 ≠ 2#3 := fun e =>
      absurd (bit.symm.trans (extract_extract e (k := 2) (by decide))) (by decide)
    have reload : u.extractLsb' 9 4 ≠ 6#4 := fun e =>
      absurd (bit.symm.trans (extract_extract e (k := 3) (by decide))) (by decide)
    rw [decodeUnits_group7 group, decodeGroup7, if_neg narrow, if_neg access, if_neg reload, if_pos bit12]
    exact ⟨_, rfl⟩

/-! A unit that is rejected has an unassigned pattern. -/

theorem gap_or_row_of_group7 {u : Half} (group : u.extractLsb' 13 3 = 7#3) :
    (∃ g : Gap, g.holds u) ∨ ∃ r : Row, r.assigned ∧ r.holds u := by
  by_cases narrow : u.extractLsb' 11 2 = 0#2
  · by_cases op : u.extractLsb' 8 2 = 3#2
    · exact .inl ⟨.narrow, group, narrow, op⟩
    · exact .inr ⟨.narrow _ _, op, group, narrow, rfl, rfl⟩
  by_cases access : u.extractLsb' 10 3 = 2#3
  · exact .inr ⟨.specialAccess _, trivial, group, access, rfl⟩
  by_cases reload : u.extractLsb' 9 4 = 6#4
  · exact .inr ⟨.icreload, trivial, group, reload⟩
  cases bit12 : u.getLsbD 12 with
  | true => exact .inl ⟨.high, group, bit12⟩
  | false =>
    have high : u.extractLsb' 11 2 = (u.extractLsb' 9 4).extractLsb' 2 2 :=
      extract_extract (k := 2) rfl (by decide)
    have mid : u.extractLsb' 10 3 = (u.extractLsb' 9 4).extractLsb' 1 3 :=
      extract_extract (k := 1) rfl (by decide)
    have top : u.getLsbD 12 = (u.extractLsb' 9 4).getLsbD 3 := by simp
    have onlySeven : ∀ x : BitVec 4, x.extractLsb' 2 2 ≠ 0#2 → x.extractLsb' 1 3 ≠ 2#3 → x ≠ 6#4 →
        x.getLsbD 3 = false → x = 7#4 := by decide
    exact .inl ⟨.low, group, onlySeven _ (high ▸ narrow) (mid ▸ access) reload (top ▸ bit12)⟩

theorem gap_or_row (u : Half) : (∃ g : Gap, g.holds u) ∨ ∃ r : Row, r.assigned ∧ r.holds u := by
  rcases group_cases (u.extractLsb' 13 3) with group | group | group | group | group | group | group | group
  · cases bit12 : u.getLsbD 12 with
    | false => exact .inr ⟨.pre, trivial, group, bit12⟩
    | true =>
      cases bit11 : u.getLsbD 11 with
      | false => exact .inr ⟨.lpre, trivial, group, bit12, bit11⟩
      | true => exact .inl ⟨.group0, group, bit12, bit11⟩
  · exact .inr ⟨.g1 _, trivial, group, rfl⟩
  · by_cases op : u.extractLsb' 8 4 = 15#4
    · exact .inl ⟨.group2, group, op⟩
    · exact .inr ⟨.g2 _, op, group, rfl⟩
  · exact .inr ⟨.g3 _, trivial, group, rfl⟩
  · exact .inr ⟨.g4 _, trivial, group, rfl⟩
  · exact .inr ⟨.g5, trivial, group⟩
  · exact .inr ⟨.g6, trivial, group⟩
  · exact gap_or_row_of_group7 group

theorem gap_of_error {u u2 : Half} {e : DecodeError} (h : decodeUnits u u2 = .error e) : ∃ g : Gap, g.holds u := by
  rcases gap_or_row u with gap | ⟨r, assigned, holds⟩
  · exact gap
  · obtain ⟨i, decoded, -⟩ := r.decodeUnits_of_holds assigned holds u2
    cases decoded.symm.trans h

theorem exists_gap_iff (P : Gap → Prop) :
    (∃ g, P g) ↔ P .group0 ∨ P .group2 ∨ P .narrow ∨ P .low ∨ P .high := by
  constructor
  · rintro ⟨_ | _ | _ | _ | _, h⟩ <;> simp [h]
  · rintro (h | h | h | h | h) <;> exact ⟨_, h⟩

/-- Settles O3: a unit belongs to an assigned row, which decodes, or has one of the five unassigned patterns, which are
rejected. -/
theorem unassignedEncodings : Obligations.UnassignedEncodings := by
  intro u u2
  have patterns : (∃ g : Gap, u &&& g.mask = g.matchWord) ↔ ∃ g : Gap, g.holds u :=
    exists_congr fun g => g.and_mask_iff_holds u
  refine Iff.trans ?_ (patterns.symm.trans (exists_gap_iff _))
  constructor
  · rintro ⟨e, rejected⟩
    exact gap_of_error rejected
  · rintro ⟨g, holds⟩
    exact Gap.decodeUnits_of_holds holds u2

/-- Settles O4: each word is decoded. -/
theorem sampleWordsDecode : Obligations.SampleWordsDecode := by
  unfold Obligations.SampleWordsDecode
  decide

/-! `lpre` in effect. -/

/-- A branch sees the low 23 bits of `lpre.data` (R108). -/
theorem imm9_congr_of_lpre {s t : State} (hs : s.lpreHave = true) (ht : t.lpreHave = true)
    (low : t.lpreData.toNat % 2 ^ 23 = s.lpreData.toNat % 2 ^ 23) (o : BitVec 9) : t.imm9 o = s.imm9 o := by
  have data : t.lpreData.setWidth 23 = s.lpreData.setWidth 23 := BitVec.eq_of_toNat_eq (by
    rw [BitVec.toNat_setWidth, BitVec.toNat_setWidth, low])
  rw [imm9_of_lpre ht, imm9_of_lpre hs, data]

/-- Settles O7: the data of `lpre` stand above the field, and above the 23 bits a branch keeps nothing is seen. -/
theorem immediateWithLpre : Obligations.ImmediateWithLpre := by
  intro s i o hl
  have field5 (signed : Bool) : (s.imm5 signed i).toNat = s.lpreData.toNat * 32 + i.toNat := by
    rw [imm5_of_lpre hl, toNat_append_field]
    rfl
  have field9 : (s.imm9 o).toNat = (s.lpreData.toNat * 512 + o.toNat) % 2 ^ 32 := by
    rw [imm9_of_lpre hl, ← setWidth_append_branchField, BitVec.toNat_setWidth, toNat_append_field]
    rfl
  exact ⟨field5 true, field5 false, field9, fun t ht low => imm9_congr_of_lpre hl ht low o⟩

/-! The assembler's prefix, executed where none is in effect (R120). -/

theorem not_invalid_of_noPrefix {s : State} (h : noPrefix s) : ¬ (s.preHave = true ∨ s.lpreHave = true) := by
  obtain ⟨pre, lpre, -⟩ := h
  simp [pre, lpre]

theorem imm5_of_noPrefix {s : State} (h : noPrefix s) (signed : Bool) (i : BitVec 5) :
    s.imm5 signed i = if signed then i.signExtend 32 else i.setWidth 32 := by
  obtain ⟨pre, lpre, -⟩ := h
  simp [State.imm5, pre, lpre]

theorem imm5_withPreInEffect {s : State} (h : noPrefix s) (d : BitVec 12) (signed : Bool) (i : BitVec 5) :
    (withPreInEffect d s).imm5 signed i = (d ++ i).signExtend 32 :=
  imm5_of_pre (s := withPreInEffect d s) rfl h.2.1 signed i

theorem imm5_withLpreInEffect (s : State) (d : BitVec 27) (signed : Bool) (i : BitVec 5) :
    (withLpreInEffect d s).imm5 signed i = d ++ i :=
  imm5_of_lpre (s := withLpreInEffect d s) rfl signed i

theorem extract_above_field {w : Nat} (v : BitVec w) (n m : Nat) :
    v.extractLsb' n m ++ v.extractLsb' 0 n = (v.extractLsb' 0 (m + n)) :=
  BitVec.extractLsb'_append_extractLsb'_eq_extractLsb' (Nat.zero_add n).symm

theorem prefixFor5_bare {signed : Bool} {v : Word}
    (bare : (if signed then (v.extractLsb' 0 5).signExtend 32 else (v.extractLsb' 0 5).setWidth 32) = v) :
    prefixFor5 signed v = ([], v.extractLsb' 0 5) :=
  if_pos bare

theorem prefixFor5_pre {signed : Bool} {v : Word}
    (bare : ¬ (if signed then (v.extractLsb' 0 5).signExtend 32 else (v.extractLsb' 0 5).setWidth 32) = v)
    (short : (v.extractLsb' 0 17).signExtend 32 = v) :
    prefixFor5 signed v = ([.pre (v.extractLsb' 5 12)], v.extractLsb' 0 5) :=
  (if_neg bare).trans (if_pos short)

theorem prefixFor5_lpre {signed : Bool} {v : Word}
    (bare : ¬ (if signed then (v.extractLsb' 0 5).signExtend 32 else (v.extractLsb' 0 5).setWidth 32) = v)
    (short : ¬ (v.extractLsb' 0 17).signExtend 32 = v) :
    prefixFor5 signed v = ([.lpre (v.extractLsb' 5 27)], v.extractLsb' 0 5) :=
  (if_neg bare).trans (if_neg short)

/-- Settles O56: the assembler leaves the prefix out, or puts in `pre` or `lpre`, as the value is one the bare field, the
17-bit pattern or only the whole word expresses. -/
theorem assembledImmediateIsTheValue : Obligations.AssembledImmediateIsTheValue := by
  intro s signed v none
  have valid := not_invalid_of_noPrefix none
  by_cases bare : (if signed then (v.extractLsb' 0 5).signExtend 32 else (v.extractLsb' 0 5).setWidth 32) = v
  · rw [prefixFor5_bare bare]
    exact (imm5_of_noPrefix none signed _).trans bare
  by_cases short : (v.extractLsb' 0 17).signExtend 32 = v
  · rw [prefixFor5_pre bare short]
    refine ⟨_, exec_pre_effect _ valid, ?_, fun _ _ => rfl, rfl⟩
    rw [imm5_withPreInEffect none, extract_above_field, short]
  · rw [prefixFor5_lpre bare short]
    refine ⟨_, exec_lpre_effect _ valid, ?_, fun _ _ => rfl, rfl⟩
    rw [imm5_withLpreInEffect, BitVec.extractLsb'_append_extractLsb']

end Sys2Proof.Proofs
end

section
/-! PROOFS. The flags of sums and differences (00_scope.md R12) at every width, and the instructions that write them
(41_group1_immediate.md R155, 42_group2_register.md R180 to R186 and R194 to R196, 48_group7_extra.md R311, R312). -/

namespace Sys2Proof.Proofs

open Sys2Proof.Machine Sys2Proof.Claims

/-! `AddWithCarry` as integers. -/

theorem msb_iff {m : Nat} (x : BitVec (m + 1)) : x.msb = true ↔ 2 ^ m ≤ x.toNat := by
  rw [BitVec.msb_eq_decide, decide_eq_true_iff, Nat.add_sub_cancel]

theorem toInt_of_msb {m : Nat} {x : BitVec (m + 1)} :
    x.toInt = if 2 ^ m ≤ x.toNat then (x.toNat : Int) - 2 * 2 ^ m else x.toNat := by
  rw [BitVec.toInt_eq_msb_cond]
  simp only [msb_iff, Int.pow_succ, Nat.cast_pow, Nat.cast_ofNat, Int.mul_comm]

/-- The unbounded sum of `AddWithCarry` (R12). -/
def carrySum {w : Nat} (x y : BitVec w) (cin : Bool) : Nat := x.toNat + y.toNat + cin.toNat

theorem addWithCarry_value_toNat {w : Nat} (x y : BitVec w) (cin : Bool) :
    (addWithCarry x y cin).value.toNat = carrySum x y cin % 2 ^ w := BitVec.toNat_ofNat _ w

theorem addWithCarry_z {w : Nat} (x y : BitVec w) (cin : Bool) :
    (addWithCarry x y cin).flags.z = true ↔ carrySum x y cin % 2 ^ w = 0 := by
  have isZero : (addWithCarry x y cin).flags.z = true ↔ (addWithCarry x y cin).value = 0#w := decide_eq_true_iff
  rw [isZero, BitVec.toNat_eq, BitVec.toNat_zero, addWithCarry_value_toNat]

theorem addWithCarry_c {w : Nat} (x y : BitVec w) (cin : Bool) :
    (addWithCarry x y cin).flags.c = true ↔ 2 ^ w ≤ carrySum x y cin := decide_eq_true_iff

theorem addWithCarry_n {w : Nat} (x y : BitVec w) (cin : Bool) :
    (addWithCarry x y cin).flags.n = true ↔ 2 ^ (w - 1) ≤ carrySum x y cin % 2 ^ w := by
  have isNegative : (addWithCarry x y cin).flags.n = (addWithCarry x y cin).value.msb := rfl
  rw [isNegative, BitVec.msb_eq_decide, decide_eq_true_iff, addWithCarry_value_toNat]

/-- Operands of one sign with a result of the other: that is an overflow of the signed sum. -/
theorem addWithCarry_v {m : Nat} (x y : BitVec (m + 1)) (cin : Bool) :
    (addWithCarry x y cin).flags.v = true ↔ outOfRange (m + 1) (x.toInt + y.toInt + cin.toNat) := by
  have res := addWithCarry_value_toNat x y cin
  have value : (addWithCarry x y cin).flags.v = true ↔
      (2 ^ m ≤ x.toNat ↔ 2 ^ m ≤ y.toNat) ∧
        ¬ (2 ^ m ≤ (addWithCarry x y cin).value.toNat ↔ 2 ^ m ≤ x.toNat) := by
    simp only [← msb_iff, ← Bool.eq_iff_iff]
    simp [addWithCarry]
  rw [value, res, outOfRange, toInt_of_msb, toInt_of_msb, Nat.add_sub_cancel]
  have cast : ((2 ^ m : Nat) : Int) = 2 ^ m := by simp
  have double : 2 ^ (m + 1) = 2 * 2 ^ m := by omega
  have hx := x.isLt
  have hy := y.isLt
  have hc := Bool.toNat_le cin
  rw [carrySum, ← cast]
  generalize 2 ^ m = p at *
  rw [double] at hx hy ⊢
  rcases Nat.lt_or_ge (x.toNat + y.toNat + cin.toNat) (2 * p) with small | big
  · rw [Nat.mod_eq_of_lt small]
    split <;> split <;> omega
  · rw [Nat.mod_eq_sub_mod big, Nat.mod_eq_of_lt (by omega)]
    split <;> split <;> omega

theorem sumFlags_addWithCarry (x y : Word) (cin : Bool) : sumFlags x y cin.toNat (addWithCarry x y cin).flags :=
  ⟨addWithCarry_z x y cin, addWithCarry_c x y cin, addWithCarry_v x y cin, addWithCarry_n x y cin⟩

/-! A difference is the sum with the complement (R12). -/

/-- The carry in is "no borrow". -/
theorem carrySum_not {w : Nat} (x y : BitVec w) (cin : Bool) :
    (carrySum x (~~~y) cin : Int) = (x.toNat - y.toNat - (1 - cin.toNat : Nat)) + 2 ^ w := by
  have hy := y.isLt
  have cast : ((2 ^ w : Nat) : Int) = 2 ^ w := by simp
  rw [carrySum, BitVec.toNat_not, ← cast]
  cases cin <;> simp only [Bool.toNat_false, Bool.toNat_true] <;> omega

theorem carrySum_not_mod {w : Nat} (x y : BitVec w) (cin : Bool) :
    ((carrySum x (~~~y) cin % 2 ^ w : Nat) : Int) = ((x.toNat : Int) - y.toNat - (1 - cin.toNat : Nat)) % 2 ^ w := by
  rw [Int.natCast_mod, carrySum_not]
  simp

theorem toInt_not_eq {m : Nat} (y : BitVec (m + 1)) : (~~~y).toInt = -1 - y.toInt := by
  have hy := y.isLt
  have cast : ((2 ^ m : Nat) : Int) = 2 ^ m := by simp
  rw [toInt_of_msb, toInt_of_msb, BitVec.toNat_not, ← cast]
  rw [Nat.pow_succ] at *
  generalize 2 ^ m = p at *
  split <;> split <;> omega

theorem differenceFlags_addWithCarry {m : Nat} (x y : BitVec (m + 1)) (cin : Bool) :
    differenceFlags x y (1 - cin.toNat) (addWithCarry x (~~~y) cin).flags := by
  have sum := carrySum_not x y cin
  have mod := carrySum_not_mod x y cin
  have cast : ((2 ^ (m + 1) : Nat) : Int) = 2 ^ (m + 1) := by simp
  refine ⟨?_, ?_, ?_, ?_⟩
  · rw [addWithCarry_z, ← mod]
    omega
  · rw [addWithCarry_c]
    omega
  · rw [addWithCarry_v, toInt_not_eq]
    have signed : x.toInt + (-1 - y.toInt) + cin.toNat = x.toInt - y.toInt - (1 - cin.toNat : Nat) := by
      cases cin <;> simp only [Bool.toNat_false, Bool.toNat_true] <;> omega
    rw [signed]
  · rw [addWithCarry_n, ← mod]
    have half : ((2 ^ (m + 1 - 1) : Nat) : Int) = 2 ^ (m + 1 - 1) := by simp
    omega

theorem differenceFlags_subtract {m : Nat} (x y : BitVec (m + 1)) : differenceFlags x y 0 (subtract x y).flags :=
  differenceFlags_addWithCarry x y true

/-! The result of a sum or difference. -/

theorem addWithCarry_value (x y : Word) (cin : Bool) :
    (addWithCarry x y cin).value = word (x.toNat + y.toNat + cin.toNat) :=
  (BitVec.ofInt_natCast 32 (carrySum x y cin)).symm

theorem addWithCarry_not_value (x y : Word) (cin : Bool) :
    (addWithCarry x (~~~y) cin).value = word (x.toNat - y.toNat - (1 - cin.toNat : Nat)) := by
  have modulus : (word (2 ^ 32) : Word) = 0#32 := by decide
  have value : (addWithCarry x (~~~y) cin).value = word (carrySum x (~~~y) cin) :=
    (BitVec.ofInt_natCast 32 (carrySum x (~~~y) cin)).symm
  rw [value, carrySum_not, word_add, modulus, BitVec.add_zero]

/-! `writeArith`, like `writeLogic`: its register, its flags for each `f`, and its frame. -/

@[simp] theorem writeArith_reg_same (f : Bool) (a : Reg) (out : AluOut 32) (s : State) :
    (writeArith f a out s).reg a = out.value := by
  rw [writeArith, State.setFlags_reg, State.setReg_reg_same]

theorem quiet_writeArith_retire (f : Bool) (a : Reg) (out : AluOut 32) (s : State) :
    quiet [a] s (writeArith f a out s).retire :=
  quiet_setFlags (quiet_setReg_retire s a out.value) _

/-- The instruction writes the word of `res` to register `a` and, when `f` = 1, flags that satisfy `flagsAre`; nothing else
but `pc` and the state of the prefixes changes. -/
def writesArith (i : Instr) (f : Bool) (a : Reg) (res : Int) (flagsAre : Flags → Prop) (s : State) : Prop :=
  ∃ t, exec i s = .next t ∧ t.reg a = word res ∧ (f = true → flagsAre t.flags) ∧ (f = false → t.flags = s.flags) ∧
    t.pc = s.pc + 2 ∧ quiet [a] s t

theorem writesArith_of_exec {i : Instr} {f : Bool} {a : Reg} {out : AluOut 32} {s : State} {res : Int}
    {flagsAre : Flags → Prop} (h : exec i s = .next (writeArith f a out s).retire) (value : out.value = word res)
    (flags : flagsAre out.flags) : writesArith i f a res flagsAre s := by
  refine ⟨_, h, ?_, ?_, ?_, rfl, quiet_writeArith_retire f a out s⟩
  · rw [State.retire_reg, writeArith_reg_same, value]
  · rintro rfl
    exact flags
  · rintro rfl
    rfl

theorem writesArith_of_sum {i : Instr} {f : Bool} {a : Reg} {x y : Word} {cin : Bool} {s : State}
    (h : exec i s = .next (writeArith f a (addWithCarry x y cin) s).retire) :
    writesArith i f a (x.toNat + y.toNat + cin.toNat) (sumFlags x y cin.toNat) s :=
  writesArith_of_exec h (addWithCarry_value x y cin) (sumFlags_addWithCarry x y cin)

theorem writesArith_of_difference {i : Instr} {f : Bool} {a : Reg} {x y : Word} {cin : Bool} {s : State}
    (h : exec i s = .next (writeArith f a (addWithCarry x (~~~y) cin) s).retire) :
    writesArith i f a (x.toNat - y.toNat - (1 - cin.toNat : Nat)) (differenceFlags x y (1 - cin.toNat)) s :=
  writesArith_of_exec h (addWithCarry_not_value x y cin) (differenceFlags_addWithCarry x y cin)

/-! The six meanings. -/

theorem exec_add (f : Bool) (a b : Reg) (s : State) :
    exec (.add f a b) s = .next (writeArith f a (addWithCarry (s.reg a) (s.reg b) false) s).retire := rfl

theorem exec_addSp (f : Bool) (a b : Reg) (s : State) :
    exec (.addSp f a b) s = .next (writeArith f a (addWithCarry (s.reg 15#4) (s.reg b) false) s).retire := rfl

theorem exec_addFp (f : Bool) (a b : Reg) (s : State) :
    exec (.addFp f a b) s = .next (writeArith f a (addWithCarry (s.reg 14#4) (s.reg b) false) s).retire := rfl

theorem exec_adc (f : Bool) (a b : Reg) (s : State) :
    exec (.adc f a b) s = .next (writeArith f a (addWithCarry (s.reg a) (s.reg b) s.flags.c) s).retire := rfl

theorem exec_sub (f : Bool) (a b : Reg) (s : State) :
    exec (.sub f a b) s = .next (writeArith f a (addWithCarry (s.reg a) (~~~(s.reg b)) true) s).retire := rfl

theorem exec_sbc (f : Bool) (a b : Reg) (s : State) :
    exec (.sbc f a b) s = .next (writeArith f a (addWithCarry (s.reg a) (~~~(s.reg b)) s.flags.c) s).retire := rfl

/-- Settles O18: each of the six is an `AddWithCarry` of its operands, with the complement of the second for a difference. -/
theorem addAndSubtract : Obligations.AddAndSubtract := by
  intro s f a b i res flagsAre form
  change writesArith i f a res flagsAre s
  rcases form with
    (⟨rfl, rfl, rfl⟩ | ⟨rfl, rfl, rfl⟩ | ⟨rfl, rfl, rfl⟩ | ⟨rfl, rfl, rfl⟩ | ⟨rfl, rfl, rfl⟩ | ⟨rfl, rfl, rfl⟩)
  · simpa using writesArith_of_sum (exec_add f a b s)
  · simpa using writesArith_of_sum (exec_addSp f a b s)
  · simpa using writesArith_of_sum (exec_addFp f a b s)
  · exact writesArith_of_sum (exec_adc f a b s)
  · simpa using writesArith_of_difference (exec_sub f a b s)
  · exact writesArith_of_difference (exec_sbc f a b s)

/-! The compares write flags alone. -/

theorem writesFlags_of_exec {i : Instr} {s : State} {f : Flags} {p : Flags → Prop}
    (h : exec i s = .next (s.setFlags f).retire) (flags : p f) : writesFlags i p s :=
  ⟨_, h, flags, rfl, quiet_setFlags (quiet_clearPrefixes_setPc s _) f⟩

theorem exec_cmpImm (a : Reg) (i : BitVec 5) (s : State) :
    exec (.cmpImm a i) s = .next (s.setFlags (subtract (s.reg a) (s.imm5 true i)).flags).retire := rfl

theorem exec_cmp (a b : Reg) (s : State) :
    exec (.cmp a b) s = .next (s.setFlags (subtract (s.reg a) (s.reg b)).flags).retire := rfl

theorem exec_cmpb (a b : Reg) (s : State) :
    exec (.cmpb a b) s =
      .next (s.setFlags (subtract ((s.reg a).setWidth 8) ((s.reg b).setWidth 8)).flags).retire := rfl

theorem exec_cmph (a b : Reg) (s : State) :
    exec (.cmph a b) s =
      .next (s.setFlags (subtract ((s.reg a).setWidth 16) ((s.reg b).setWidth 16)).flags).retire := rfl

theorem exec_cmpbc (a b : Reg) (s : State) :
    exec (.cmpbc a b) s = .next (s.setFlags (compareWithCarry s.flags (s.reg a) (s.reg b))).retire := rfl

/-- Settles O15: each compare writes the flags of a subtraction, whose formulas hold at every width. -/
theorem compares : Obligations.Compares := by
  constructor
  · intro s a i
    rw [word_simm5]
    exact writesFlags_of_exec (exec_cmpImm a i s) (differenceFlags_subtract _ _)
  · intro s a b
    simp only [BitVec.ofNat_toNat]
    exact ⟨writesFlags_of_exec (exec_cmp a b s) (differenceFlags_subtract _ _),
      writesFlags_of_exec (exec_cmpb a b s) (differenceFlags_subtract _ _),
      writesFlags_of_exec (exec_cmph a b s) (differenceFlags_subtract _ _)⟩

/-- Settles O20: the flags are those of the subtraction with borrow, with the old Z joined to the zero test. -/
theorem compareWithBorrow : Obligations.CompareWithBorrow := by
  intro s a b
  exact writesFlags_of_exec (exec_cmpbc a b s) ⟨_, differenceFlags_addWithCarry _ _ _, rfl⟩

/-! Two words at a time: the carry or borrow between the low and the high word (R282). -/

theorem toNat_word (v : Int) : ((word v).toNat : Int) = v % 4294967296 := by
  rw [word, BitVec.toNat_ofInt]
  omega

/-- The instruction, where it gives a next state, has written a sum or a difference. -/
theorem arith_of_exec {i : Instr} {f : Bool} {a : Reg} {res : Int} {flagsAre : Flags → Prop} {s t : State}
    (arith : writesArith i f a res flagsAre s) (h : exec i s = .next t) :
    ((t.reg a).toNat : Int) = res % 4294967296 ∧ (f = true → flagsAre t.flags) ∧ ∀ r, r ≠ a → t.reg r = s.reg r := by
  obtain ⟨t', h', value, flags, -, -, others, -⟩ := arith
  cases h'.symm.trans h
  exact ⟨by rw [value, toNat_word], flags, fun r hr => others r (by simpa using hr)⟩

theorem doubleWord_add {s t u : State} {f : Bool} {ah al bh bl : Reg} (hah : al ≠ ah) (hbh : al ≠ bh)
    (low : exec (.add true al bl) s = .next t) (high : exec (.adc f ah bh) t = .next u) :
    pairValue (u.reg ah) (u.reg al) =
      (pairValue (s.reg ah) (s.reg al) + pairValue (s.reg bh) (s.reg bl)) % 18446744073709551616 := by
  obtain ⟨lowValue, flags, kept⟩ := arith_of_exec (writesArith_of_sum (exec_add true al bl s)) low
  obtain ⟨highValue, -, kept'⟩ := arith_of_exec (writesArith_of_sum (exec_adc f ah bh t)) high
  obtain ⟨-, carry, -, -⟩ := flags rfl
  rw [kept _ hah.symm, kept _ hbh.symm] at highValue
  rw [pairValue, pairValue, pairValue, kept' _ hah]
  have := (s.reg al).isLt
  have := (s.reg bl).isLt
  cases hc : t.flags.c <;> simp [hc] at lowValue carry highValue <;> omega

theorem doubleWord_sub {s t u : State} {f : Bool} {ah al bh bl : Reg} (hah : al ≠ ah) (hbh : al ≠ bh)
    (low : exec (.sub true al bl) s = .next t) (high : exec (.sbc f ah bh) t = .next u) :
    (pairValue (u.reg ah) (u.reg al) : Int) =
      ((pairValue (s.reg ah) (s.reg al) : Int) - pairValue (s.reg bh) (s.reg bl)) % 18446744073709551616 := by
  obtain ⟨lowValue, flags, kept⟩ := arith_of_exec (writesArith_of_difference (exec_sub true al bl s)) low
  obtain ⟨highValue, -, kept'⟩ := arith_of_exec (writesArith_of_difference (exec_sbc f ah bh t)) high
  obtain ⟨-, noBorrow, -, -⟩ := flags rfl
  rw [kept _ hah.symm, kept _ hbh.symm] at highValue
  rw [pairValue, pairValue, pairValue, kept' _ hah]
  have := (s.reg al).isLt
  have := (s.reg bl).isLt
  cases hc : t.flags.c <;> simp [hc] at lowValue noBorrow highValue <;> omega

/-- Settles O21: C after the low words is the carry, or no borrow, of the high words. -/
theorem doubleWordAddAndSubtract : Obligations.DoubleWordAddAndSubtract := by
  intro s t u f ah al bh bl hah hbh
  exact ⟨doubleWord_add hah hbh, doubleWord_sub hah hbh⟩

theorem flags_of_exec {i : Instr} {p : Flags → Prop} {s t : State} (writes : writesFlags i p s)
    (h : exec i s = .next t) : p t.flags ∧ ∀ r, t.reg r = s.reg r := by
  obtain ⟨t', h', flags, -, others, -⟩ := writes
  cases h'.symm.trans h
  exact ⟨flags, fun r => others r List.not_mem_nil⟩

theorem toInt_append_word (hi lo : Word) : (hi ++ lo).toInt = hi.toInt * 4294967296 + lo.toNat := by
  have := hi.isLt
  have := lo.isLt
  have := toNat_append_field hi lo
  rw [toInt_of_msb (m := 63), toInt_of_msb (m := 31)]
  norm_num at *
  split <;> split <;> omega

/-- The borrow of the low words goes into the difference of the high words, and the zero tests are joined. -/
theorem differenceFlags_append {xh xl yh yl : Word} {low high : Flags} {z : Bool} (lowFlags : differenceFlags xl yl 0 low)
    (highFlags : differenceFlags xh yh (1 - low.c.toNat) { high with z := z }) (joined : high.z = (low.z && z)) :
    differenceFlags (xh ++ xl) (yh ++ yl) 0 high := by
  obtain ⟨lowZ, lowC, -, -⟩ := lowFlags
  obtain ⟨highZ, highC, highV, highN⟩ := highFlags
  have := xl.isLt
  have := yl.isLt
  have := xh.isLt
  have := yh.isLt
  have borrow : (1 - low.c.toNat = 0 ∧ yl.toNat ≤ xl.toNat) ∨ (1 - low.c.toNat = 1 ∧ xl.toNat < yl.toNat) := by
    cases hc : low.c <;> simp [hc] at lowC ⊢ <;> omega
  generalize 1 - low.c.toNat = k at *
  unfold differenceFlags outOfRange
  rw [joined, Bool.and_eq_true, lowZ, toInt_append_word, toInt_append_word, toNat_append_field, toNat_append_field]
  refine ⟨(and_congr_right' highZ).trans ?_, highC.trans ?_, highV.trans ?_, highN.trans ?_⟩
  · norm_num
    omega
  · omega
  · norm_num [outOfRange]
    omega
  · norm_num
    omega

/-- Settles O22: `cmp` leaves the zero test and the borrow of the low words, and `cmpbc` takes both in. -/
theorem doubleWordCompare : Obligations.DoubleWordCompare := by
  intro s t u ah al bh bl low high
  obtain ⟨lowFlags, kept⟩ := flags_of_exec (compares.2 s al bl).1 low
  obtain ⟨⟨z, highFlags, joined⟩, -⟩ := flags_of_exec (compareWithBorrow t ah bh) high
  rw [kept, kept] at highFlags
  exact differenceFlags_append lowFlags highFlags joined

end Sys2Proof.Proofs
end

section
/-! PROOFS. Shifts and extensions (41_group1_immediate.md R157 to R164, 42_group2_register.md R181, R188 to R190,
48_group7_extra.md R313 to R316): their values as integers, at 32 bits and narrow. -/

namespace Sys2Proof.Proofs

open Sys2Proof.Machine Sys2Proof.Claims

/-! `#imm` with `lpre`, with `pre` and with neither (R104, R105, R106). -/

theorem uimm5_of_lpre {s : State} (hl : s.lpreHave = true) (i : BitVec 5) : uimm5 s i = (s.lpreData ++ i).toNat := by
  rw [← simm5_of_lpre hl, uimm5, simm5, if_pos hl, if_pos hl]

theorem uimm5_of_pre {s : State} (hp : s.preHave = true) (hl : s.lpreHave = false) (i : BitVec 5) :
    uimm5 s i = sext 17 (s.preData ++ i).toNat := by
  rw [← simm5_of_pre hp hl]
  simp [uimm5, simm5, hp, hl]

theorem uimm5_of_noPrefix {s : State} (hp : s.preHave = false) (hl : s.lpreHave = false) (i : BitVec 5) :
    uimm5 s i = i.toNat := by
  simp [uimm5, hp, hl]

theorem word_uimm5 (s : State) (i : BitVec 5) : word (uimm5 s i) = s.imm5 false i := by
  cases hl : s.lpreHave with
  | true => rw [uimm5_of_lpre hl, imm5_of_lpre hl, word_toNat]
  | false =>
    cases hp : s.preHave with
    | true => rw [uimm5_of_pre hp hl, imm5_of_pre hp hl, word_sext_toNat (by decide)]
    | false => rw [uimm5_of_noPrefix hp hl, imm5_unsigned_of_noPrefix hp hl, setWidth_eq_word]

/-! The three 32-bit shifts. -/

theorem sshiftRight_eq_ofInt {w : Nat} (x : BitVec w) (n : Nat) : x.sshiftRight n = BitVec.ofInt w (x.toInt / 2 ^ n) := by
  rw [BitVec.sshiftRight, Int.shiftRight_eq_div_pow, Int.natCast_pow]
  rfl

theorem shiftLeft_eq_lslValue (v n : Word) : shiftLeft v n = lslValue v n := by
  unfold shiftLeft lslValue
  split
  · rw [← Nat.shiftLeft_eq]
    rfl
  · rfl

theorem shiftRight_eq_lsrValue (v n : Word) : shiftRight v n = lsrValue v n := by
  unfold shiftRight lsrValue
  split
  · rw [← Nat.shiftRight_eq_div_pow, ← BitVec.toNat_ushiftRight, BitVec.ofNat_toNat, BitVec.setWidth_eq]
  · rfl

theorem shiftRightSigned_eq_asrValue (v n : Word) : shiftRightSigned v n = asrValue v n := by
  unfold shiftRightSigned asrValue
  rw [sshiftRight_eq_ofInt]
  rfl

/-! The meanings of the shifts. -/

theorem exec_lslImm (a : Reg) (i : BitVec 5) (s : State) :
    exec (.lslImm a i) s = .next (s.setReg a (lslValue (s.reg a) (word (uimm5 s i)))).retire := by
  rw [word_uimm5, ← shiftLeft_eq_lslValue]
  rfl

theorem exec_lsrImm (a : Reg) (i : BitVec 5) (s : State) :
    exec (.lsrImm a i) s = .next (s.setReg a (lsrValue (s.reg a) (word (uimm5 s i)))).retire := by
  rw [word_uimm5, ← shiftRight_eq_lsrValue]
  rfl

theorem exec_asrImm (a : Reg) (i : BitVec 5) (s : State) :
    exec (.asrImm a i) s = .next (s.setReg a (asrValue (s.reg a) (word (uimm5 s i)))).retire := by
  rw [word_uimm5, ← shiftRightSigned_eq_asrValue]
  rfl

theorem exec_lsl (f : Bool) (a b : Reg) (s : State) :
    exec (.lsl f a b) s = .next (writeLogic f a (lslValue (s.reg a) (s.reg b)) s).retire := by
  rw [← shiftLeft_eq_lslValue]
  rfl

theorem exec_lsr (f : Bool) (a b : Reg) (s : State) :
    exec (.lsr f a b) s = .next (writeLogic f a (lsrValue (s.reg a) (s.reg b)) s).retire := by
  rw [← shiftRight_eq_lsrValue]
  rfl

theorem exec_asr (f : Bool) (a b : Reg) (s : State) :
    exec (.asr f a b) s = .next (writeLogic f a (asrValue (s.reg a) (s.reg b)) s).retire := by
  rw [← shiftRightSigned_eq_asrValue]
  rfl

theorem writesReg_of_writesResult {i : Instr} {a : Reg} {res : Word} {s : State} (h : writesResult i false a res s) :
    writesReg i a res s := by
  obtain ⟨t, executed, value, -, flags, frame⟩ := h
  exact ⟨t, executed, value, flags rfl, frame⟩

theorem resultFlags_of_writesResult {i : Instr} {a : Reg} {res : Word} {s : State} (h : writesResult i true a res s) :
    ∃ t, exec i s = .next t ∧ t.reg a = res ∧ resultFlags s.flags res t.flags ∧ t.pc = s.pc + 2 ∧ quiet [a] s t := by
  obtain ⟨t, executed, value, flags, -, frame⟩ := h
  exact ⟨t, executed, value, flags rfl, frame⟩

/-- Settles O13: the immediate forms write a register, the register forms a result with or without its flags. -/
theorem shifts : Obligations.Shifts := by
  refine ⟨fun s a i => ?_, fun s a b => ?_, fun s a b => ?_⟩
  · exact ⟨writesReg_of_exec (exec_lslImm a i s), writesReg_of_exec (exec_lsrImm a i s),
      writesReg_of_exec (exec_asrImm a i s)⟩
  · exact ⟨writesReg_of_writesResult (writesResult_of_exec (exec_lsl false a b s)),
      writesReg_of_writesResult (writesResult_of_exec (exec_lsr false a b s)),
      writesReg_of_writesResult (writesResult_of_exec (exec_asr false a b s))⟩
  · exact ⟨resultFlags_of_writesResult (writesResult_of_exec (exec_lsl true a b s)),
      resultFlags_of_writesResult (writesResult_of_exec (exec_lsr true a b s)),
      resultFlags_of_writesResult (writesResult_of_exec (exec_asr true a b s))⟩

/-! `ze` and `se`. -/

theorem zeroExtendFrom_eq (v imm : Word) :
    zeroExtendFrom v imm =
      if imm.toNat < 32 then BitVec.ofNat 32 (v.toNat % 2 ^ imm.toNat) else Config.extOor .ze v imm := by
  rw [← BitVec.toNat_setWidth, BitVec.ofNat_toNat]
  rfl

theorem signExtendFrom_eq (v imm : Word) :
    signExtendFrom v imm =
      if imm.toNat < 32 then word (sext (imm.toNat + 1) (v.toNat % 2 ^ (imm.toNat + 1)))
      else Config.extOor .se v imm := by
  rw [← BitVec.toNat_setWidth, word_sext_toNat (Nat.succ_pos _)]
  rfl

theorem exec_zeImm (a : Reg) (i : BitVec 5) (s : State) :
    exec (.zeImm a i) s = .next (s.setReg a (zeroExtendFrom (s.reg a) (word (uimm5 s i)))).retire := by
  rw [word_uimm5]
  rfl

theorem exec_seImm (a : Reg) (i : BitVec 5) (s : State) :
    exec (.seImm a i) s = .next (s.setReg a (signExtendFrom (s.reg a) (word (uimm5 s i)))).retire := by
  rw [word_uimm5]
  rfl

/-- Settles O14: the field kept is a bit vector of its own width, extended by zeros or by its sign. -/
theorem zeroAndSignExtend : Obligations.ZeroAndSignExtend := by
  intro s a i
  rw [← zeroExtendFrom_eq, ← signExtendFrom_eq]
  exact ⟨writesReg_of_exec (exec_zeImm a i s), writesReg_of_exec (exec_seImm a i s)⟩

/-! The narrow shifts: the result at `w` bits, and its write-back. -/

theorem toNat_narrowShiftRight (w : Nat) (op : ShiftOp) (v n : Word) :
    (narrowShiftRight w op v n).toNat =
      if n.toNat < w then v.toNat % 2 ^ w / 2 ^ n.toNat else (Config.shiftOor op v n).toNat % 2 ^ w := by
  unfold narrowShiftRight
  split
  · rw [BitVec.toNat_ushiftRight, BitVec.toNat_setWidth, Nat.shiftRight_eq_div_pow]
  · rw [BitVec.toNat_setWidth]

theorem toNat_narrowShiftRightSigned {w : Nat} (hw : 0 < w) (op : ShiftOp) (v n : Word) :
    (narrowShiftRightSigned w op v n).toNat =
      if n.toNat < w then (sext w (v.toNat % 2 ^ w) / 2 ^ n.toNat % 2 ^ w).toNat
      else (Config.shiftOor op v n).toNat % 2 ^ w := by
  unfold narrowShiftRightSigned
  split
  · rw [sshiftRight_eq_ofInt, BitVec.toNat_ofInt, ← sext_toNat hw, BitVec.toNat_setWidth, Int.natCast_pow]
    rfl
  · rw [BitVec.toNat_setWidth]

theorem narrowWrite_extend {w : Nat} (hw : 0 < w) (signed : Bool) (old : Word) (res : BitVec w) :
    narrowWrite .extend signed old res =
      if signed = true then word (sext w res.toNat) else BitVec.ofNat 32 res.toNat := by
  rw [word_sext_toNat hw, BitVec.ofNat_toNat]
  rfl

theorem narrowWrite_merge {w : Nat} (signed : Bool) (old : Word) (res : BitVec w) :
    narrowWrite .merge signed old res = BitVec.ofNat 32 (old.toNat / 2 ^ w * 2 ^ w + res.toNat) := by
  apply BitVec.eq_of_getLsbD_eq
  intro k hk
  have written : (narrowWrite .merge signed old res).getLsbD k =
      (old.getLsbD k && !decide (k < w) || res.getLsbD k) := by
    simp [narrowWrite, hk]
  rw [written, BitVec.getLsbD_ofNat, Nat.mul_comm, Nat.testBit_two_pow_mul_add _ res.isLt, Nat.testBit_div_two_pow,
    BitVec.testBit_toNat, BitVec.testBit_toNat]
  by_cases low : k < w
  · simp [hk, low]
  · simp [hk, low, Nat.sub_add_cancel (Nat.le_of_not_lt low), BitVec.getLsbD_of_ge res k (Nat.le_of_not_lt low)]

theorem narrow_writes {w : Nat} (hw : 0 < w) {i : Instr} {signed : Bool} {a : Reg} {res : BitVec w}
    {s : State}
    (h : exec i s = .next (s.setReg a (narrowWrite s.params.narrowShiftWriteback signed (s.reg a) res)).retire) :
    (s.params.narrowShiftWriteback = .extend →
      writesReg i a (if signed = true then word (sext w res.toNat) else BitVec.ofNat 32 res.toNat) s) ∧
    (s.params.narrowShiftWriteback = .merge →
      writesReg i a (BitVec.ofNat 32 ((s.reg a).toNat / 2 ^ w * 2 ^ w + res.toNat)) s) := by
  constructor
  · intro extend
    rw [extend, narrowWrite_extend hw] at h
    exact writesReg_of_exec h
  · intro merge
    rw [merge, narrowWrite_merge] at h
    exact writesReg_of_exec h

/-- Settles O43: the result is a bit vector of the narrow width, which each setting writes back in its own way. -/
theorem narrowShifts : Obligations.NarrowShifts := by
  rintro s a b w i signed op res
    (⟨rfl, rfl, rfl, rfl⟩ | ⟨rfl, rfl, rfl, rfl⟩ | ⟨rfl, rfl, rfl, rfl⟩ | ⟨rfl, rfl, rfl, rfl⟩) value
  · simp only [Bool.false_eq_true, if_false] at value
    rw [← toNat_narrowShiftRight] at value
    exact value ▸ narrow_writes (by decide) rfl
  · simp only [Bool.false_eq_true, if_false] at value
    rw [← toNat_narrowShiftRight] at value
    exact value ▸ narrow_writes (by decide) rfl
  · simp only [if_true] at value
    rw [← toNat_narrowShiftRightSigned (by decide)] at value
    exact value ▸ narrow_writes (by decide) rfl
  · simp only [if_true] at value
    rw [← toNat_narrowShiftRightSigned (by decide)] at value
    exact value ▸ narrow_writes (by decide) rfl

end Sys2Proof.Proofs
end

section
/-! PROOFS. Division and modulo (45_group4_muldiv.md R270, R272 to R275, R278 to R281), at 32 bits and on pairs. -/

namespace Sys2Proof.Proofs

open Sys2Proof.Machine Sys2Proof.Claims

/-! The unsigned operations. -/

theorem divUnsigned_of_zero {w : Nat} (x : BitVec w) {y : BitVec w} (h : y.toNat = 0) :
    divUnsigned x y = Config.divSpecial w .udiv x y :=
  if_pos (BitVec.eq_of_toNat_eq h)

theorem modUnsigned_of_zero {w : Nat} (x : BitVec w) {y : BitVec w} (h : y.toNat = 0) :
    modUnsigned x y = Config.divSpecial w .umod x y :=
  if_pos (BitVec.eq_of_toNat_eq h)

theorem divUnsigned_of_ne_zero {w : Nat} (x : BitVec w) {y : BitVec w} (h : y.toNat ≠ 0) :
    divUnsigned x y = BitVec.ofNat w (x.toNat / y.toNat) :=
  if_neg fun e => h (by rw [e, BitVec.toNat_zero])

theorem modUnsigned_of_ne_zero {w : Nat} (x : BitVec w) {y : BitVec w} (h : y.toNat ≠ 0) :
    modUnsigned x y = BitVec.ofNat w (x.toNat % y.toNat) :=
  if_neg fun e => h (by rw [e, BitVec.toNat_zero])

theorem toNat_divUnsigned {w : Nat} (x : BitVec w) {y : BitVec w} (h : y.toNat ≠ 0) :
    (divUnsigned x y).toNat = x.toNat / y.toNat := by
  rw [divUnsigned_of_ne_zero x h, BitVec.toNat_ofNat, Nat.mod_eq_of_lt (Nat.lt_of_le_of_lt (Nat.div_le_self _ _) x.isLt)]

theorem toNat_modUnsigned {w : Nat} (x : BitVec w) {y : BitVec w} (h : y.toNat ≠ 0) :
    (modUnsigned x y).toNat = x.toNat % y.toNat := by
  rw [modUnsigned_of_ne_zero x h, BitVec.toNat_ofNat, Nat.mod_eq_of_lt (Nat.lt_of_le_of_lt (Nat.mod_le _ _) x.isLt)]

/-! The signed operations. -/

theorem signedDivisionOpen_iff {m : Nat} (x y : BitVec (m + 1)) :
    signedDivisionOpen x y = true ↔ y.toInt = 0 ∨ (x.toInt = -2 ^ m ∧ y.toInt = -1) := by
  have zero : y.toInt = 0 ↔ y = 0#(m + 1) := by rw [← BitVec.toInt_inj, BitVec.toInt_zero]
  have least : x.toInt = -2 ^ m ↔ x = BitVec.intMin (m + 1) := by
    rw [← BitVec.toInt_inj, BitVec.toInt_intMin_of_pos (Nat.succ_pos m)]
    rfl
  have minusOne : y.toInt = -1 ↔ y = BitVec.allOnes (m + 1) := by
    rw [← BitVec.toInt_inj, BitVec.toInt_allOnes, if_pos (Nat.succ_pos m)]
  rw [zero, least, minusOne, signedDivisionOpen, Bool.or_eq_true, Bool.and_eq_true, decide_eq_true_iff,
    decide_eq_true_iff, decide_eq_true_iff]

theorem divSigned_of_open {m : Nat} {x y : BitVec (m + 1)} (h : y.toInt = 0 ∨ (x.toInt = -2 ^ m ∧ y.toInt = -1)) :
    divSigned x y = Config.divSpecial (m + 1) .sdiv x y :=
  if_pos ((signedDivisionOpen_iff x y).mpr h)

theorem modSigned_of_open {m : Nat} {x y : BitVec (m + 1)} (h : y.toInt = 0 ∨ (x.toInt = -2 ^ m ∧ y.toInt = -1)) :
    modSigned x y = Config.divSpecial (m + 1) .smod x y :=
  if_pos ((signedDivisionOpen_iff x y).mpr h)

theorem divSigned_of_defined {m : Nat} {x y : BitVec (m + 1)}
    (h : ¬ (y.toInt = 0 ∨ (x.toInt = -2 ^ m ∧ y.toInt = -1))) :
    divSigned x y = BitVec.ofInt (m + 1) (x.toInt.tdiv y.toInt) :=
  if_neg (mt (signedDivisionOpen_iff x y).mp h)

theorem modSigned_of_defined {m : Nat} {x y : BitVec (m + 1)}
    (h : ¬ (y.toInt = 0 ∨ (x.toInt = -2 ^ m ∧ y.toInt = -1))) :
    modSigned x y = BitVec.ofInt (m + 1) (x.toInt.tmod y.toInt) :=
  if_neg (mt (signedDivisionOpen_iff x y).mp h)

/-! The meanings. -/

theorem exec_udiv (a b : Reg) (s : State) :
    exec (.udiv a b) s = .next (s.setReg a (divUnsigned (s.reg a) (s.reg b))).retire := rfl

theorem exec_umod (a b : Reg) (s : State) :
    exec (.umod a b) s = .next (s.setReg a (modUnsigned (s.reg a) (s.reg b))).retire := rfl

theorem exec_sdiv (a b : Reg) (s : State) :
    exec (.sdiv a b) s = .next (s.setReg a (divSigned (s.reg a) (s.reg b))).retire := rfl

theorem exec_smod (a b : Reg) (s : State) :
    exec (.smod a b) s = .next (s.setReg a (modSigned (s.reg a) (s.reg b))).retire := rfl

theorem exec_udiv64 (a b : Reg) (s : State) :
    exec (.udiv64 a b) s = .next (s.setPair a (divUnsigned (s.pair a) (s.pair b))).retire := rfl

theorem exec_umod64 (a b : Reg) (s : State) :
    exec (.umod64 a b) s = .next (s.setPair a (modUnsigned (s.pair a) (s.pair b))).retire := rfl

theorem exec_sdiv64 (a b : Reg) (s : State) :
    exec (.sdiv64 a b) s = .next (s.setPair a (divSigned (s.pair a) (s.pair b))).retire := rfl

theorem exec_smod64 (a b : Reg) (s : State) :
    exec (.smod64 a b) s = .next (s.setPair a (modSigned (s.pair a) (s.pair b))).retire := rfl

/-- The odd register of a pair, as R278 names it. -/
theorem pairLow_eq_or (a : Reg) : a.pairHigh ||| 1#4 = a.pairLow := by revert a; decide

theorem pair_eq_append (s : State) (a : Reg) : s.reg a.pairHigh ++ s.reg a.pairLow = s.pair a := rfl

/-- Settles O35: a zero divisor gives the free value, and any other a quotient and a remainder that fit. -/
theorem unsignedDivision : Obligations.UnsignedDivision := by
  intro s a b ah al bh bl hah hal hbh hbl
  obtain rfl : ah = a.pairHigh := hah
  obtain rfl : bh = b.pairHigh := hbh
  obtain rfl : al = a.pairLow := hal.trans (pairLow_eq_or a)
  obtain rfl : bl = b.pairLow := hbl.trans (pairLow_eq_or b)
  rw [pairValue_eq_toNat_pair, pairValue_eq_toNat_pair, pair_eq_append, pair_eq_append]
  refine ⟨fun divisor => ?_, fun zero => ?_, fun divisor => ?_, fun zero => ?_⟩
  · rw [← divUnsigned_of_ne_zero _ divisor, ← modUnsigned_of_ne_zero _ divisor]
    exact ⟨writesReg_of_exec (exec_udiv a b s), writesReg_of_exec (exec_umod a b s)⟩
  · rw [← divUnsigned_of_zero _ zero, ← modUnsigned_of_zero _ zero]
    exact ⟨writesReg_of_exec (exec_udiv a b s), writesReg_of_exec (exec_umod a b s)⟩
  · rw [← toNat_divUnsigned _ divisor, ← toNat_modUnsigned _ divisor]
    exact ⟨writesPair_of_exec (exec_udiv64 a b s), writesPair_of_exec (exec_umod64 a b s)⟩
  · rw [← divUnsigned_of_zero _ zero, ← modUnsigned_of_zero _ zero]
    exact ⟨writesPair_of_exec (exec_udiv64 a b s), writesPair_of_exec (exec_umod64 a b s)⟩

/-- Settles O36: the open operands are those of `signedDivisionOpen`, and elsewhere the results are the integer ones. -/
theorem signedDivision : Obligations.SignedDivision := by
  intro s a b
  constructor
  · intro defined
    have quotient : divSigned (s.reg a) (s.reg b) = word _ := divSigned_of_defined (m := 31) defined
    have remainder : modSigned (s.reg a) (s.reg b) = word _ := modSigned_of_defined (m := 31) defined
    rw [← quotient, ← remainder]
    exact ⟨writesReg_of_exec (exec_sdiv a b s), writesReg_of_exec (exec_smod a b s)⟩
  · intro isOpen
    rw [← divSigned_of_open (m := 31) isOpen, ← modSigned_of_open (m := 31) isOpen]
    exact ⟨writesReg_of_exec (exec_sdiv a b s), writesReg_of_exec (exec_smod a b s)⟩

/-- Settles O37: as at 32 bits, with the pairs as operands and the 64 bits of the results as natural numbers. -/
theorem signedDivisionOfPairs : Obligations.SignedDivisionOfPairs := by
  intro s a b ah al bh bl x y hah hal hbh hbl hx hy
  obtain rfl : ah = a.pairHigh := hah
  obtain rfl : bh = b.pairHigh := hbh
  obtain rfl : al = a.pairLow := hal.trans (pairLow_eq_or a)
  obtain rfl : bl = b.pairLow := hbl.trans (pairLow_eq_or b)
  obtain rfl : x = s.pair a := hx
  obtain rfl : y = s.pair b := hy
  constructor
  · intro defined
    have quotient := congrArg BitVec.toNat (divSigned_of_defined (m := 63) defined)
    have remainder := congrArg BitVec.toNat (modSigned_of_defined (m := 63) defined)
    rw [BitVec.toNat_ofInt] at quotient remainder
    exact ⟨quotient ▸ writesPair_of_exec (exec_sdiv64 a b s), remainder ▸ writesPair_of_exec (exec_smod64 a b s)⟩
  · intro isOpen
    rw [← divSigned_of_open (m := 63) isOpen, ← modSigned_of_open (m := 63) isOpen]
    exact ⟨writesPair_of_exec (exec_sdiv64 a b s), writesPair_of_exec (exec_smod64 a b s)⟩

/-! The division identity: where the operation is defined, quotient and remainder are in the signed range (R270). -/

theorem toInt_range (x : Word) : -2147483648 ≤ x.toInt ∧ x.toInt < 2147483648 :=
  ⟨x.le_toInt, x.toInt_lt⟩

theorem toInt_word {v : Int} (least : -2147483648 ≤ v) (most : v < 2147483648) : (word v).toInt = v :=
  BitVec.toInt_ofInt_eq_self (by decide) least most

/-- Only the most negative dividend over minus one leaves the signed range. -/
theorem tdiv_in_range {x y : Int} (least : -2147483648 ≤ x) (most : x < 2147483648)
    (noOverflow : ¬ (x = -2147483648 ∧ y = -1)) :
    -2147483648 ≤ x.tdiv y ∧ x.tdiv y < 2147483648 := by
  by_cases minusOne : y = -1
  · rw [minusOne, Int.tdiv_neg, Int.tdiv_one]
    omega
  by_cases zero : y = 0
  · rw [zero, Int.tdiv_zero]
    omega
  by_cases one : y = 1
  · rw [one, Int.tdiv_one]
    omega
  have size : (x.tdiv y).natAbs = x.natAbs / y.natAbs := Int.natAbs_tdiv x y
  have half : x.natAbs / y.natAbs ≤ x.natAbs / 2 := Nat.div_le_div_left (by omega) (by decide)
  omega

theorem tmod_smaller (x : Int) {y : Int} (divisor : y ≠ 0) : (x.tmod y).natAbs < y.natAbs := by
  rw [Int.natAbs_tmod]
  exact Nat.mod_lt _ (Int.natAbs_pos.mpr divisor)

theorem tmod_sign (x y : Int) : x.tmod y = 0 ∨ (x.tmod y < 0 ↔ x < 0) := by
  by_cases divides : y ∣ x
  · exact .inl (Int.tmod_eq_zero_of_dvd divides)
  · have sign : (x.tmod y).sign = x.sign := by rw [Int.sign_tmod, if_neg divides]
    exact .inr (by rw [← Int.sign_eq_neg_one_iff_neg, sign, Int.sign_eq_neg_one_iff_neg])

theorem reg_of_exec {i : Instr} {a : Reg} {v : Word} {s t : State} (writes : writesReg i a v s)
    (h : exec i s = .next t) : t.reg a = v := by
  obtain ⟨t', h', value, -⟩ := writes
  cases h'.symm.trans h
  exact value

/-- Settles O38: both results are the integer ones, which are in the signed range because the overflow is left out, and
truncated division has the three properties. -/
theorem signedDivisionIdentity : Obligations.SignedDivisionIdentity := by
  intro s t u a b divisor noOverflow quotientStep remainderStep
  obtain ⟨quotient, remainder⟩ := (signedDivision s a b).1 (not_or.mpr ⟨divisor, noOverflow⟩)
  rw [reg_of_exec quotient quotientStep, reg_of_exec remainder remainderStep]
  obtain ⟨least, most⟩ := toInt_range (s.reg a)
  obtain ⟨least', most'⟩ := toInt_range (s.reg b)
  obtain ⟨quotientLeast, quotientMost⟩ := tdiv_in_range least most noOverflow
  have smaller := tmod_smaller (s.reg a).toInt divisor
  rw [toInt_word quotientLeast quotientMost, toInt_word (by omega) (by omega)]
  exact ⟨Int.tdiv_mul_add_tmod _ _, smaller, tmod_sign _ _⟩

end Sys2Proof.Proofs
end

section
/-! PROOFS. Branches on several flags (43_group3_branches.md R221 to R226), after a compare (42_group2_register.md R186), and
as assembled (R210, 30_encoding.md R120). -/

namespace Sys2Proof.Proofs

open Sys2Proof.Machine Sys2Proof.Claims

/-! The meanings of the six branches on a combination of flags. -/

theorem exec_bgtu (o : BitVec 9) (s : State) : exec (.bgtu o) s = branchIf (s.flags.c && !s.flags.z) o s := rfl

theorem exec_bleu (o : BitVec 9) (s : State) : exec (.bleu o) s = branchIf (!s.flags.c || s.flags.z) o s := rfl

theorem exec_bges (o : BitVec 9) (s : State) : exec (.bges o) s = branchIf (!(s.flags.n ^^ s.flags.v)) o s := rfl

theorem exec_blts (o : BitVec 9) (s : State) : exec (.blts o) s = branchIf (s.flags.n ^^ s.flags.v) o s := rfl

theorem exec_bgts (o : BitVec 9) (s : State) :
    exec (.bgts o) s = branchIf (!(s.flags.n ^^ s.flags.v) && !s.flags.z) o s := rfl

theorem exec_bles (o : BitVec 9) (s : State) :
    exec (.bles o) s = branchIf ((s.flags.n ^^ s.flags.v) || s.flags.z) o s := rfl

/-- Settles O25: each of the six is `branchIf` on its combination. -/
theorem combinedFlagBranches : Obligations.CombinedFlagBranches :=
  ⟨branches_of_exec exec_bgtu, branches_of_exec exec_bleu, branches_of_exec exec_bges, branches_of_exec exec_blts,
    branches_of_exec exec_bgts, branches_of_exec exec_bles⟩

/-! What the flags of a difference say of the two registers. -/

theorem difference_z {x y : Word} {f : Flags} (h : differenceFlags x y 0 f) : f.z = true ↔ x = y := by
  obtain ⟨z, -, -, -⟩ := h
  have := x.isLt
  have := y.isLt
  rw [z, BitVec.toNat_eq]
  omega

theorem difference_c {x y : Word} {f : Flags} (h : differenceFlags x y 0 f) : f.c = true ↔ y.toNat ≤ x.toNat := by
  obtain ⟨-, c, -, -⟩ := h
  rwa [Nat.add_zero] at c

/-- N differs from V exactly when the signed difference, in range or not, is negative. -/
theorem difference_less {x y : Word} {f : Flags} (h : differenceFlags x y 0 f) :
    (f.n ^^ f.v) = true ↔ x.toInt < y.toInt := by
  obtain ⟨-, -, v, n⟩ := h
  have := x.isLt
  have := y.isLt
  rw [bne_iff_ne, ne_eq, Bool.eq_iff_iff, v, n, outOfRange, toInt_of_msb (m := 31), toInt_of_msb (m := 31)]
  norm_num
  split <;> split <;> omega

theorem branch_decides {i : Instr} {c : Bool} {o : BitVec 9} {t : State} {holds : Prop}
    (h : exec i t = branchIf c o t) (even : (target t o).getLsbD 0 = false) (decides : c = true ↔ holds) :
    (holds → goesTo i [] (target t o) t) ∧ (¬ holds → goesTo i [] (t.pc + 2) t) := by
  constructor
  · intro met
    obtain rfl := decides.mpr met
    exact goesTo_target_of_taken h even
  · intro unmet
    obtain rfl := Bool.eq_false_of_not_eq_true (mt decides.mp unmet)
    exact goesTo_next_of_notTaken h

/-- Settles O26: Z is equality, C the unsigned order and N xor V the signed order, and each branch asks for one of these or
joins it with Z. -/
theorem compareThenBranch : Obligations.CompareThenBranch := by
  intro s t a b o br holds compared even relation
  obtain ⟨flags, -⟩ := flags_of_exec (compares.2 s a b).1 compared
  have equal := difference_z flags
  have above := difference_c flags
  have less := difference_less flags
  have natEq : s.reg a = s.reg b ↔ (s.reg a).toNat = (s.reg b).toNat := BitVec.toNat_eq
  have intEq : s.reg a = s.reg b ↔ (s.reg a).toInt = (s.reg b).toInt := BitVec.toInt_inj.symm
  rcases relation with ⟨rfl, rel⟩ | ⟨rfl, rel⟩ | ⟨rfl, rel⟩ | ⟨rfl, rel⟩ | ⟨rfl, rel⟩ | ⟨rfl, rel⟩ | ⟨rfl, rel⟩ |
    ⟨rfl, rel⟩ | ⟨rfl, rel⟩ | ⟨rfl, rel⟩
  · exact branch_decides (exec_beq o t) even (equal.trans rel.symm)
  · refine branch_decides (exec_bne o t) even ?_
    rw [Bool.not_eq_true', ← Bool.not_eq_true, equal, rel]
  · exact branch_decides (exec_bgeu o t) even (above.trans rel.symm)
  · refine branch_decides (exec_bltu o t) even ?_
    rw [Bool.not_eq_true', ← Bool.not_eq_true, above, rel, Nat.not_le]
  · refine branch_decides (exec_bgtu o t) even ?_
    rw [Bool.and_eq_true, Bool.not_eq_true', ← Bool.not_eq_true, above, equal, rel, natEq]
    omega
  · refine branch_decides (exec_bleu o t) even ?_
    rw [Bool.or_eq_true, Bool.not_eq_true', ← Bool.not_eq_true, above, equal, rel, natEq]
    omega
  · refine branch_decides (exec_bges o t) even ?_
    rw [Bool.not_eq_true', ← Bool.not_eq_true, less, rel, Int.not_lt]
  · exact branch_decides (exec_blts o t) even (less.trans rel.symm)
  · refine branch_decides (exec_bgts o t) even ?_
    rw [Bool.and_eq_true, Bool.not_eq_true', Bool.not_eq_true', ← Bool.not_eq_true, ← Bool.not_eq_true, less, equal, rel,
      intEq]
    omega
  · refine branch_decides (exec_bles o t) even ?_
    rw [Bool.or_eq_true, less, equal, rel, intEq]
    omega

/-! A branch whose flags are met. -/

theorem xor_of_ne {x y : Bool} (h : x ≠ y) : (x ^^ y) = true := bne_iff_ne.mpr h

/-- Every branch but `bl` whose flags are met is the branch that is taken. -/
theorem exec_of_takesBranch {s : State} {br : BitVec 9 → Instr} (h : takesBranch s br) :
    br = .bl ∨ ∀ o, exec (br o) s = branchIf true o s := by
  rcases h with rfl | rfl | ⟨rfl, f⟩ | ⟨rfl, f⟩ | ⟨rfl, f⟩ | ⟨rfl, f⟩ | ⟨rfl, f⟩ | ⟨rfl, f⟩ | ⟨rfl, f⟩ | ⟨rfl, f⟩ |
    ⟨rfl, f, g⟩ | ⟨rfl, f | f⟩ | ⟨rfl, f⟩ | ⟨rfl, f⟩ | ⟨rfl, f, g⟩ | ⟨rfl, f | f⟩
  · exact .inl rfl
  all_goals refine .inr fun o => ?_
  · exact exec_bra o s
  · rw [exec_beq, f]
  · rw [exec_bne, f, Bool.not_false]
  · rw [exec_bmi, f]
  · rw [exec_bpl, f, Bool.not_false]
  · rw [exec_bvs, f]
  · rw [exec_bvc, f, Bool.not_false]
  · rw [exec_bgeu, f]
  · rw [exec_bltu, f, Bool.not_false]
  · rw [exec_bgtu, f, g, Bool.not_false, Bool.and_true]
  · rw [exec_bleu, f, Bool.not_false, Bool.true_or]
  · rw [exec_bleu, f, Bool.or_true]
  · rw [exec_bges, f, Bool.xor_self, Bool.not_false]
  · rw [exec_blts, xor_of_ne f]
  · rw [exec_bgts, f, g, Bool.xor_self, Bool.not_false, Bool.and_true]
  · rw [exec_bles, xor_of_ne f, Bool.true_or]
  · rw [exec_bles, f, Bool.or_true]

theorem misalignedPc_of_takesBranch {s : State} {br : BitVec 9 → Instr} (h : takesBranch s br) {o : BitVec 9}
    (odd : (target s o).getLsbD 0 = true) : exec (br o) s = .fault .misalignedPc := by
  rcases exec_of_takesBranch h with rfl | taken
  · rw [exec_bl, jumpTo_odd _ odd]
  · exact misalignedPc_of_taken (taken o) odd

theorem reaches_of_takesBranch {s : State} {br : BitVec 9 → Instr} (h : takesBranch s br) {o : BitVec 9}
    (even : (target s o).getLsbD 0 = false) : ∃ t, exec (br o) s = .next t ∧ t.pc = target s o ∧ noPrefix t := by
  rcases exec_of_takesBranch h with rfl | taken
  · obtain ⟨t, jumped, -, pc, -, -, -, -, -, -, ended⟩ := bl_links even
    exact ⟨t, jumped, pc, ended⟩
  · obtain ⟨t, jumped, pc, -, -, -, -, -, -, ended⟩ := goesTo_target_of_taken (taken o) even
    exact ⟨t, jumped, pc, ended⟩

theorem takesBranch_congr {s t : State} (flags : t.flags = s.flags) {br : BitVec 9 → Instr} (h : takesBranch s br) :
    takesBranch t br := by
  rw [takesBranch, flags]
  exact h

/-! The three forms in which the assembler places a branch. -/

/-- The offset from a branch word at `place` to `goal` (R210). -/
def offsetFrom (place goal : Word) : Word := goal - place - 2

theorem assembleBranch_bare {make : BitVec 9 → Instr} {place goal : Word}
    (bare : ((offsetFrom place goal).extractLsb' 0 9).signExtend 32 = offsetFrom place goal) :
    assembleBranch make place goal = [make ((offsetFrom place goal).extractLsb' 0 9)] :=
  if_pos bare

theorem assembleBranch_pre {make : BitVec 9 → Instr} {place goal : Word}
    (bare : ¬ ((offsetFrom place goal).extractLsb' 0 9).signExtend 32 = offsetFrom place goal)
    (short : ((offsetFrom (place + 2) goal).extractLsb' 0 21).signExtend 32 = offsetFrom (place + 2) goal) :
    assembleBranch make place goal =
      [.pre ((offsetFrom (place + 2) goal).extractLsb' 9 12), make ((offsetFrom (place + 2) goal).extractLsb' 0 9)] :=
  (if_neg bare).trans (if_pos short)

theorem assembleBranch_lpre {make : BitVec 9 → Instr} {place goal : Word}
    (bare : ¬ ((offsetFrom place goal).extractLsb' 0 9).signExtend 32 = offsetFrom place goal)
    (short : ¬ ((offsetFrom (place + 2) goal).extractLsb' 0 21).signExtend 32 = offsetFrom (place + 2) goal) :
    assembleBranch make place goal =
      [.lpre (((offsetFrom (place + 4) goal).extractLsb' 9 23).setWidth 27),
        make ((offsetFrom (place + 4) goal).extractLsb' 0 9)] :=
  (if_neg bare).trans (if_neg short)

theorem target_of_offset {s : State} {o : BitVec 9} {goal : Word} (h : s.imm9 o = offsetFrom s.pc goal) :
    target s o = goal := by
  rw [← branchTarget_eq_target, State.branchTarget, h, offsetFrom]
  bv_omega

theorem imm9_withPreInEffect {s : State} (h : noPrefix s) (d : BitVec 12) (o : BitVec 9) :
    (withPreInEffect d s).imm9 o = (d ++ o).signExtend 32 :=
  imm9_of_pre (s := withPreInEffect d s) rfl h.2.1 o

theorem imm9_withLpreInEffect (s : State) (d : BitVec 23) (o : BitVec 9) :
    (withLpreInEffect (d.setWidth 27) s).imm9 o = d ++ o := by
  have low : (d.setWidth 27).setWidth 23 = d := by simp
  rw [imm9_of_lpre (s := withLpreInEffect (d.setWidth 27) s) rfl]
  exact congrArg (· ++ o) low

/-- The branch word stands where the state is, and its field and prefix express the offset from there. -/
theorem reaches_goal {s : State} {br : BitVec 9 → Instr} {o : BitVec 9} {goal : Word} (met : takesBranch s br)
    (even : goal.getLsbD 0 = false) (offset : s.imm9 o = offsetFrom s.pc goal) :
    ∃ t, exec (br o) s = .next t ∧ t.pc = goal ∧ noPrefix t := by
  have reached := target_of_offset offset
  exact reached ▸ reaches_of_takesBranch met (reached.symm ▸ even)

/-- Settles O57: the offset is expressed by the bare field, by `pre` or by `lpre`, always from the branch word's own place. -/
theorem assembledBranchReachesItsTarget : Obligations.AssembledBranchReachesItsTarget := by
  intro s goal br none pcEven even met
  have valid := not_invalid_of_noPrefix none
  by_cases bare : ((offsetFrom s.pc goal).extractLsb' 0 9).signExtend 32 = offsetFrom s.pc goal
  · rw [assembleBranch_bare bare]
    exact reaches_goal met even ((imm9_of_noPrefix none.1 none.2.1 _).trans bare)
  by_cases short : ((offsetFrom (s.pc + 2) goal).extractLsb' 0 21).signExtend 32 = offsetFrom (s.pc + 2) goal
  · rw [assembleBranch_pre bare short]
    have offset := (imm9_withPreInEffect none _ _).trans
      ((congrArg (BitVec.signExtend 32) (extract_above_field (offsetFrom (s.pc + 2) goal) 9 12)).trans short)
    obtain ⟨u, branched, reached⟩ := reaches_goal (s := withPreInEffect _ s) (takesBranch_congr rfl met) even offset
    exact ⟨_, u, exec_pre_effect _ valid, branched, reached⟩
  · rw [assembleBranch_lpre bare short]
    have offset := (imm9_withLpreInEffect s _ _).trans
      (BitVec.extractLsb'_append_extractLsb' (w := 23) (len := 9) (x := offsetFrom (s.pc + 4) goal))
    obtain ⟨u, branched, reached⟩ := reaches_goal (s := withLpreInEffect _ s) (takesBranch_congr rfl met) even offset
    exact ⟨_, u, exec_lpre_effect _ valid, branched, reached⟩

end Sys2Proof.Proofs
end

section
/-! PROOFS. `lpre` (40_group0_prefixes.md R131), `ei` and `di`, and the entry into an interrupt (60_exceptions.md R334 to R338,
R342, R346). -/

namespace Sys2Proof.Proofs

open Sys2Proof.Machine Sys2Proof.Claims

/-- Settles O9: like `pre` and `index`, `lpre` is split into its NOP and the case in which it takes effect. -/
theorem longPrefix : Obligations.LongPrefix := by
  intro s imm
  by_cases invalid : s.preHave = true ∨ s.lpreHave = true
  · refine ⟨_, exec_lpre_nop imm invalid, rfl, ?_, keepsAllButPrefixes_update ..⟩
    rw [if_pos invalid]
    exact noPrefix_clearPrefixes_setPc s _
  · refine ⟨_, exec_lpre_effect imm invalid, rfl, ?_, keepsAllButPrefixes_update ..⟩
    rw [if_neg invalid]
    have noPre : s.preHave = false := Bool.eq_false_of_not_eq_true fun h => invalid (.inl h)
    exact ⟨rfl, rfl, noPre, rfl, rfl⟩

/-! `ei` and `di`. -/

theorem exec_ei (s : State) : exec .ei s = .next ({ s with ie := true } : State).retire := rfl

theorem exec_di (s : State) : exec .di s = .next ({ s with ie := false } : State).retire := rfl

theorem writesIe_of_exec {i : Instr} {s : State} {v : Bool} (h : exec i s = .next ({ s with ie := v } : State).retire) :
    ∃ t, exec i s = .next t ∧ t.ie = v ∧ t.ids = s.ids ∧ t.ira = s.ira ∧ t.ity = s.ity ∧ t.sty = s.sty ∧
      t.flags = s.flags ∧ keepsRegs [] s t ∧ keepsMemory s t ∧ keepsFetch s t ∧ keepsInputs s t ∧ noPrefix t ∧
      t.pc = s.pc + 2 :=
  ⟨_, h, rfl, rfl, rfl, rfl, rfl, rfl, fun _ _ => rfl, fun _ => rfl, ⟨rfl, rfl⟩, ⟨rfl, rfl⟩, noPrefix_retire _, rfl⟩

/-- Settles O30: each of the two is a write of `ie` and the end of an instruction. -/
theorem interruptEnable : Obligations.InterruptEnable := by
  rintro s i v (⟨rfl, rfl⟩ | ⟨rfl, rfl⟩)
  · exact writesIe_of_exec (exec_ei s)
  · exact writesIe_of_exec (exec_di s)

/-! `swi`: its argument, and whether it is masked (R165, R166, R338). -/

theorem exec_swiReg (a : Reg) (i : BitVec 5) (s : State) :
    exec (.swiReg a i) s = raiseSwi (word ((s.reg a).toNat + simm5 s i)) s := by
  rw [word_add_simm5]
  rfl

theorem exec_swiImm (i : BitVec 5) (s : State) : exec (.swiImm i) s = raiseSwi (word (uimm5 s i)) s := by
  rw [word_uimm5]
  rfl

theorem raiseSwi_unmasked {s : State} (h : s.params.swiMaskedByIe = false ∨ s.ie = true) (arg : Word) :
    raiseSwi arg s = enterInterrupt (.swi arg) (s.pc + 2) s := by
  rw [raiseSwi, if_neg]
  rcases h with h | h <;> simp [h]

theorem raiseSwi_masked {s : State} (masks : s.params.swiMaskedByIe = true) (disabled : s.ie = false) (arg : Word) :
    raiseSwi arg s = .next s.retire := by
  rw [raiseSwi, masks, disabled]
  rfl

theorem enterInterrupt_odd {s : State} (odd : s.ids.getLsbD 0 = true) (kind : Interrupt) (ret : Word) :
    enterInterrupt kind ret s = .fault .misalignedPc :=
  jumpTo_odd _ odd

theorem raiseSwi_enters {s : State} (even : s.ids.getLsbD 0 = false)
    (unmasked : s.params.swiMaskedByIe = false ∨ s.ie = true) (arg : Word) :
    ∃ t, raiseSwi arg s = .next t ∧ t.pc = s.ids ∧ t.ira = s.pc + 2 ∧ t.ity = true ∧ t.sty = arg ∧
      t.ie = (if s.params.irqEntryClearsIe = true then false else s.ie) ∧ t.ids = s.ids ∧ t.flags = s.flags ∧
      keepsRegs [] s t ∧ keepsMemory s t ∧ keepsFetch s t ∧ keepsInputs s t ∧ noPrefix t := by
  rw [raiseSwi_unmasked unmasked]
  exact ⟨_, (enterInterrupt_eq_next _ _ s _).mpr ⟨even, rfl⟩, rfl, rfl, rfl, rfl, rfl, rfl, rfl, fun _ _ => rfl,
    fun _ => rfl, ⟨rfl, rfl⟩, ⟨rfl, rfl⟩, rfl, rfl, rfl⟩

/-- Settles O16: both forms raise the interrupt with their argument, and unmasked it is entered. -/
theorem softwareInterrupt : Obligations.SoftwareInterrupt := by
  rintro s a i even unmasked instr arg (⟨rfl, rfl⟩ | ⟨rfl, rfl⟩)
  · rw [exec_swiReg]
    exact raiseSwi_enters even unmasked _
  · rw [exec_swiImm]
    exact raiseSwi_enters even unmasked _

theorem exec_swi {a : Reg} {i : BitVec 5} {instr : Instr} (form : instr = .swiReg a i ∨ instr = .swiImm i) (s : State) :
    ∃ arg, exec instr s = raiseSwi arg s := by
  rcases form with rfl | rfl
  · exact ⟨_, exec_swiReg a i s⟩
  · exact ⟨_, exec_swiImm i s⟩

/-- Settles O17: whatever the argument, a masked `swi` retires and one that is not masked jumps to `ids`. -/
theorem softwareInterruptMaskedOrOddVector : Obligations.SoftwareInterruptMaskedOrOddVector := by
  intro s a i instr form
  obtain ⟨arg, raises⟩ := exec_swi form s
  constructor
  · intro masks disabled
    exact goesTo_of_exec (raises.trans (raiseSwi_masked masks disabled arg))
  · intro unmasked odd
    rw [raises, raiseSwi_unmasked unmasked, enterInterrupt_odd odd]

/-! The IRQ (R334 to R336). -/

theorem takesIrq_of_request {s : State} (request : s.irqLine.head? = some true) (enabled : s.ie = true)
    (none : noPrefix s) : s.takesIrq = true := by
  obtain ⟨pre, lpre, index⟩ := none
  simp [State.takesIrq, State.irqSample, State.prefixed, List.headD_eq_head?_getD, request, enabled, pre, lpre, index]

theorem step_of_takesIrq {s : State} (h : s.takesIrq = true) :
    step s = enterInterrupt .irq s.pc s.sampled :=
  if_pos h

/-- Settles O53: the boundary's check takes the request, and the entry jumps to `ids` with the sample consumed. -/
theorem interruptEntry : Obligations.InterruptEntry := by
  intro s samples request enabled none
  rw [step_of_takesIrq (takesIrq_of_request (by rw [request]; rfl) enabled none)]
  have consumed : s.irqLine.tail = samples := by rw [request]; rfl
  have ie : (if s.params.irqEntryClearsIe then false else s.ie) = !s.params.irqEntryClearsIe := by
    rw [enabled]
    cases s.params.irqEntryClearsIe <;> rfl
  constructor
  · intro even
    exact ⟨_, (enterInterrupt_eq_next .irq s.pc s.sampled _).mpr ⟨even, rfl⟩, rfl, rfl, rfl, rfl, rfl, ie, rfl,
      fun _ _ => rfl, fun _ => rfl, ⟨rfl, rfl⟩, ⟨rfl, rfl, rfl⟩, consumed, rfl⟩
  · intro odd
    exact enterInterrupt_odd (s := s.sampled) odd _ _

/-- Settles O54: the entry saves the even `pc` in `ira`, to which `reti` returns with `ie` set, as it was. -/
theorem returnAfterEntryResumes : Obligations.ReturnAfterEntryResumes := by
  intro s t u request enabled none pcEven stepped returns
  rw [step_of_takesIrq (takesIrq_of_request request enabled none), enterInterrupt_eq_next] at stepped
  obtain ⟨-, entered⟩ := stepped
  have saved : t.ira.getLsbD 0 = false := by
    rw [entered]
    exact pcEven
  cases (exec_reti_even saved).symm.trans returns
  subst entered
  exact ⟨rfl, enabled.symm, rfl, fun _ _ => rfl, fun _ => rfl, ⟨rfl, rfl⟩, ⟨rfl, rfl, rfl⟩, rfl, rfl⟩

end Sys2Proof.Proofs
end

section
/-! PROOFS. Special registers (10_state.md R30, R31, R38, R39; 44_group4_control_stack_special.md R252 to R254): what a field
names, what a register reads as and keeps of a write, the three copies, and the reserved fields. -/

namespace Sys2Proof.Proofs

open Sys2Proof.Machine Sys2Proof.Claims

theorem specialOf_eq_some_iff (k : SpecialField) (q : Special) : specialOf k = some q ↔ fieldNames k q := by
  unfold fieldNames
  cases q <;> (revert k; decide)

theorem toNat_bit (b : Bool) : ((BitVec.ofBool b).setWidth 32 : Word).toNat = b.toNat := by
  cases b <;> rfl

theorem toNat_special (s : State) (q : Special) : (s.special q).toNat = specialValue s q := by
  cases q with
  | flags => exact Flags.toNat_toWord s.flags
  | ie => exact toNat_bit s.ie
  | ity => exact toNat_bit s.ity
  | ids | ira | sty => rfl

/-- A register's value needs no more than its state bits (R39). -/
theorem specialValue_lt (s : State) (q : Special) : specialValue s q < 2 ^ specialBits q := by
  cases q with
  | flags =>
    have := Bool.toNat_le s.flags.z
    have := Bool.toNat_le s.flags.c
    have := Bool.toNat_le s.flags.v
    have := Bool.toNat_le s.flags.n
    simp only [specialValue, specialBits]
    omega
  | ie => exact Nat.lt_succ_of_le (Bool.toNat_le s.ie)
  | ity => exact Nat.lt_succ_of_le (Bool.toNat_le s.ity)
  | ids => exact s.ids.isLt
  | ira => exact s.ira.isLt
  | sty => exact s.sty.isLt

/-! The state bits of what is written (R39). -/

theorem toWord_ofWord (v : Word) : (Flags.ofWord v).toWord = (v.setWidth 4).setWidth 32 := by
  apply BitVec.eq_of_toNat_eq
  rw [Flags.toNat_toWord, BitVec.toNat_setWidth, BitVec.toNat_setWidth]
  simp only [Flags.ofWord, BitVec.getLsbD, Nat.toNat_testBit]
  omega

theorem ofBool_getLsbD_zero (v : Word) : (BitVec.ofBool (v.getLsbD 0)).setWidth 32 = (v.setWidth 1).setWidth 32 := by
  apply BitVec.eq_of_toNat_eq
  rw [toNat_bit, BitVec.toNat_setWidth, BitVec.toNat_setWidth, BitVec.getLsbD, Nat.toNat_testBit]
  omega

theorem toNat_truncated (v : Word) {n : Nat} (hn : n ≤ 32) : ((v.setWidth n).setWidth 32).toNat = v.toNat % 2 ^ n := by
  rw [BitVec.toNat_setWidth, BitVec.toNat_setWidth, Nat.mod_eq_of_lt]
  exact Nat.lt_of_lt_of_le (Nat.mod_lt _ (Nat.two_pow_pos n)) (Nat.pow_le_pow_right (by decide) hn)

theorem toNat_setSpecial_special (s : State) (q : Special) (v : Word) :
    ((s.setSpecial q v).special q).toNat = v.toNat % 2 ^ specialBits q := by
  rw [State.setSpecial_special_same]
  cases q with
  | flags => rw [toWord_ofWord, toNat_truncated v (by decide), specialBits]
  | ie | ity => rw [ofBool_getLsbD_zero, toNat_truncated v (by decide), specialBits]
  | ids | ira | sty => exact (Nat.mod_eq_of_lt v.isLt).symm

/-! The state behind the value a register reads as. -/

theorem eq_testBit_of_toNat {b : Bool} {v : Nat} (h : b.toNat = v % 2) : b = v.testBit 0 := by
  rw [Nat.testBit_zero, ← h]
  cases b <;> rfl

theorem flags_of_value {f : Flags} {v : Nat}
    (h : f.z.toNat + 2 * f.c.toNat + 4 * f.v.toNat + 8 * f.n.toNat = v % 16) :
    f.z = v.testBit 0 ∧ f.c = v.testBit 1 ∧ f.v = v.testBit 2 ∧ f.n = v.testBit 3 := by
  have := Bool.toNat_le f.z
  have := Bool.toNat_le f.c
  have := Bool.toNat_le f.v
  have := Bool.toNat_le f.n
  have shifted (k : Nat) : v.testBit k = (v / 2 ^ k).testBit 0 := by rw [Nat.testBit_div_two_pow, Nat.zero_add]
  rw [shifted 1, shifted 2, shifted 3]
  exact ⟨eq_testBit_of_toNat (by omega), eq_testBit_of_toNat (by omega), eq_testBit_of_toNat (by omega),
    eq_testBit_of_toNat (by omega)⟩

theorem specialHolds_of_toNat {t : State} {q : Special} {v : Nat} (h : (t.special q).toNat = v % 2 ^ specialBits q) :
    specialHolds t q v := by
  rw [toNat_special] at h
  cases q with
  | flags => exact flags_of_value h
  | ie | ity => exact eq_testBit_of_toNat h
  | ids | ira | sty => exact h

/-! An instruction that writes a special register, and the copies. -/

theorem writesSpecial_of_exec {i : Instr} {q : Special} {v : Word} {s : State}
    (h : exec i s = .next (s.setSpecial q v).retire) :
    writesSpecial i q v.toNat [] s (s.setSpecial q v).retire := by
  refine ⟨h, ?_, fun p hp => ?_, fun r _ => ?_, fun a => ?_, ⟨?_, ?_⟩, ⟨?_, ?_⟩, noPrefix_retire _, ?_⟩
  · rw [State.retire_special, toNat_setSpecial_special]
  · rw [State.retire_special, State.setSpecial_special_ne s hp]
  all_goals simp

theorem exec_cpyFromSpecial {k : SpecialField} {q : Special} (names : specialOf k = some q) (a : Reg) (s : State) :
    exec (.cpyFromSpecial a k) s = .next (s.setReg a (s.special q)).retire :=
  withSpecial_some names _

theorem exec_cpyToSpecial {k : SpecialField} {q : Special} (names : specialOf k = some q) (b : Reg) (s : State) :
    exec (.cpyToSpecial k b) s = .next (s.setSpecial q (s.reg b)).retire :=
  withSpecial_some names _

theorem exec_cpySpecial {j k : SpecialField} {p q : Special} (target : specialOf j = some p)
    (source : specialOf k = some q) (s : State) :
    exec (.cpySpecial j k) s = .next (s.setSpecial p (s.special q)).retire :=
  (withSpecial_some target _).trans (withSpecial_some source _)

theorem writesSpecial_holds {i : Instr} {q : Special} {v : Nat} {written : List Reg} {s t : State}
    (h : writesSpecial i q v written s t) : specialHolds t q v := by
  obtain ⟨-, value, -⟩ := h
  exact specialHolds_of_toNat value

/-- Settles O42: a field's name, the value read and the state bits kept are each told register by register; the copies join
them. -/
theorem specialCopies : Obligations.SpecialCopies := by
  refine ⟨specialOf_eq_some_iff, toNat_special, fun s a k q names => ?_, fun s k q b names => ?_,
    fun s j k p q target source => ?_, fun s t i q v written => writesSpecial_holds⟩
  · have value : BitVec.ofNat 32 (specialValue s q) = s.special q := by
      rw [← toNat_special, BitVec.ofNat_toNat, BitVec.setWidth_eq]
    rw [value]
    exact ⟨writesReg_of_exec (exec_cpyFromSpecial ((specialOf_eq_some_iff k q).mpr names) a s), specialValue_lt s q⟩
  · have writes := writesSpecial_of_exec (exec_cpyToSpecial ((specialOf_eq_some_iff k q).mpr names) b s)
    exact ⟨_, writes, writesSpecial_holds writes⟩
  · have writes := writesSpecial_of_exec
      (exec_cpySpecial ((specialOf_eq_some_iff j p).mpr target) ((specialOf_eq_some_iff k q).mpr source) s)
    rw [toNat_special] at writes
    exact ⟨_, writes, writesSpecial_holds writes⟩

/-! Reserved fields (R38). -/

theorem specialOf_reserved {k : SpecialField} (h : 6 ≤ k.toNat) : specialOf k = none := by
  revert k
  decide

theorem withSpecial_reserved {α : Type} {k : SpecialField} (h : 6 ≤ k.toNat) (f : Special → Result α) :
    withSpecial k f = .fault .reservedSreg := by
  rw [withSpecial, specialOf_reserved h]

/-- A fault of what stands behind a first field is one of the whole, as the field's own fault is the same. -/
theorem withSpecial_of_faults {α : Type} (j : SpecialField) {f : Special → Result α}
    (h : ∀ q, f q = .fault .reservedSreg) : withSpecial j f = .fault .reservedSreg := by
  unfold withSpecial
  cases specialOf j with
  | some q => exact h q
  | none => rfl

/-- Settles O48: each meaning asks for the register its fields name before anything else. -/
theorem reservedSpecialFieldFaults : Obligations.ReservedSpecialFieldFaults := by
  intro s k reserved
  constructor
  · intro b
    exact ⟨withSpecial_reserved reserved _, withSpecial_reserved reserved _, withSpecial_reserved reserved _,
      withSpecial_reserved reserved _, withSpecial_reserved reserved _, withSpecial_reserved reserved _⟩
  · intro j
    exact ⟨withSpecial_of_faults j fun _ => withSpecial_reserved reserved _, withSpecial_reserved reserved _,
      withSpecial_of_faults j fun _ => withSpecial_reserved reserved _, withSpecial_reserved reserved _,
      withSpecial_of_faults j fun _ => withSpecial_reserved reserved _, withSpecial_reserved reserved _⟩

end Sys2Proof.Proofs
end

section
/-! PROOFS. Loads, stores and the stack (20_memory.md R62, R65, R76; 44_group4_control_stack_special.md R247 to R251;
46_group4_narrow_loadstore.md; 47_group5_group6_ldr_str.md; 48_group7_extra.md R317 to R320). -/

namespace Sys2Proof.Proofs

open Sys2Proof.Machine Sys2Proof.Claims

/-! `MemRead` as the bytes it reads (R62, R65). -/

theorem toNat_push_byte {x : Word} (fits : x.toNat < 2 ^ 24) (b : Byte) :
    (x <<< 8 ||| b.setWidth 32).toNat = x.toNat * 256 + b.toNat := by
  have hb := b.isLt
  have shifted : x.toNat <<< 8 % 2 ^ 32 = x.toNat <<< 8 := by
    rw [Nat.shiftLeft_eq]
    omega
  rw [BitVec.toNat_or, BitVec.toNat_shiftLeft, shifted, BitVec.toNat_setWidth, Nat.mod_eq_of_lt (by omega),
    ← Nat.shiftLeft_add_eq_or_of_lt hb, Nat.shiftLeft_eq]

theorem byteAt_lt (s : State) (a : Word) : byteAt s a < 256 := (s.mem.read a.toNat).isLt

theorem toNat_readN_byte (s : State) (a : Word) : (s.mem.readN a 1).toNat = byteAt s a := by
  rw [Memory.readN, Memory.readN, toNat_push_byte (by decide), BitVec.toNat_zero, Nat.zero_mul, Nat.zero_add,
    BitVec.add_zero]
  rfl

theorem toNat_readN_half (s : State) (a : Word) : (s.mem.readN a 2).toNat = halfAt s a := by
  have low := toNat_readN_byte s a
  have := byteAt_lt s a
  rw [Memory.readN, toNat_push_byte (by omega), low]
  rfl

theorem toNat_readN_word (s : State) (a : Word) : (s.mem.readN a 4).toNat = wordAt s a := by
  have low := toNat_readN_half s a
  have := byteAt_lt s a
  have := byteAt_lt s (a + 1)
  have := byteAt_lt s (a + 2)
  have three : (s.mem.readN a 3).toNat = halfAt s a * 256 + byteAt s (a + 2) := by
    rw [Memory.readN, toNat_push_byte (by rw [low, halfAt]; omega), low]
    rfl
  have four : (s.mem.readN a 4).toNat = (s.mem.readN a 3).toNat * 256 + byteAt s (a + 3) := by
    rw [Memory.readN, toNat_push_byte (by rw [three, halfAt]; omega)]
    rfl
  rw [four, three, halfAt, wordAt]
  omega

theorem readN_byte (s : State) (a : Word) : s.mem.readN a 1 = BitVec.ofNat 32 (byteAt s a) := by
  rw [← toNat_readN_byte, BitVec.ofNat_toNat, BitVec.setWidth_eq]

theorem readN_half (s : State) (a : Word) : s.mem.readN a 2 = BitVec.ofNat 32 (halfAt s a) := by
  rw [← toNat_readN_half, BitVec.ofNat_toNat, BitVec.setWidth_eq]

theorem readN_word (s : State) (a : Word) : s.mem.readN a 4 = BitVec.ofNat 32 (wordAt s a) := by
  rw [← toNat_readN_word, BitVec.ofNat_toNat, BitVec.setWidth_eq]

theorem signExtend_readN_byte (s : State) (a : Word) :
    ((s.mem.readN a 1).setWidth 8).signExtend 32 = word (sext 8 (byteAt s a)) := by
  rw [← word_sext_toNat (by decide), BitVec.toNat_setWidth, toNat_readN_byte, Nat.mod_eq_of_lt (byteAt_lt s a)]

theorem signExtend_readN_half (s : State) (a : Word) :
    ((s.mem.readN a 2).setWidth 16).signExtend 32 = word (sext 16 (halfAt s a)) := by
  have := byteAt_lt s a
  have := byteAt_lt s (a + 1)
  rw [← word_sext_toNat (by decide), BitVec.toNat_setWidth, toNat_readN_half,
    Nat.mod_eq_of_lt (by rw [halfAt]; omega)]

/-! The five loads. -/

theorem narrowAddress_eq (s : State) (b : Reg) :
    s.narrowAddress b = s.reg b + (if s.indexHave = true then s.indexReg else 0) := rfl

theorem wordAddress_eq (s : State) (b : Reg) (i : BitVec 5) :
    s.wordAddress b i = s.reg b + (if s.indexHave = true then s.indexReg else 0) + word (simm5 s i) := by
  rw [word_simm5]
  rfl

theorem exec_ldub {s : State} {b : Reg} (h : s.permits (s.narrowAddress b) 1) (a : Reg) :
    exec (.ldub a b) s = .next (s.setReg a (BitVec.ofNat 32 (byteAt s (s.narrowAddress b)))).retire := by
  rw [← readN_byte]
  exact (loadNarrow_eq_next ..).mpr ⟨h, rfl⟩

theorem exec_ldsb {s : State} {b : Reg} (h : s.permits (s.narrowAddress b) 1) (a : Reg) :
    exec (.ldsb a b) s = .next (s.setReg a (word (sext 8 (byteAt s (s.narrowAddress b))))).retire := by
  rw [← signExtend_readN_byte]
  exact (loadNarrow_eq_next ..).mpr ⟨h, rfl⟩

theorem exec_lduh {s : State} {b : Reg} (h : s.permits (s.narrowAddress b) 2) (a : Reg) :
    exec (.lduh a b) s = .next (s.setReg a (BitVec.ofNat 32 (halfAt s (s.narrowAddress b)))).retire := by
  rw [← readN_half]
  exact (loadNarrow_eq_next ..).mpr ⟨h, rfl⟩

theorem exec_ldsh {s : State} {b : Reg} (h : s.permits (s.narrowAddress b) 2) (a : Reg) :
    exec (.ldsh a b) s = .next (s.setReg a (word (sext 16 (halfAt s (s.narrowAddress b))))).retire := by
  rw [← signExtend_readN_half]
  exact (loadNarrow_eq_next ..).mpr ⟨h, rfl⟩

theorem exec_ldr {s : State} {b : Reg} {i : BitVec 5} (h : s.permits (s.wordAddress b i) 4) (a : Reg) :
    exec (.ldr a b i) s = .next (s.setReg a (BitVec.ofNat 32 (wordAt s (s.wordAddress b i)))).retire := by
  rw [← readN_word]
  exact (andThen_eq_next ..).mpr ⟨_, load_of_permits h, rfl⟩

/-- Settles O39: each load writes one register with what `MemRead` gives, extended. -/
theorem loads : Obligations.Loads := by
  constructor
  · intro s a b ea address
    obtain rfl := address.trans (narrowAddress_eq s b).symm
    exact ⟨fun h => ⟨writesReg_of_exec (exec_ldub h a), writesReg_of_exec (exec_ldsb h a)⟩,
      fun h => ⟨writesReg_of_exec (exec_lduh h a), writesReg_of_exec (exec_ldsh h a)⟩⟩
  · intro s a b i ea address permitted
    obtain rfl := address.trans (wordAddress_eq s b i).symm
    exact writesReg_of_exec (exec_ldr permitted a)

/-! The frame of a store. -/

/-- The bytes of a written value, the highest first (R62). -/
theorem toNat_written_byte (v : Word) (n : Nat) : ((v >>> (8 * n)).setWidth 8).toNat = v.toNat / 256 ^ n % 256 := by
  rw [BitVec.toNat_setWidth, BitVec.toNat_ushiftRight, Nat.shiftRight_eq_div_pow, Nat.pow_mul]

theorem written_staleLines_iff (s : State) (base : Word) (n : Nat) (v : Word) (l : Nat) :
    l ∈ (s.written base n v).staleLines ↔ l ∈ s.staleLines ∨ ∃ k, k < n ∧ l = lineOf (base + BitVec.ofNat 32 k) := by
  rw [State.written_staleLines, mem_insertLinesOf, or_comm]

theorem written_byte (s : State) (base : Word) {n : Nat} (hn : n ≤ 2 ^ 32) (v : Word) {k : Nat} (hk : k < n) :
    ((s.written base n v).mem.read (base + BitVec.ofNat 32 k).toNat).toNat = v.toNat / 256 ^ (n - 1 - k) % 256 := by
  rw [State.written_mem, Memory.read_writeN s.mem base v n k hn hk, toNat_written_byte]

theorem stores_written_retire (s : State) (base : Word) {n : Nat} (hn : n ≤ 2 ^ 32) (v : Word) :
    stores [] base n v s (s.written base n v).retire :=
  ⟨fun _ hk => written_byte s base hn v hk, fun a => Memory.read_writeN_of_not_within s.mem base v a n,
    written_staleLines_iff s base n v, fun _ _ => rfl, rfl, ⟨rfl, rfl, rfl, rfl, rfl⟩, rfl, ⟨rfl, rfl⟩,
    noPrefix_retire _, rfl⟩

/-- One register may be written with the store. -/
theorem stores_written_setReg_retire (s : State) (base : Word) {n : Nat} (hn : n ≤ 2 ^ 32) (v : Word) (b : Reg)
    (r : Word) : stores [b] base n v s ((s.written base n v).setReg b r).retire := by
  obtain ⟨bytes, others, lines, -, frame⟩ := stores_written_retire s base hn v
  refine ⟨bytes, others, lines, fun j hj => ?_, frame⟩
  rw [State.retire_reg, State.setReg_reg_ne _ (List.ne_of_not_mem_cons hj)]
  rfl

theorem exec_stb {s : State} {b : Reg} (h : s.permits (s.narrowAddress b) 1) (a : Reg) :
    exec (.stb a b) s = .next (s.written (s.narrowAddress b) 1 (s.reg a)).retire :=
  (storeNarrow_eq_next ..).mpr ⟨h, rfl⟩

theorem exec_sth {s : State} {b : Reg} (h : s.permits (s.narrowAddress b) 2) (a : Reg) :
    exec (.sth a b) s = .next (s.written (s.narrowAddress b) 2 (s.reg a)).retire :=
  (storeNarrow_eq_next ..).mpr ⟨h, rfl⟩

theorem exec_str_eq_next (a b : Reg) (i : BitVec 5) (s t : State) :
    exec (.str a b i) s = .next t ↔
      s.permits (s.wordAddress b i) 4 ∧ t = (s.written (s.wordAddress b i) 4 (s.reg a)).retire := by
  refine (andThen_eq_next ..).trans ?_
  simp only [store_eq_next]
  constructor
  · rintro ⟨u, ⟨permitted, rfl⟩, retired⟩
    cases retired
    exact ⟨permitted, rfl⟩
  · rintro ⟨permitted, rfl⟩
    exact ⟨_, ⟨permitted, rfl⟩, rfl⟩

/-- Settles O40: each store is a `MemWrite` of `rA` and the end of an instruction. -/
theorem stores : Obligations.Stores := by
  constructor
  · intro s a b
    exact ⟨narrowAddress_eq s b, fun h => ⟨_, exec_stb h a, stores_written_retire s _ (by decide) _⟩,
      fun h => ⟨_, exec_sth h a, stores_written_retire s _ (by decide) _⟩⟩
  · intro s a b i
    exact ⟨wordAddress_eq s b i,
      fun h => ⟨_, (exec_str_eq_next ..).mpr ⟨h, rfl⟩, stores_written_retire s _ (by decide) _⟩⟩

/-! A load of what a store wrote (R76). -/

theorem permits_of_dvd {s : State} {a : Word} {n m : Nat} (dvd : m ∣ n) (le : m ≤ n) (h : s.permits a n) :
    s.permits a m := by
  obtain ⟨aligned, ram⟩ := h
  refine ⟨aligned.imp_right fun e => ?_, fun k hk => ram k (Nat.lt_of_lt_of_le hk le)⟩
  exact Nat.mod_eq_zero_of_dvd (dvd.trans (Nat.dvd_of_mod_eq_zero e))

theorem narrowAddress_of_noPrefix {s : State} (h : noPrefix s) (b : Reg) : s.narrowAddress b = s.reg b := by
  rw [narrowAddress_eq, h.2.2]
  exact BitVec.add_zero _

theorem wordAddress_of_noPrefix {s : State} (h : noPrefix s) (b : Reg) : s.wordAddress b 0#5 = s.reg b := by
  obtain ⟨pre, lpre, index⟩ := h
  rw [State.wordAddress, imm5_signed_of_noPrefix pre lpre, State.idx, index]
  exact (BitVec.add_zero _).trans (BitVec.add_zero _)

/-- Settles O41: the loads' address is the store's, and the bytes there are those of the stored word. -/
theorem loadAfterStore : Obligations.LoadAfterStore := by
  intro s t a b c none stored
  obtain ⟨permitted, rfl⟩ := (exec_str_eq_next ..).mp stored
  rw [wordAddress_of_noPrefix none] at *
  generalize ht : (s.written (s.reg b) 4 (s.reg a)).retire = t
  have ended : noPrefix t := ht ▸ noPrefix_retire _
  have base : t.reg b = s.reg b := by rw [← ht]; rfl
  have permitted' : t.permits (s.reg b) 4 := by rw [← ht]; exact permitted
  have read : t.mem.readN (s.reg b) 4 = s.reg a := by rw [← ht]; exact Memory.readN_writeN_word ..
  have wordRead : wordAt t (s.reg b) = (s.reg a).toNat := by rw [← toNat_readN_word, read]
  have wordAddress : t.wordAddress b 0#5 = s.reg b := by rw [wordAddress_of_noPrefix ended, base]
  have narrowAddress : t.narrowAddress b = s.reg b := by rw [narrowAddress_of_noPrefix ended, base]
  have := byteAt_lt t (s.reg b)
  have := byteAt_lt t (s.reg b + 1)
  have := byteAt_lt t (s.reg b + 2)
  have := byteAt_lt t (s.reg b + 3)
  rw [wordAt] at wordRead
  refine ⟨⟨_, exec_ldr (wordAddress.symm ▸ permitted') c, ?_⟩,
    ⟨_, exec_ldub (narrowAddress.symm ▸ permits_of_dvd (by decide) (by decide) permitted') c, ?_⟩,
    ⟨_, exec_lduh (narrowAddress.symm ▸ permits_of_dvd (by decide) (by decide) permitted') c, ?_⟩⟩
  · rw [State.retire_reg, State.setReg_reg_same, ← readN_word, wordAddress, read]
  · rw [State.retire_reg, State.setReg_reg_same, narrowAddress, BitVec.toNat_ofNat]
    omega
  · rw [State.retire_reg, State.setReg_reg_same, narrowAddress, BitVec.toNat_ofNat, halfAt]
    omega

end Sys2Proof.Proofs
end

section
/-! PROOFS. Push and pop (44_group4_control_stack_special.md R247 to R251), the special-register loads and stores
(48_group7_extra.md R317 to R320), and control transfers to odd addresses (20_memory.md R68). -/

namespace Sys2Proof.Proofs

open Sys2Proof.Machine Sys2Proof.Claims

/-! Push. -/

theorem exec_push {s : State} {a b : Reg} (h : a ≠ b) : exec (.push a b) s = pushWord b (s.reg a) s := if_neg h

theorem exec_push_self (a : Reg) (s : State) : exec (.push a a) s = .next s.retire := if_pos rfl

theorem exec_pushSpecial {k : SpecialField} {q : Special} (names : specialOf k = some q) (b : Reg) (s : State) :
    exec (.pushSpecial k b) s = pushWord b (s.special q) s :=
  withSpecial_some names _

/-- The state after a push of `v` (R247). -/
def pushed (b : Reg) (v : Word) (s : State) : State := ((s.written (s.reg b) 4 v).setReg b (s.reg b - 4)).retire

theorem pushed_of_exec {i : Instr} {b : Reg} {v : Word} {s : State} (h : exec i s = pushWord b v s)
    (permitted : s.permits (s.reg b) 4) :
    ∃ t, exec i s = .next t ∧ t.reg b = s.reg b - 4 ∧ Claims.stores [b] (s.reg b) 4 v s t := by
  refine ⟨pushed b v s, h.trans ((pushWord_eq_next ..).mpr ⟨permitted, rfl⟩), ?_, ?_⟩
  · rw [pushed, State.retire_reg, State.setReg_reg_same]
  · exact stores_written_setReg_retire s _ (by decide) v b _

/-- Settles O31: a push is a `MemWrite` at `rB` and the decrement of `rB`. -/
theorem pushes : Obligations.Pushes :=
  ⟨fun _ _ _ other permitted => pushed_of_exec (exec_push other) permitted,
    fun s a => goesTo_of_exec (exec_push_self a s),
    fun s _ _ b names permitted => pushed_of_exec (exec_pushSpecial names b s) permitted⟩

/-! Pop. -/

theorem exec_pop_self (a : Reg) (s : State) : exec (.pop a a) s = .next s.retire := if_pos rfl

theorem popWord_of_permits {b : Reg} {s : State} (h : s.permits (s.reg b + 4) 4) (f : Word → State → Result State) :
    popWord b s f = f (s.mem.readN (s.reg b + 4) 4) (s.setReg b (s.reg b + 4)) := by
  rw [popWord, load_of_permits h, andThen_next]

theorem exec_pop {s : State} {a b : Reg} (other : a ≠ b) (h : s.permits (s.reg b + 4) 4) :
    exec (.pop a b) s =
      .next ((s.setReg b (s.reg b + 4)).setReg a (s.mem.readN (s.reg b + 4) 4)).retire :=
  (if_neg other).trans (popWord_of_permits h _)

theorem exec_popSpecial {s : State} {k : SpecialField} {q : Special} (names : specialOf k = some q) {b : Reg}
    (h : s.permits (s.reg b + 4) 4) :
    exec (.popSpecial k b) s =
      .next ((s.setReg b (s.reg b + 4)).setSpecial q (s.mem.readN (s.reg b + 4) 4)).retire :=
  (withSpecial_some names _).trans (popWord_of_permits h _)

theorem exec_popPc {s : State} {b : Reg} (h : s.permits (s.reg b + 4) 4) :
    exec (.popPc b) s = jumpTo (s.setReg b (s.reg b + 4)) (s.mem.readN (s.reg b + 4) 4) :=
  popWord_of_permits h fun v t => jumpTo t v

/-- A second register write joins the list of the frame. -/
theorem quiet_setReg_setReg_retire (s : State) (a b : Reg) (v w : Word) :
    quiet [a, b] s ((s.setReg b w).setReg a v).retire := by
  obtain ⟨-, frame⟩ := quiet_setReg_retire s a v
  refine ⟨fun r hr => ?_, frame⟩
  obtain ⟨notA, notB⟩ : r ≠ a ∧ r ≠ b := by simpa using hr
  rw [State.retire_reg, State.setReg_reg_ne _ notA, State.setReg_reg_ne _ notB]

/-- The write of a special register, with `rB` moved before it. -/
theorem writesSpecial_setReg_of_exec {i : Instr} {q : Special} {v w : Word} {b : Reg} {s : State}
    (h : exec i s = .next ((s.setReg b w).setSpecial q v).retire) :
    writesSpecial i q v.toNat [b] s ((s.setReg b w).setSpecial q v).retire := by
  refine ⟨h, ?_, fun p hp => ?_, fun r hr => ?_, fun a => ?_, ⟨?_, ?_⟩, ⟨?_, ?_⟩, noPrefix_retire _, ?_⟩
  · rw [State.retire_special, toNat_setSpecial_special]
  · rw [State.retire_special, State.setSpecial_special_ne _ hp, State.setReg_special]
  · rw [State.retire_reg, State.setSpecial_reg, State.setReg_reg_ne _ (List.ne_of_not_mem_cons hr)]
  all_goals simp

theorem readN_even {s : State} {a : Word} (h : wordAt s a % 2 = 0) : (s.mem.readN a 4).getLsbD 0 = false := by
  rw [BitVec.getLsbD, toNat_readN_word, Nat.testBit_zero, h]
  rfl

theorem readN_odd {s : State} {a : Word} (h : wordAt s a % 2 = 1) : (s.mem.readN a 4).getLsbD 0 = true := by
  rw [BitVec.getLsbD, toNat_readN_word, Nat.testBit_zero, h]
  rfl

/-- Settles O32: a pop is a `MemRead` above `rB` and the increment of `rB`, and then a register write or a jump. -/
theorem pops : Obligations.Pops := by
  refine ⟨fun s a b other permitted => ?_, fun s a => goesTo_of_exec (exec_pop_self a s),
    fun s k q b names permitted => ?_, fun s b permitted even => ?_⟩
  · refine ⟨_, exec_pop other permitted, ?_, ?_, rfl, rfl, quiet_setReg_setReg_retire s a b _ _⟩
    · rw [State.retire_reg, State.setReg_reg_same, toNat_readN_word]
    · rw [State.retire_reg, State.setReg_reg_ne _ other.symm, State.setReg_reg_same]
  · have writes := writesSpecial_setReg_of_exec (exec_popSpecial names permitted)
    rw [toNat_readN_word] at writes
    refine ⟨_, writes, ?_⟩
    rw [State.retire_reg, State.setSpecial_reg, State.setReg_reg_same]
  · refine ⟨_, (exec_popPc permitted).trans (jumpTo_even _ (readN_even even)), toNat_readN_word s _, ?_, rfl,
      quiet_setReg_clearPrefixes_setPc s b _ _⟩
    rw [State.setPc_reg, State.clearPrefixes_reg, State.setReg_reg_same]

/-! Pop after push. -/

theorem pushed_reg_ne {b r : Reg} (h : r ≠ b) (v : Word) (s : State) : (pushed b v s).reg r = s.reg r := by
  rw [pushed, State.retire_reg, State.setReg_reg_ne _ h]
  rfl

/-- After a push, the pop's address is the push's, and the word there is the one pushed. -/
theorem pushed_top (b : Reg) (v : Word) (s : State) : (pushed b v s).reg b + 4 = s.reg b := by
  rw [pushed, State.retire_reg, State.setReg_reg_same]
  exact BitVec.sub_add_cancel _ _

theorem pushed_read (b : Reg) (v : Word) (s : State) : (pushed b v s).mem.readN (s.reg b) 4 = v :=
  Memory.readN_writeN_word s.mem (s.reg b) v

theorem pushed_setReg_reg (b r : Reg) (v : Word) (s : State) :
    ((pushed b v s).setReg b (s.reg b)).reg r = s.reg r := by
  rw [State.setReg_reg]
  split
  · rename_i e
    rw [e]
  · rename_i other
    exact pushed_reg_ne other v s

/-- Settles O33: the pop reads the pushed word and puts the old pointer back. -/
theorem popAfterPush : Obligations.PopAfterPush := by
  intro s t a b c aOther cOther h
  rw [exec_push aOther, pushWord_eq_next] at h
  obtain ⟨permitted, e⟩ := h
  obtain rfl : t = pushed b (s.reg a) s := e
  have top := pushed_top b (s.reg a) s
  have read := pushed_read b (s.reg a) s
  have permitted' : (pushed b (s.reg a) s).permits ((pushed b (s.reg a) s).reg b + 4) 4 := top.symm ▸ permitted
  constructor
  · have popped := exec_pop cOther permitted'
    rw [top, read] at popped
    refine ⟨_, popped, ?_, ?_, fun r hr => ?_, rfl, ⟨rfl, rfl, rfl, rfl, rfl⟩⟩
    · rw [State.retire_reg, State.setReg_reg_same]
    · rw [State.retire_reg, State.setReg_reg_ne _ cOther.symm, State.setReg_reg_same]
    · rw [State.retire_reg, State.setReg_reg_ne _ (List.ne_of_not_mem_cons hr), pushed_setReg_reg]
  · intro even
    have popped := exec_popPc permitted'
    rw [top, read, jumpTo_even _ even] at popped
    refine ⟨_, popped, rfl, fun r _ => ?_, rfl, ⟨rfl, rfl, rfl, rfl, rfl⟩⟩
    rw [State.setPc_reg, State.clearPrefixes_reg, pushed_setReg_reg]

/-! Special-register loads and stores. -/

theorem loadSpecial_writes {i : Instr} {q : Special} {addr : Word} {s : State} (h : exec i s = loadSpecial q addr s)
    (permitted : s.permits addr 4) : ∃ t, writesSpecial i q (wordAt s addr) [] s t := by
  have writes := writesSpecial_of_exec (h.trans ((loadSpecial_eq_next ..).mpr ⟨permitted, rfl⟩))
  rw [toNat_readN_word] at writes
  exact ⟨_, writes⟩

theorem storeSpecial_stores {i : Instr} {q : Special} {addr : Word} {s : State} (h : exec i s = storeSpecial q addr s)
    (permitted : s.permits addr 4) : ∃ t, exec i s = .next t ∧ Claims.stores [] addr 4 (s.special q) s t :=
  ⟨_, h.trans ((storeSpecial_eq_next ..).mpr ⟨permitted, rfl⟩), stores_written_retire s addr (by decide) _⟩

theorem exec_ldrSpecial {k : SpecialField} {q : Special} (names : specialOf k = some q) (b : Reg) (s : State) :
    exec (.ldrSpecial k b) s = loadSpecial q (s.reg b) s :=
  withSpecial_some names _

theorem exec_strSpecial {k : SpecialField} {q : Special} (names : specialOf k = some q) (b : Reg) (s : State) :
    exec (.strSpecial k b) s = storeSpecial q (s.reg b) s :=
  withSpecial_some names _

theorem exec_ldrSpecialAt {j k : SpecialField} {p q : Special} (target : specialOf j = some p)
    (address : specialOf k = some q) (s : State) : exec (.ldrSpecialAt j k) s = loadSpecial p (s.special q) s :=
  (withSpecial_some target _).trans (withSpecial_some address _)

theorem exec_strSpecialAt {j k : SpecialField} {p q : Special} (source : specialOf j = some p)
    (address : specialOf k = some q) (s : State) : exec (.strSpecialAt j k) s = storeSpecial p (s.special q) s :=
  (withSpecial_some source _).trans (withSpecial_some address _)

/-- Settles O44: both forms load the register their first field names. -/
theorem specialLoads : Obligations.SpecialLoads :=
  ⟨fun s _ _ b names permitted => loadSpecial_writes (exec_ldrSpecial names b s) permitted,
    fun s _ _ _ _ target address permitted => loadSpecial_writes (exec_ldrSpecialAt target address s) permitted⟩

/-- Settles O45: both forms store the register their first field names. -/
theorem specialStores : Obligations.SpecialStores :=
  ⟨fun s _ _ b names permitted => storeSpecial_stores (exec_strSpecial names b s) permitted,
    fun s _ _ _ _ source address permitted => storeSpecial_stores (exec_strSpecialAt source address s) permitted⟩

/-! Odd targets. -/

theorem returnFromInterrupt_odd {s : State} (odd : s.ira.getLsbD 0 = true) :
    returnFromInterrupt s = .fault .misalignedPc :=
  jumpTo_odd _ odd

/-- Settles O27: each of these is a jump to the odd value, a branch where its flags are met. -/
theorem oddTargetsFault : Obligations.OddTargetsFault := by
  refine ⟨fun s o odd => ?_, fun s a odd => ?_, fun s odd => ?_, fun s b permitted odd => ?_⟩
  · have faults {br : BitVec 9 → Instr} (met : takesBranch s br) : exec (br o) s = .fault .misalignedPc :=
      misalignedPc_of_takesBranch met odd
    refine ⟨fun z => ⟨faults ?_, faults ?_, faults ?_⟩, fun z => faults ?_, fun n => faults ?_, fun n => faults ?_,
      fun v => faults ?_, fun v => faults ?_, fun c => faults ?_, fun c => ⟨faults ?_, faults ?_⟩,
      fun c z => faults ?_, fun same => faults ?_, fun differ => ⟨faults ?_, faults ?_⟩, fun same z => faults ?_⟩
    all_goals simp [takesBranch, *]
  · obtain ⟨-, faults⟩ := absoluteJumps s a
    exact faults odd
  · exact ⟨(exec_jmpIra s).trans (jumpTo_odd s odd), (exec_reti s).trans (returnFromInterrupt_odd odd)⟩
  · rw [exec_popPc permitted, jumpTo_odd _ (readN_odd odd)]

end Sys2Proof.Proofs
end

section
/-! PROOFS. Where an access stops (20_memory.md R66, R69, R73; 92_eei_decisions.md D17, D28), and `icreload`
(48_group7_extra.md R321). -/

namespace Sys2Proof.Proofs

open Sys2Proof.Machine Sys2Proof.Claims

/-! Every data access begins with its checks, before anything else is done. -/

theorem andThen_assoc {α β γ : Type} (x : Result α) (f : α → Result β) (g : β → Result γ) :
    andThen (andThen x f) g = andThen x fun a => andThen (f a) g := by
  cases x <;> rfl

theorem exists_specialOf {k : SpecialField} (h : k.assigned = true) : ∃ q, specialOf k = some q :=
  Option.isSome_iff_exists.mp ((specialOf_isSome k).trans h)

theorem loadsFrom_cases {s : State} {i : Instr} {a : Word} {n : Nat} (h : loadsFrom s i a n) :
    ∃ f : Word → Result State, exec i s = andThen (load s a n) f := by
  rcases h with ⟨r, b, rfl | rfl, rfl, rfl⟩ | ⟨r, b, rfl | rfl, rfl, rfl⟩ | ⟨r, b, v, rfl, rfl, rfl⟩ |
    ⟨r, b, other, rfl, rfl, rfl⟩ | ⟨b, rfl, rfl, rfl⟩ | ⟨k, b, assigned, rfl, rfl, rfl⟩ |
    ⟨k, b, assigned, rfl, rfl, rfl⟩ | ⟨j, k, q, assigned, address, rfl, rfl, rfl⟩
  · exact ⟨_, rfl⟩
  · exact ⟨_, rfl⟩
  · exact ⟨_, rfl⟩
  · exact ⟨_, rfl⟩
  · exact ⟨_, rfl⟩
  · exact ⟨_, if_neg other⟩
  · exact ⟨_, rfl⟩
  · obtain ⟨q, names⟩ := exists_specialOf assigned
    exact ⟨_, withSpecial_some names _⟩
  · obtain ⟨q, names⟩ := exists_specialOf assigned
    exact ⟨_, withSpecial_some names _⟩
  · obtain ⟨p, names⟩ := exists_specialOf assigned
    exact ⟨_, exec_ldrSpecialAt names address s⟩

/-- What follows the write of a store changes the written lines no more. -/
theorem storesTo_cases {s : State} {i : Instr} {a : Word} {n : Nat} (h : storesTo s i a n) :
    ∃ (v : Word) (f : State → Result State), exec i s = andThen (store s a n v) f ∧
      ∀ u t, f u = .next t → t.staleLines = u.staleLines := by
  have retired (u t : State) (e : .next u.retire = (.next t : Result State)) : t.staleLines = u.staleLines := by
    cases e
    rfl
  have moved (b : Reg) (w : Word) (u t : State) (e : .next (u.setReg b w).retire = (.next t : Result State)) :
      t.staleLines = u.staleLines := by
    cases e
    rfl
  rcases h with ⟨r, b, rfl, rfl, rfl⟩ | ⟨r, b, rfl, rfl, rfl⟩ | ⟨r, b, v, rfl, rfl, rfl⟩ |
    ⟨r, b, other, rfl, rfl, rfl⟩ | ⟨k, b, assigned, rfl | rfl, rfl, rfl⟩ | ⟨j, k, q, assigned, address, rfl, rfl, rfl⟩
  · exact ⟨_, _, rfl, retired⟩
  · exact ⟨_, _, rfl, retired⟩
  · exact ⟨_, _, rfl, retired⟩
  · exact ⟨_, _, exec_push other, moved b _⟩
  · obtain ⟨q, names⟩ := exists_specialOf assigned
    exact ⟨_, _, exec_pushSpecial names b s, moved b _⟩
  · obtain ⟨q, names⟩ := exists_specialOf assigned
    exact ⟨_, _, exec_strSpecial names b s, retired⟩
  · obtain ⟨p, names⟩ := exists_specialOf assigned
    exact ⟨_, _, exec_strSpecialAt names address s, retired⟩

theorem access_cases {s : State} {i : Instr} {a : Word} {n : Nat} (h : loadsFrom s i a n ∨ storesTo s i a n) :
    ∃ f : Unit → Result State, exec i s = andThen (dataAccess s a n) f := by
  rcases h with h | h
  · obtain ⟨f, e⟩ := loadsFrom_cases h
    exact ⟨_, e.trans (andThen_assoc _ _ _)⟩
  · obtain ⟨v, f, e, -⟩ := storesTo_cases h
    exact ⟨_, e.trans (andThen_assoc _ _ _)⟩

/-! Misaligned accesses (R69). -/

theorem misaligned_of_access {s : State} (policy : s.params.misalignedData = .fault) {i : Instr} {a : Word} {n : Nat}
    (h : loadsFrom s i a n ∨ storesTo s i a n) (misaligned : a.toNat % n ≠ 0) :
    exec i s = .fault .misalignedData := by
  obtain ⟨f, e⟩ := access_cases h
  rw [e, dataAccess, if_pos ⟨policy, misaligned⟩, andThen_fault]

/-- Settles O47: the alignment is the first of an access's checks. -/
theorem misalignedDataFaults : Obligations.MisalignedDataFaults := by
  intro s policy
  refine ⟨fun a b odd => ?_, fun a b i misaligned => ?_, fun a b k misaligned assigned => ?_,
    fun j k q assigned address misaligned => ?_⟩
  · have load {i : Instr} (h : loadsFrom s i (s.narrowAddress b) 2) := misaligned_of_access policy (.inl h) (by omega)
    have store {i : Instr} (h : storesTo s i (s.narrowAddress b) 2) := misaligned_of_access policy (.inr h) (by omega)
    refine ⟨load ?_, load ?_, store ?_⟩ <;> simp [loadsFrom, storesTo]
  · have load {i : Instr} (h : loadsFrom s i _ 4) := misaligned_of_access policy (.inl h) misaligned
    have store {i : Instr} (h : storesTo s i _ 4) := misaligned_of_access policy (.inr h) misaligned
    refine ⟨load ?_, store ?_⟩ <;> simp [loadsFrom, storesTo]
  · have above : (s.reg b + 4).toNat % 4 ≠ 0 := by
      have four : (4 : Word).toNat = 4 := rfl
      rw [BitVec.toNat_add]
      omega
    have load {i : Instr} (h : loadsFrom s i (s.reg b) 4) := misaligned_of_access policy (.inl h) misaligned
    have pop {i : Instr} (h : loadsFrom s i (s.reg b + 4) 4) := misaligned_of_access policy (.inl h) above
    have store {i : Instr} (h : storesTo s i (s.reg b) 4) := misaligned_of_access policy (.inr h) misaligned
    refine ⟨fun other => ⟨store ?_, pop ?_⟩, store ?_, pop ?_, pop ?_, load ?_, store ?_⟩ <;>
      simp [loadsFrom, storesTo, *]
  · have load {i : Instr} (h : loadsFrom s i (s.special q) 4) := misaligned_of_access policy (.inl h) misaligned
    have store {i : Instr} (h : storesTo s i (s.special q) 4) := misaligned_of_access policy (.inr h) misaligned
    refine ⟨load ?_, store ?_⟩ <;> simp [loadsFrom, storesTo, *]

end Sys2Proof.Proofs
end

section
/-! PROOFS. Fetching (20_memory.md R63, R73, R79, R81; 30_encoding.md R112 to R114): what a step does where its instruction is
fetched, where a fetch stops, and what `icreload` does for the fetches after it (48_group7_extra.md R321). -/

namespace Sys2Proof.Proofs

open Sys2Proof.Machine Sys2Proof.Claims

/-! `icreload`. -/

theorem lineOf_eq_div (a : Word) : lineOf a = a.toNat / 64 * 64 := by
  have := lineOf_mod a
  have := lineOf_add_mod a
  omega

theorem lineOf_eq_iff (a b : Word) : lineOf a = lineOf b ↔ a.toNat / 64 = b.toNat / 64 := by
  rw [lineOf_eq_div, lineOf_eq_div]
  omega

theorem reloadAddress_eq (s : State) (a : Reg) (i : BitVec 5) :
    s.reloadAddress a i = (if s.indexHave = true then s.indexReg else 0) + s.reg a + word (simm5 s i) := by
  rw [word_simm5]
  rfl

theorem exec_icreload (a : Reg) (i : BitVec 5) (s : State) :
    exec (.icreload a i) s =
      andThen (mapAllows s (BitVec.ofNat 32 (lineOf (s.reloadAddress a i))) 64) fun _ =>
        .next (s.reloaded (lineOf (s.reloadAddress a i))).retire := rfl

/-! A fetch reads the snapshot where the line is held, and memory where it is not (R79). -/

theorem fetchByte_of_cached {s : State} {x : Word} {bytes : List Byte} (h : cachedLine s.icache (lineOf x) = some bytes) :
    s.fetchByte x = bytes.getD (x.toNat % 64) 0#8 := by
  rw [State.fetchByte, h]

theorem fetchByte_of_notCached {s : State} {x : Word} (h : cachedLine s.icache (lineOf x) = none) :
    s.fetchByte x = s.mem.read x.toNat := by
  rw [State.fetchByte, h]

theorem fetchByte_congr {s t : State} {x : Word}
    (cache : cachedLine t.icache (lineOf x) = cachedLine s.icache (lineOf x)) (mem : t.mem = s.mem) :
    t.fetchByte x = s.fetchByte x := by
  rw [State.fetchByte, State.fetchByte, cache, mem]

theorem lineBytes_getD_offset (m : Memory) (x : Word) : (m.lineBytes (lineOf x)).getD (x.toNat % 64) 0#8 = m.read x.toNat := by
  rw [Memory.lineBytes_getD m _ _ (Nat.mod_lt _ (by decide)), lineOf_add_mod]

theorem fetchByte_reloaded_same {s : State} {x y : Word} (h : lineOf x = lineOf y) :
    (s.reloaded (lineOf y)).fetchByte x = s.mem.read x.toNat := by
  have snapshot : cachedLine (s.reloaded (lineOf y)).icache (lineOf x) = some (s.mem.lineBytes (lineOf x)) := by
    rw [State.reloaded_icache, cachedLine_replaceCached, if_pos h, h]
  rw [fetchByte_of_cached snapshot, lineBytes_getD_offset]

theorem fetchByte_reloaded_other {s : State} {x y : Word} (h : lineOf x ≠ lineOf y) :
    (s.reloaded (lineOf y)).fetchByte x = s.fetchByte x := by
  refine fetchByte_congr ?_ rfl
  rw [State.reloaded_icache, cachedLine_replaceCached, if_neg h]

/-- Settles O46: the reload replaces the snapshot of its own line by memory's bytes and takes the line off the written ones. -/
theorem icacheReload : Obligations.IcacheReload := by
  intro s a i ea address ram
  obtain rfl := address.trans (reloadAddress_eq s a i).symm
  have allowed : s.ramAt (BitVec.ofNat 32 (lineOf (s.reloadAddress a i))) 64 := fun k hk => by
    rw [← BitVec.ofNat_add, lineOf_eq_div]
    exact ram k hk
  refine ⟨(s.reloaded (lineOf (s.reloadAddress a i))).retire, ?_, rfl, rfl, fun _ _ => rfl, ⟨rfl, rfl, rfl, rfl, rfl⟩,
    fun _ => rfl, ⟨rfl, rfl⟩, noPrefix_retire _, fun x same => ⟨?_, ?_⟩, fun x other => ⟨?_, ?_⟩⟩
  · rw [exec_icreload, (mapAllows_eq_next _ _ _ ()).mpr allowed, andThen_next]
  · exact fetchByte_reloaded_same ((lineOf_eq_iff ..).mpr same)
  · rw [State.retire_staleLines, State.reloaded_staleLines, mem_eraseLine]
    exact fun stale => stale.2 ((lineOf_eq_iff ..).mpr same)
  · exact fetchByte_reloaded_other (mt (lineOf_eq_iff ..).mp other)
  · rw [State.retire_staleLines, State.reloaded_staleLines, mem_eraseLine]
    exact and_iff_left (mt (lineOf_eq_iff ..).mp other)

/-! The step where no interrupt is taken. -/

theorem takesIrq_of_noInterruptNow {s : State} (h : noInterruptNow s) : s.takesIrq = false := by
  rw [Bool.eq_false_iff]
  intro taken
  simp only [State.takesIrq, State.irqSample, State.prefixed, Bool.and_eq_true, Bool.not_eq_true', Bool.or_eq_false_iff]
    at taken
  obtain ⟨⟨request, enabled⟩, ⟨pre, lpre⟩, index⟩ := taken
  rcases h with h | h | h
  · rw [List.headD_eq_head?_getD] at request
    cases e : s.irqLine.head? <;> simp_all
  · simp_all
  · exact h ⟨pre, lpre, index⟩

theorem step_of_noInterruptNow {s : State} (h : noInterruptNow s) :
    step s = andThen (fetchInstr s) fun d => execDecoded d s.sampled := by
  rw [step, takesIrq_of_noInterruptNow h]
  rfl

theorem fetchInstr_even {s : State} (even : s.pcEven) :
    fetchInstr s = andThen (fetchUnit s s.pc) fun u =>
      if isLong u then andThen (fetchUnit s (s.pc + 2)) fun u2 => .next (decodeUnits u u2)
      else .next (decodeUnits u 0#16) := by
  rw [State.pcEven] at even
  simp only [fetchInstr, even, Bool.false_eq_true, if_false]

theorem fetchInstr_odd {s : State} (odd : ¬ s.pcEven) : fetchInstr s = .fault .misalignedPc :=
  if_pos (Bool.eq_true_of_not_eq_false odd)

theorem fetchInstr_short {s : State} (even : s.pcEven) {u : Half} (unit : fetchUnit s s.pc = .next u)
    (short : isLong u = false) : fetchInstr s = .next (decodeUnits u 0#16) := by
  rw [fetchInstr_even even, unit, andThen_next, short]
  rfl

theorem fetchInstr_long {s : State} (even : s.pcEven) {u : Half} (unit : fetchUnit s s.pc = .next u)
    (long : isLong u = true) :
    fetchInstr s = andThen (fetchUnit s (s.pc + 2)) fun u2 => .next (decodeUnits u u2) := by
  rw [fetchInstr_even even, unit, andThen_next, long]
  rfl

theorem fetchUnit_of_ram {s : State} {a : Word} (ram : s.ramAt a 2) (fresh : lineOf a ∉ s.staleLines) :
    fetchUnit s a = .next (unitOfBytes (s.fetchByte a) (s.fetchByte (a + 1))) :=
  (fetchUnit_eq_next ..).mpr ⟨ram, fresh, rfl⟩

theorem fetchUnit_stale {s : State} {a : Word} (ram : s.ramAt a 2) (stale : lineOf a ∈ s.staleLines) :
    fetchUnit s a = .fault .staleFetch := by
  rw [fetchUnit, (mapAllows_eq_next _ _ _ ()).mpr ram, andThen_next, if_pos stale]

/-! What the bytes at `pc` decode to. -/

theorem fetchByte_coherent {s : State} (coherent : s.cacheCoherent) {x : Word} (fresh : lineOf x ∉ s.staleLines) :
    s.fetchByte x = s.mem.read x.toNat := by
  cases cached : cachedLine s.icache (lineOf x) with
  | some bytes => rw [fetchByte_of_cached cached, coherent _ bytes fresh cached, lineBytes_getD_offset]
  | none => exact fetchByte_of_notCached cached

/-- The unit that stands in memory at an address (R63). -/
def unitAt (s : State) (a : Word) : Half := unitOfBytes (s.mem.read a.toNat) (s.mem.read (a + 1).toNat)

theorem fetchUnit_coherent {s : State} (coherent : s.cacheCoherent) {a : Word}
    (bytes : ∀ k, k < 2 → s.kindAt (a + BitVec.ofNat 32 k) = .ram ∧ lineOf (a + BitVec.ofNat 32 k) ∉ s.staleLines) :
    fetchUnit s a = .next (unitAt s a) := by
  have first : lineOf a ∉ s.staleLines := by simpa using (bytes 0 (by decide)).2
  have second : lineOf (a + 1) ∉ s.staleLines := (bytes 1 (by decide)).2
  rw [fetchUnit_of_ram (fun k hk => (bytes k hk).1) first, fetchByte_coherent coherent first,
    fetchByte_coherent coherent second]
  rfl

theorem fetchable_mono {s : State} {m n : Nat} (le : m ≤ n) (h : fetchable s n) : fetchable s m :=
  ⟨h.1, fun k hk => h.2 k (Nat.lt_of_lt_of_le hk le)⟩

theorem fetchUnit_first {s : State} (coherent : s.cacheCoherent) (h : fetchable s 2) :
    fetchUnit s s.pc = .next (unitAt s s.pc) :=
  fetchUnit_coherent coherent h.2

theorem fetchUnit_second {s : State} (coherent : s.cacheCoherent) (h : fetchable s 4) :
    fetchUnit s (s.pc + 2) = .next (unitAt s (s.pc + 2)) := by
  refine fetchUnit_coherent coherent fun k hk => ?_
  have offset : s.pc + 2 + BitVec.ofNat 32 k = s.pc + BitVec.ofNat 32 (2 + k) := by
    rw [BitVec.ofNat_add, ← BitVec.add_assoc]
    rfl
  rw [offset]
  exact h.2 (2 + k) (by omega)

theorem decode_bytesAtPc (s : State) :
    decode (bytesAtPc s) =
      if isLong (unitAt s s.pc) then (decodeUnits (unitAt s s.pc) (unitAt s (s.pc + 2))).map fun i => (i, [])
      else (decodeUnits (unitAt s s.pc) 0#16).map fun i =>
        (i, [s.mem.read (s.pc + 2).toNat, s.mem.read (s.pc + 3).toNat]) := by
  have third : s.pc + 2 + 1 = s.pc + 3 := BitVec.add_assoc _ _ _
  rw [unitAt, unitAt, third]
  rfl

theorem map_eq_ok {α β ε : Type} {x : Except ε α} {f : α → β} {b : β} (h : x.map f = .ok b) :
    ∃ a, x = .ok a ∧ f a = b := by
  cases x with
  | ok a => exact ⟨a, rfl, Except.ok.inj h⟩
  | error e => cases h

theorem map_eq_error {α β ε : Type} {x : Except ε α} {f : α → β} {e : ε} (h : x.map f = .error e) : x = .error e := by
  cases x with
  | ok a => cases h
  | error e' => cases h; rfl

/-- A long unit is the first of an `lpre` (R112). -/
theorem decodeUnits_of_long {u : Half} (long : isLong u = true) (u2 : Half) :
    decodeUnits u u2 = .ok (.lpre (u.extractLsb' 0 11 ++ u2)) := by
  have head : u.extractLsb' 11 5 = 2#5 := eq_of_beq long
  have group : u.extractLsb' 13 3 = 0#3 := extract_extract head (k := 2) (by decide)
  have bit12 : u.extractLsb' 12 1 = BitVec.ofBool true := extract_extract head (k := 1) (by decide)
  have bit11 : u.extractLsb' 11 1 = BitVec.ofBool false := extract_extract head (k := 0) (by decide)
  rw [extract_bit, BitVec.ofBool_eq_iff_eq] at bit12 bit11
  rw [decodeUnits_group0 group, if_neg (by simp [bit12]), if_pos bit11]

theorem two_le_length_encode (i : Instr) : 2 ≤ (encode i).length := by
  cases i <;> simp [encode, encodeUnits, bytesOfUnit]

/-- Settles O51: the units fetched are those in memory, and a second one is fetched for the `lpre` that has one. -/
theorem stepRunsTheDecodedInstruction : Obligations.StepRunsTheDecodedInstruction := by
  intro s i rest quietNow coherent decoded reach
  have first := fetchUnit_first coherent (fetchable_mono (two_le_length_encode i) reach)
  rw [step_of_noInterruptNow quietNow]
  rw [decode_bytesAtPc] at decoded
  cases long : isLong (unitAt s s.pc) with
  | false =>
    rw [long] at decoded
    obtain ⟨j, units, pair⟩ := map_eq_ok decoded
    cases pair
    rw [fetchInstr_short reach.1 first long, units]
    rfl
  | true =>
    rw [long] at decoded
    obtain ⟨j, units, pair⟩ := map_eq_ok decoded
    cases pair
    have isLpre := Except.ok.inj (units.symm.trans (decodeUnits_of_long long _))
    have second := fetchUnit_second coherent (by rw [isLpre] at reach; exact reach)
    rw [fetchInstr_long reach.1 first long, second, andThen_next, units]
    rfl

/-- Settles O52: only a short unit is rejected, and the step is then `reservedInstruction`. -/
theorem reservedEncodingPolicy : Obligations.ReservedEncodingPolicy := by
  intro s e quietNow coherent reach decoded
  have first := fetchUnit_first coherent reach
  rw [decode_bytesAtPc] at decoded
  cases long : isLong (unitAt s s.pc) with
  | true =>
    rw [long, decodeUnits_of_long long] at decoded
    cases decoded
  | false =>
    rw [long] at decoded
    have rejected := map_eq_error decoded
    have step_eq : step s = reservedInstruction s.sampled := by
      rw [step_of_noInterruptNow quietNow, fetchInstr_short reach.1 first long, rejected]
      rfl
    rw [step_eq]
    constructor
    · intro policy
      rw [reservedInstruction, State.sampled_params, policy]
    · intro policy
      exact ⟨_, (reservedInstruction_eq_next ..).mpr ⟨policy, rfl⟩, rfl, rfl, fun _ _ => rfl, ⟨rfl, rfl, rfl, rfl, rfl⟩,
        fun _ => rfl, ⟨rfl, rfl⟩, noPrefix_retire _, rfl, rfl⟩

/-! Where the address map stops an access (R73). -/

theorem mapStops_of_andThen {α : Type} {s : State} {o : Result State} {a : Word} {n : Nat} {f : Unit → Result α}
    {g : α → Result State} (h : o = andThen (andThen (mapAllows s a n) f) g) : mapStops s o a n := by
  constructor
  · rintro ⟨j, hj, absent⟩
    rw [h, mapAllows_absent hj absent, andThen_fault, andThen_fault]
  · rintro noneAbsent ⟨j, hj, device⟩
    rw [h, mapAllows_device hj device noneAbsent, andThen_refused, andThen_refused]

theorem mapStops_of_mapAllows {s : State} {o : Result State} {a : Word} {n : Nat} {f : Unit → Result State}
    (h : o = andThen (mapAllows s a n) f) : mapStops s o a n := by
  refine mapStops_of_andThen (f := f) (g := .next) (h.trans ?_)
  cases andThen (mapAllows s a n) f <;> rfl

theorem mapStops_of_fetchUnit {s : State} {o : Result State} {a : Word} {g : Half → Result State}
    (h : o = andThen (fetchUnit s a) g) : mapStops s o a 2 :=
  mapStops_of_andThen h

theorem step_fetches_first {s : State} (quietNow : noInterruptNow s) (even : s.pcEven) :
    ∃ g, step s = andThen (fetchUnit s s.pc) g := by
  rw [step_of_noInterruptNow quietNow, fetchInstr_even even, andThen_assoc]
  exact ⟨_, rfl⟩

theorem isLong_unitOfBytes {hi : Byte} (h : hi.toNat / 8 = 2) (lo : Byte) : isLong (unitOfBytes hi lo) = true := by
  have head : (unitOfBytes hi lo).extractLsb' 11 5 = 2#5 := by
    apply BitVec.eq_of_toNat_eq
    have := lo.isLt
    rw [BitVec.extractLsb'_toNat, unitOfBytes, toNat_append_field, Nat.shiftRight_eq_div_pow]
    change _ = 2
    omega
  rw [isLong, head]
  rfl

theorem step_fetches_second {s : State} (quietNow : noInterruptNow s) (lpre : firstUnitIsLpre s) :
    ∃ g, step s = andThen (fetchUnit s (s.pc + 2)) g := by
  obtain ⟨⟨even, bytes⟩, head⟩ := lpre
  have fresh : lineOf s.pc ∉ s.staleLines := by simpa using (bytes 0 (by decide)).2
  have first := fetchUnit_of_ram (fun k hk => (bytes k hk).1) fresh
  rw [step_of_noInterruptNow quietNow, fetchInstr_long even first (isLong_unitOfBytes head _), andThen_assoc]
  exact ⟨_, rfl⟩

/-- Settles O49: data accesses, reloads and fetches all ask the address map before they do anything. -/
theorem absentAddressFaults : Obligations.AbsentAddressFaults := by
  refine ⟨fun s i a n accesses aligned => ?_, fun s r v => ?_, fun s quietNow => ⟨fun even => ?_, fun lpre => ?_⟩⟩
  · obtain ⟨f, e⟩ := access_cases accesses
    exact mapStops_of_mapAllows (e.trans (by rw [dataAccess_aligned aligned]))
  · rw [← lineOf_eq_div]
    exact mapStops_of_mapAllows (exec_icreload r v s)
  · obtain ⟨g, e⟩ := step_fetches_first quietNow even
    exact mapStops_of_fetchUnit e
  · obtain ⟨g, e⟩ := step_fetches_second quietNow lpre
    exact mapStops_of_fetchUnit e

/-! Stale lines (R79, R81). -/

theorem step_stale {s : State} (quietNow : noInterruptNow s) (even : s.pcEven) (ram : s.ramAt s.pc 2)
    (stale : lineOf s.pc ∈ s.staleLines) : step s = .fault .staleFetch := by
  obtain ⟨g, e⟩ := step_fetches_first quietNow even
  rw [e, fetchUnit_stale ram stale, andThen_fault]

/-- A store leaves the lines of its bytes written. -/
theorem staleLines_of_store {s t : State} {i : Instr} {a : Word} {n k : Nat} (stores : storesTo s i a n)
    (h : exec i s = .next t) (hk : k < n) : lineOf (a + BitVec.ofNat 32 k) ∈ t.staleLines := by
  obtain ⟨v, f, e, kept⟩ := storesTo_cases stores
  rw [e, andThen_eq_next] at h
  obtain ⟨u, stored, followed⟩ := h
  obtain ⟨-, rfl⟩ := (store_eq_next ..).mp stored
  rw [kept _ t followed, written_staleLines_iff]
  exact .inr ⟨k, hk, rfl⟩

/-- Settles O50: a fetch asks after the map whether its line is written, a store writes its lines, and an odd `pc` stops the
fetch before both. -/
theorem staleFetchFaults : Obligations.StaleFetchFaults := by
  refine ⟨fun s quietNow => ⟨step_stale quietNow, fun lpre ram stale => ?_, fun odd => ?_⟩,
    fun s t i a n k storesAt h even quietNow ram hk sameLine => ?_⟩
  · obtain ⟨g, e⟩ := step_fetches_second quietNow lpre
    rw [e, fetchUnit_stale ram stale, andThen_fault]
  · rw [step_of_noInterruptNow quietNow, fetchInstr_odd odd, andThen_fault]
  · have evenAfter : t.pcEven := (carriesTo_exec i s t h).pcEven even
    exact step_stale quietNow evenAfter ram (sameLine ▸ staleLines_of_store storesAt h hk)

end Sys2Proof.Proofs
end

section
/-! PROOFS. Who writes the special registers (10_state.md R32 to R37). -/

namespace Sys2Proof.Proofs

open Sys2Proof.Machine Sys2Proof.Claims

/-! The writers of each register, and what keeps a register that an instruction is no writer of. -/

/-- The instructions that name a special register, by its field, as the one to write. -/
def writesField (k : SpecialField) (i : Instr) : Prop :=
  ∃ b, i = .cpyToSpecial k b ∨ i = .cpySpecial k b ∨ i = .popSpecial k b ∨ i = .ldrSpecial k b ∨ i = .ldrSpecialAt k b

/-- The instructions that can change a special register (R32 to R37). -/
def mayWrite (i : Instr) : Special → Prop
  | .flags =>
    (∃ a v, i = .cmpImm a v) ∨ (∃ a b, i = .cmp a b ∨ i = .cmpbc a b ∨ i = .cmpb a b ∨ i = .cmph a b) ∨
    (∃ a b, i = .add true a b ∨ i = .sub true a b ∨ i = .addSp true a b ∨ i = .addFp true a b ∨ i = .cpy true a b ∨
      i = .lsl true a b ∨ i = .lsr true a b ∨ i = .asr true a b ∨ i = .and true a b ∨ i = .orr true a b ∨
      i = .xor true a b ∨ i = .adc true a b ∨ i = .sbc true a b) ∨ writesField 0#4 i
  | .ids => writesField 1#4 i
  | .ira => (∃ a v, i = .swiReg a v) ∨ (∃ v, i = .swiImm v) ∨ writesField 2#4 i
  | .ie =>
    i = .ei ∨ i = .di ∨ i = .reti ∨ (∃ a v, i = .swiReg a v) ∨ (∃ v, i = .swiImm v) ∨ writesField 3#4 i
  | .ity => (∃ a v, i = .swiReg a v) ∨ (∃ v, i = .swiImm v) ∨ writesField 4#4 i
  | .sty => (∃ a v, i = .swiReg a v) ∨ (∃ v, i = .swiImm v) ∨ writesField 5#4 i

/-- Each special register is as it was, unless it is among the written ones. -/
structure KeepsOutside (written : Special → Prop) (s t : State) : Prop where
  flags : ¬ written .flags → t.flags = s.flags
  ids : ¬ written .ids → t.ids = s.ids
  ira : ¬ written .ira → t.ira = s.ira
  ie : ¬ written .ie → t.ie = s.ie
  ity : ¬ written .ity → t.ity = s.ity
  sty : ¬ written .sty → t.sty = s.sty

/-- A next state, if the outcome is one, keeps the special registers that are not written. -/
def ResultKeeps (written : Special → Prop) (s : State) (x : Result State) : Prop :=
  ∀ t, x = .next t → KeepsOutside written s t

section
variable {written : Special → Prop} {s u : State}

theorem keepsOutside_of_eq (flags : u.flags = s.flags) (regs : keepsInterruptRegs s u) : KeepsOutside written s u := by
  obtain ⟨ids, ira, ie, ity, sty⟩ := regs
  exact ⟨fun _ => flags, fun _ => ids, fun _ => ira, fun _ => ie, fun _ => ity, fun _ => sty⟩

theorem keepsOutside_refl (s : State) : KeepsOutside written s s := keepsOutside_of_eq rfl ⟨rfl, rfl, rfl, rfl, rfl⟩

theorem keepsOutside_setReg (h : KeepsOutside written s u) (a : Reg) (v : Word) :
    KeepsOutside written s (u.setReg a v) :=
  ⟨h.flags, h.ids, h.ira, h.ie, h.ity, h.sty⟩

theorem keepsOutside_setFlags (h : KeepsOutside written s u) (f : Flags) (hf : written .flags ∨ f = s.flags) :
    KeepsOutside written s (u.setFlags f) :=
  ⟨hf.resolve_left, h.ids, h.ira, h.ie, h.ity, h.sty⟩

theorem keepsOutside_setSpecial (h : KeepsOutside written s u) {q : Special} (writes : written q) (v : Word) :
    KeepsOutside written s (u.setSpecial q v) := by
  obtain ⟨flags, ids, ira, ie, ity, sty⟩ := h
  cases q with
  | flags => exact ⟨absurd writes, ids, ira, ie, ity, sty⟩
  | ids => exact ⟨flags, absurd writes, ira, ie, ity, sty⟩
  | ira => exact ⟨flags, ids, absurd writes, ie, ity, sty⟩
  | ie => exact ⟨flags, ids, ira, absurd writes, ity, sty⟩
  | ity => exact ⟨flags, ids, ira, ie, absurd writes, sty⟩
  | sty => exact ⟨flags, ids, ira, ie, ity, absurd writes⟩

theorem keepsOutside_of_store {a : Word} {n : Nat} {v : Word} (h : store s a n v = .next u) :
    KeepsOutside written s u := by
  obtain ⟨-, rfl⟩ := (store_eq_next s u a n v).mp h
  exact keepsOutside_of_eq rfl ⟨rfl, rfl, rfl, rfl, rfl⟩

/-! The ways in which the meanings are put together. -/

theorem resultKeeps_retire (h : KeepsOutside written s u) : ResultKeeps written s (.next u.retire) := by
  rintro t ⟨⟩
  exact ⟨h.flags, h.ids, h.ira, h.ie, h.ity, h.sty⟩

theorem resultKeeps_jumpTo (h : KeepsOutside written s u) (v : Word) : ResultKeeps written s (jumpTo u v) := by
  intro t jumped
  obtain ⟨-, rfl⟩ := (jumpTo_eq_next u t v).mp jumped
  exact ⟨h.flags, h.ids, h.ira, h.ie, h.ity, h.sty⟩

theorem resultKeeps_ite {c : Prop} [Decidable c] {x y : Result State} (hx : ResultKeeps written s x)
    (hy : ResultKeeps written s y) : ResultKeeps written s (if c then x else y) := by
  split
  · exact hx
  · exact hy

theorem resultKeeps_andThen {α : Type} {x : Result α} {f : α → Result State}
    (hf : ∀ a, x = .next a → ResultKeeps written s (f a)) : ResultKeeps written s (andThen x f) := by
  intro t h
  obtain ⟨a, ha, hfa⟩ := (andThen_eq_next x f t).mp h
  exact hf a ha t hfa

theorem resultKeeps_withSpecial {k : SpecialField} {f : Special → Result State}
    (hf : ∀ q, specialOf k = some q → ResultKeeps written s (f q)) : ResultKeeps written s (withSpecial k f) := by
  intro t h
  obtain ⟨q, names, hq⟩ := (withSpecial_eq_next k f t).mp h
  exact hf q names t hq

theorem resultKeeps_next (flags : u.flags = s.flags) (regs : keepsInterruptRegs s u) :
    ResultKeeps written s (.next u) := by
  rintro t ⟨⟩
  exact keepsOutside_of_eq flags regs

theorem resultKeeps_branchIf (taken : Bool) (i : BitVec 9) (s : State) : ResultKeeps written s (branchIf taken i s) :=
  resultKeeps_ite (resultKeeps_jumpTo (keepsOutside_refl s) _) (resultKeeps_retire (keepsOutside_refl s))

theorem resultKeeps_writeArith {f : Bool} (writes : f = true → written .flags) (a : Reg) (out : AluOut 32) (s : State) :
    ResultKeeps written s (.next (writeArith f a out s).retire) := by
  refine resultKeeps_retire (keepsOutside_setFlags (keepsOutside_setReg (keepsOutside_refl s) a out.value) _ ?_)
  cases f with
  | true => exact .inl (writes rfl)
  | false => exact .inr rfl

theorem resultKeeps_writeLogic {f : Bool} (writes : f = true → written .flags) (a : Reg) (res : Word) (s : State) :
    ResultKeeps written s (.next (writeLogic f a res s).retire) := by
  refine resultKeeps_retire (keepsOutside_setFlags (keepsOutside_setReg (keepsOutside_refl s) a res) _ ?_)
  cases f with
  | true => exact .inl (writes rfl)
  | false => exact .inr rfl

theorem resultKeeps_writeFlags (writes : written .flags) (f : Flags) (s : State) :
    ResultKeeps written s (.next (s.setFlags f).retire) :=
  resultKeeps_retire (keepsOutside_setFlags (keepsOutside_refl s) f (.inl writes))

/-- The entry writes `ira`, `ie`, `ity` and `sty` (R335). -/
theorem resultKeeps_raiseSwi (ira : written .ira) (ie : written .ie) (ity : written .ity) (sty : written .sty)
    (arg : Word) (s : State) : ResultKeeps written s (raiseSwi arg s) := by
  refine resultKeeps_ite (resultKeeps_retire (keepsOutside_refl s)) (resultKeeps_jumpTo ?_ _)
  exact ⟨fun _ => rfl, fun _ => rfl, absurd ira, absurd ie, absurd ity, absurd sty⟩

theorem keepsOutside_setIe (ie : written .ie) (v : Bool) (s : State) : KeepsOutside written s { s with ie := v } :=
  ⟨fun _ => rfl, fun _ => rfl, fun _ => rfl, absurd ie, fun _ => rfl, fun _ => rfl⟩

theorem resultKeeps_loadNarrow (a b : Reg) (n : Nat) (extend : Word → Word) (s : State) :
    ResultKeeps written s (loadNarrow a b n extend s) :=
  resultKeeps_andThen fun _ _ => resultKeeps_retire (keepsOutside_setReg (keepsOutside_refl s) a _)

theorem resultKeeps_storeNarrow (a b : Reg) (n : Nat) (s : State) : ResultKeeps written s (storeNarrow a b n s) :=
  resultKeeps_andThen fun _ stored => resultKeeps_retire (keepsOutside_of_store stored)

theorem resultKeeps_loadSpecial {q : Special} (writes : written q) (addr : Word) (s : State) :
    ResultKeeps written s (loadSpecial q addr s) :=
  resultKeeps_andThen fun _ _ => resultKeeps_retire (keepsOutside_setSpecial (keepsOutside_refl s) writes _)

theorem resultKeeps_storeSpecial (q : Special) (addr : Word) (s : State) :
    ResultKeeps written s (storeSpecial q addr s) :=
  resultKeeps_andThen fun _ stored => resultKeeps_retire (keepsOutside_of_store stored)

theorem resultKeeps_pushWord (b : Reg) (v : Word) (s : State) : ResultKeeps written s (pushWord b v s) :=
  resultKeeps_andThen fun _ stored => resultKeeps_retire (keepsOutside_setReg (keepsOutside_of_store stored) b _)

theorem resultKeeps_popWord (b : Reg) (s : State) {f : Word → State → Result State}
    (hf : ∀ v u, KeepsOutside written s u → ResultKeeps written s (f v u)) : ResultKeeps written s (popWord b s f) :=
  resultKeeps_andThen fun v _ => hf v _ (keepsOutside_setReg (keepsOutside_refl s) b _)

end

/-! The prefixes and the case split over the instructions. -/

theorem resultKeeps_of_prefixInstr {i : Instr} (h : PrefixInstr i) (s : State) : ResultKeeps (mayWrite i) s (exec i s) := by
  cases h with
  | pre | index =>
    refine resultKeeps_ite (resultKeeps_retire (keepsOutside_refl s)) (resultKeeps_next ?_ ?_)
    · rfl
    · exact ⟨rfl, rfl, rfl, rfl, rfl⟩
  | lpre =>
    refine resultKeeps_ite (resultKeeps_next ?_ ?_) (resultKeeps_next ?_ ?_)
    · rfl
    · exact ⟨rfl, rfl, rfl, rfl, rfl⟩
    · rfl
    · exact ⟨rfl, rfl, rfl, rfl, rfl⟩

/-- An instruction that names a register's field to write is one of that register's writers. -/
theorem mayWrite_of_writesField {k : SpecialField} {q : Special} {i : Instr} (names : specialOf k = some q)
    (h : writesField k i) : mayWrite i q := by
  have field {n : Nat} (e : k.toNat = n) : k = BitVec.ofNat 4 n := by
    rw [← e, BitVec.ofNat_toNat, BitVec.setWidth_eq]
  rcases (specialOf_eq_some_iff k q).mp names with ⟨e, rfl⟩ | ⟨e, rfl⟩ | ⟨e, rfl⟩ | ⟨e, rfl⟩ | ⟨e, rfl⟩ | ⟨e, rfl⟩ <;>
    obtain rfl := field e
  · exact .inr (.inr (.inr h))
  · exact h
  · exact .inr (.inr h)
  · exact .inr (.inr (.inr (.inr (.inr h))))
  · exact .inr (.inr h)
  · exact .inr (.inr h)

theorem resultKeeps_exec (i : Instr) (s : State) : ResultKeeps (mayWrite i) s (exec i s) := by
  cases i with
  | pre imm => exact resultKeeps_of_prefixInstr (.pre imm) s
  | lpre imm => exact resultKeeps_of_prefixInstr (.lpre imm) s
  | index a => exact resultKeeps_of_prefixInstr (.index a) s
  | cmpImm | cmp | cmpbc | cmpb | cmph => exact resultKeeps_writeFlags (by simp [mayWrite]) _ s
  | add | sub | addSp | addFp | adc | sbc =>
    exact resultKeeps_writeArith (by rintro rfl; simp [mayWrite]) _ _ s
  | cpy | lsl | lsr | asr | and | orr | xor =>
    exact resultKeeps_writeLogic (by rintro rfl; simp [mayWrite]) _ _ s
  | swiReg | swiImm =>
    exact resultKeeps_raiseSwi (by simp [mayWrite]) (by simp [mayWrite]) (by simp [mayWrite]) (by simp [mayWrite]) _ s
  | ei | di => exact resultKeeps_retire (keepsOutside_setIe (by simp [mayWrite]) _ s)
  | reti => exact resultKeeps_jumpTo (keepsOutside_setIe (by simp [mayWrite]) _ s) _
  | addImm | addPcImm | addSpImm | addFpImm | cpyImm | lslImm | lsrImm | asrImm | andImm | orrImm | xorImm | zeImm | seImm
  | mul | udiv | sdiv | umod | smod | lsrb | asrb | lsrh | asrh =>
    exact resultKeeps_retire (keepsOutside_setReg (keepsOutside_refl s) _ _)
  | lumul | lsmul | udiv64 | sdiv64 | umod64 | smod64 =>
    exact resultKeeps_retire (keepsOutside_setReg (keepsOutside_setReg (keepsOutside_refl s) _ _) _ _)
  | bl | jl => exact resultKeeps_jumpTo (keepsOutside_setReg (keepsOutside_refl s) _ _) _
  | bra | jmp | jmpIra => exact resultKeeps_jumpTo (keepsOutside_refl s) _
  | beq | bne | bmi | bpl | bvs | bvc | bgeu | bltu | bgtu | bleu | bges | blts | bgts | bles =>
    exact resultKeeps_branchIf _ _ s
  | ldub | ldsb | lduh | ldsh => exact resultKeeps_loadNarrow _ _ _ _ s
  | stb | sth => exact resultKeeps_storeNarrow _ _ _ s
  | ldr =>
    exact resultKeeps_andThen fun _ _ => resultKeeps_retire (keepsOutside_setReg (keepsOutside_refl s) _ _)
  | str => exact resultKeeps_andThen fun _ stored => resultKeeps_retire (keepsOutside_of_store stored)
  | icreload =>
    refine resultKeeps_andThen fun _ _ => resultKeeps_retire ?_
    exact keepsOutside_of_eq rfl ⟨rfl, rfl, rfl, rfl, rfl⟩
  | push => exact resultKeeps_ite (resultKeeps_retire (keepsOutside_refl s)) (resultKeeps_pushWord _ _ s)
  | pop =>
    exact resultKeeps_ite (resultKeeps_retire (keepsOutside_refl s))
      (resultKeeps_popWord _ s fun _ _ kept => resultKeeps_retire (keepsOutside_setReg kept _ _))
  | popPc => exact resultKeeps_popWord _ s fun _ _ kept => resultKeeps_jumpTo kept _
  | pushSpecial => exact resultKeeps_withSpecial fun _ _ => resultKeeps_pushWord _ _ s
  | strSpecial => exact resultKeeps_withSpecial fun _ _ => resultKeeps_storeSpecial _ _ s
  | strSpecialAt =>
    exact resultKeeps_withSpecial fun _ _ => resultKeeps_withSpecial fun _ _ => resultKeeps_storeSpecial _ _ s
  | cpyFromSpecial =>
    exact resultKeeps_withSpecial fun _ _ => resultKeeps_retire (keepsOutside_setReg (keepsOutside_refl s) _ _)
  | cpyToSpecial k b =>
    refine resultKeeps_withSpecial fun q names => resultKeeps_retire ?_
    exact keepsOutside_setSpecial (keepsOutside_refl s) (mayWrite_of_writesField names ⟨b, by simp⟩) _
  | cpySpecial k b =>
    refine resultKeeps_withSpecial fun q names => resultKeeps_withSpecial fun _ _ => resultKeeps_retire ?_
    exact keepsOutside_setSpecial (keepsOutside_refl s) (mayWrite_of_writesField names ⟨b, by simp⟩) _
  | popSpecial k b =>
    refine resultKeeps_withSpecial fun q names => resultKeeps_popWord _ s fun _ _ kept => resultKeeps_retire ?_
    exact keepsOutside_setSpecial kept (mayWrite_of_writesField names ⟨b, by simp⟩) _
  | ldrSpecial k b =>
    refine resultKeeps_withSpecial fun q names => resultKeeps_loadSpecial ?_ _ s
    exact mayWrite_of_writesField names ⟨b, by simp⟩
  | ldrSpecialAt k b =>
    refine resultKeeps_withSpecial fun q names => resultKeeps_withSpecial fun _ _ => resultKeeps_loadSpecial ?_ _ s
    exact mayWrite_of_writesField names ⟨b, by simp⟩

/-- Settles O55: a register that changed is not kept, so the instruction is one of its writers. -/
theorem whoWritesTheSpecialRegisters : Obligations.WhoWritesTheSpecialRegisters := by
  intro i s t h
  obtain ⟨flags, ids, ira, ie, ity, sty⟩ := resultKeeps_exec i s t h
  exact ⟨not_imp_comm.mp flags, not_imp_comm.mp ids, not_imp_comm.mp ie, not_imp_comm.mp ira, not_imp_comm.mp ity,
    not_imp_comm.mp sty⟩

end Sys2Proof.Proofs
end
